-- ==== Sys2Proof/Word.lean ====
section
/-! DEFINITION. The word types of the machine: 16-bit registers and addresses, bytes, register indices and
4-bit immediates (00_scope.md R5, R6; 10_state.md R10, R12). -/

namespace Sys2Proof

/-- A register value or a 16-bit offset inside a bank (10_state.md R10, R11). -/
abbrev Word := BitVec 16

/-- A byte of memory, of the image or of the instruction stream. -/
abbrev Byte := BitVec 8

/-- A register index, 0 to 15, "never as a raw reference" (10_state.md R12). -/
abbrev Reg := Fin 16

/-- The 4-bit immediate of format I4 (30_encoding.md R80, R85). -/
abbrev Imm4 := BitVec 4

end Sys2Proof
end

