-- ==== Sys2Proof/Config.lean ====
section
/-! DEFINITION. What `reset(config)` fixes for the life of a session: the bank counts, the buffer sizes and the parameters of 00_scope.md R5
whose value is a decision of the spec ("should be a configuration field of the model"), the opcode map among them. The values
the spec gives are `Sys2Proof.Machine.specConfig` in Machine/Params.lean. The parameters whose value the source itself gives
are fixed: NREG and XLEN by the types of Word.lean, OPSPACE by the key of `OpTable`, the rest by the numbers they stand for. -/

namespace Sys2Proof

/-! ## The opcode map as data (the parameter OpTable) -/

/-- What an entry of the opcode map names: the 83 instructions without their operands (30_encoding.md R87). -/
inductive Opcode where
  | stop | nop | cache | lsr | rol | bra | bge | blt | bne | beq | bpl | bmi | bcc | bcs | bvc | bvs | toR | move
  | withR | stw | stb | loop | alt1 | alt2 | alt3 | ldw | ldb | plot | rpix | swap | color | cmode | not | add | adc
  | addI | adcI | sub | sbc | subI | cmp | merge | and | bic | andI | bicI | mult | umult | multI | umultI | sbk
  | link | sex | asr | div2 | ror | jmp | ljmp | lob | fmult | lmult | ibt | lms | sms | fromR | moves | hib | or
  | xor | orI | xorI | inc | getc | ramb | romb | dec | getb | getbh | getbl | getbs | iwt | lm | sm
  deriving DecidableEq, Repr

/-- A bit of the decode key (30_encoding.md R83): the flags B, ALT2, ALT1 and the eight bits of the opcode byte. -/
inductive KeyBit where
  | b
  | alt2
  | alt1
  | op (i : Fin 8)
  deriving DecidableEq, Repr

/-- The parameter OpTable: an opcode for each value of the decode key, as plain data. A map, or a part of it, is one opcode for
all its keys, or is split by a bit of the key into the part with the bit clear and the part with the bit set. So each map is
total over the key (30_encoding.md R89), and holds an opcode once however many keys select it. -/
inductive OpTable where
  | entry (o : Opcode)
  | split (bit : KeyBit) (clear set : OpTable)
  deriving DecidableEq, Repr

/-! ## The configuration -/

/-- The configuration of one session (00_scope.md R4, R5; 10_state.md R33). No rule changes it between resets. -/
structure Config where
  /-- NROM, the ROM bank count given to reset -/
  nrom : Nat
  /-- NRAM, the RAM bank count given to reset -/
  nram : Nat
  /-- the bytes of the ROM buffer given to reset; no byte lies at or past it (R4; 10_state.md R33) -/
  romSize : Nat
  /-- the bytes of the RAM buffer given to reset; no byte lies at or past it (R4; 10_state.md R33) -/
  ramSize : Nat
  /-- the variant-selector flag: "reserved; one variant defined", read by no rule (R5, 70_reset_and_hazards.md R301) -/
  variant : Nat
  /-- ROM_BANK_MAX, the "hardware maximum" of the ROM bank count -/
  romBankMax : Nat
  /-- ROM_EXT_BASE, the byte offset of the "extended" ROM region in the ROM buffer -/
  romExtBase : Nat
  /-- DITHER_DEPTHS, the depths at which the dither option acts -/
  ditherDepths : List Nat
  /-- TRANSPARENT_TEST, the bits of the final colour that are compared with 0 -/
  transparentMask : Byte
  /-- STOP_CLEARS_POR -/
  stopClearsPor : Bool
  /-- RPIX_SETS_FLAGS -/
  rpixSetsFlags : Bool
  /-- MULT16_CARRY, the bit of the 32-bit product that FMULT and LMULT copy to CY -/
  mult16CarryBit : Nat
  /-- SUBBLOCK, the window bytes that one validity bit covers -/
  subBlock : Nat
  /-- OpTable, the opcode map -/
  opTable : OpTable
  /-- ERR_BREAKPOINT -/
  errBreakpoint : Int
  /-- ERR_ILLEGAL -/
  errIllegal : Int
  deriving DecidableEq, Repr

/-- IMG_SIZE, the bytes of the register image (00_scope.md R5). -/
abbrev imageSize : Nat := 0x300

/-- BANK_SIZE, the bytes addressed inside one bank (00_scope.md R5). -/
abbrev bankSize : Nat := 65536

/-- CACHE_SIZE, the bytes of the instruction cache window (00_scope.md R5). -/
abbrev cacheSize : Nat := 512

end Sys2Proof
end

