-- ==== Sys2Proof/Syntax.lean ====
section
/-! DEFINITION. The 83 instructions of spec/opcode_table.json, one constructor each, with the operands of the formats of
30_encoding.md R80 and R85: `n` a register or a 4-bit immediate from the opcode byte, `e`, `pp`, `yy` one immediate
byte as it stands in the instruction stream, `xx` the 16-bit immediate with its low byte first. -/

namespace Sys2Proof

/-- An instruction, the decode key's row together with its operands (30_encoding.md R87). -/
inductive Instr where
  | stop
  | nop
  | cache
  | lsr
  | rol
  | bra (e : Byte)
  | bge (e : Byte)
  | blt (e : Byte)
  | bne (e : Byte)
  | beq (e : Byte)
  | bpl (e : Byte)
  | bmi (e : Byte)
  | bcc (e : Byte)
  | bcs (e : Byte)
  | bvc (e : Byte)
  | bvs (e : Byte)
  | toR (n : Reg)
  | move (n : Reg)
  | withR (n : Reg)
  | stw (n : Reg)
  | stb (n : Reg)
  | loop
  | alt1
  | alt2
  | alt3
  | ldw (n : Reg)
  | ldb (n : Reg)
  | plot
  | rpix
  | swap
  | color
  | cmode
  | not
  | add (n : Reg)
  | adc (n : Reg)
  | addI (n : Imm4)
  | adcI (n : Imm4)
  | sub (n : Reg)
  | sbc (n : Reg)
  | subI (n : Imm4)
  | cmp (n : Reg)
  | merge
  | and (n : Reg)
  | bic (n : Reg)
  | andI (n : Imm4)
  | bicI (n : Imm4)
  | mult (n : Reg)
  | umult (n : Reg)
  | multI (n : Imm4)
  | umultI (n : Imm4)
  | sbk
  | link (n : Imm4)
  | sex
  | asr
  | div2
  | ror
  | jmp (n : Reg)
  | ljmp (n : Reg)
  | lob
  | fmult
  | lmult
  | ibt (n : Reg) (pp : Byte)
  | lms (n : Reg) (yy : Byte)
  | sms (n : Reg) (yy : Byte)
  | fromR (n : Reg)
  | moves (n : Reg)
  | hib
  | or (n : Reg)
  | xor (n : Reg)
  | orI (n : Imm4)
  | xorI (n : Imm4)
  | inc (n : Reg)
  | getc
  | ramb
  | romb
  | dec (n : Reg)
  | getb
  | getbh
  | getbl
  | getbs
  | iwt (n : Reg) (xx : Word)
  | lm (n : Reg) (xx : Word)
  | sm (n : Reg) (xx : Word)
  deriving DecidableEq, Repr

/-- The row's mnemonic in spec/opcode_table.json, letter for letter. -/
def Instr.mnemonic : Instr → String
  | .stop => "STOP" | .nop => "NOP" | .cache => "CACHE" | .lsr => "LSR" | .rol => "ROL"
  | .bra _ => "BRA" | .bge _ => "BGE" | .blt _ => "BLT" | .bne _ => "BNE" | .beq _ => "BEQ" | .bpl _ => "BPL"
  | .bmi _ => "BMI" | .bcc _ => "BCC" | .bcs _ => "BCS" | .bvc _ => "BVC" | .bvs _ => "BVS"
  | .toR _ => "TO" | .move _ => "MOVE" | .withR _ => "WITH" | .stw _ => "STW" | .stb _ => "STB"
  | .loop => "LOOP" | .alt1 => "ALT1" | .alt2 => "ALT2" | .alt3 => "ALT3" | .ldw _ => "LDW" | .ldb _ => "LDB"
  | .plot => "PLOT" | .rpix => "RPIX" | .swap => "SWAP" | .color => "COLOR" | .cmode => "CMODE" | .not => "NOT"
  | .add _ => "ADD" | .adc _ => "ADC" | .addI _ => "ADD_2" | .adcI _ => "ADC_2"
  | .sub _ => "SUB" | .sbc _ => "SBC" | .subI _ => "SUB_2" | .cmp _ => "CMP" | .merge => "MERGE"
  | .and _ => "AND" | .bic _ => "BIC" | .andI _ => "AND_2" | .bicI _ => "BIC_2"
  | .mult _ => "MULT" | .umult _ => "UMULT" | .multI _ => "MULT_2" | .umultI _ => "UMULT_2"
  | .sbk => "SBK" | .link _ => "LINK" | .sex => "SEX" | .asr => "ASR" | .div2 => "DIV2" | .ror => "ROR"
  | .jmp _ => "JMP" | .ljmp _ => "LJMP" | .lob => "LOB" | .fmult => "FMULT" | .lmult => "LMULT"
  | .ibt _ _ => "IBT" | .lms _ _ => "LMS" | .sms _ _ => "SMS" | .fromR _ => "FROM" | .moves _ => "MOVES"
  | .hib => "HIB" | .or _ => "OR" | .xor _ => "XOR" | .orI _ => "OR_2" | .xorI _ => "XOR_2" | .inc _ => "INC"
  | .getc => "GETC" | .ramb => "RAMB" | .romb => "ROMB" | .dec _ => "DEC"
  | .getb => "GETB" | .getbh => "GETBH" | .getbl => "GETBL" | .getbs => "GETBS"
  | .iwt _ _ => "IWT" | .lm _ _ => "LM" | .sm _ _ => "SM"

end Sys2Proof
end

