-- ==== Sys2Proof/WellFormed.lean ====
section
/-! DEFINITION. The operand ranges of 30_encoding.md R86: a group whose nibble does not cover 0 to 15 gives the missing
bytes to other instructions. Every other operand may take every value of its type. -/

namespace Sys2Proof

/-- The operands lie in the ranges of 30_encoding.md R86 (LINK's 1 to 4: R85). -/
def Instr.wellFormed : Instr → Bool
  | .stw n | .stb n | .ldw n | .ldb n => n.val ≤ 11
  | .and n | .bic n | .or n | .xor n => 1 ≤ n.val
  | .andI n | .bicI n | .orI n | .xorI n => n ≠ 0
  | .inc n | .dec n => n.val ≤ 14
  | .jmp n | .ljmp n => 8 ≤ n.val && n.val ≤ 13
  | .link n => 1 ≤ n.toNat && n.toNat ≤ 4
  | .stop | .nop | .cache | .lsr | .rol => true
  | .bra _ | .bge _ | .blt _ | .bne _ | .beq _ | .bpl _ | .bmi _ | .bcc _ | .bcs _ | .bvc _ | .bvs _ => true
  | .toR _ | .move _ | .withR _ | .fromR _ | .moves _ | .loop | .alt1 | .alt2 | .alt3 => true
  | .plot | .rpix | .swap | .color | .cmode | .not => true
  | .add _ | .adc _ | .addI _ | .adcI _ | .sub _ | .sbc _ | .subI _ | .cmp _ | .merge => true
  | .mult _ | .umult _ | .multI _ | .umultI _ => true
  | .sbk | .sex | .asr | .div2 | .ror | .lob | .hib | .fmult | .lmult => true
  | .ibt _ _ | .lms _ _ | .sms _ _ | .iwt _ _ | .lm _ _ | .sm _ _ => true
  | .getc | .ramb | .romb | .getb | .getbh | .getbl | .getbs => true

end Sys2Proof
end

