-- ==== Sys2Proof/Decode.lean ====
section
/-! DEFINITION. The decoder and, after it, the encoder. The opcode byte is decoded under the three mode flags B, ALT2, ALT1
(30_encoding.md R81, R83) by an opcode map, the parameter OpTable of 00_scope.md R5; the spec's map (R87) is `specOpTable`, laid
out as R87 is, by high nibble, then low nibble, then page. No key is unhandled (R89); the only thing a decoder of bytes can
refuse is a list that ends too early. -/

namespace Sys2Proof

/-- The mode flags that take part in decoding (30_encoding.md R83). -/
structure Mode where
  b : Bool
  alt2 : Bool
  alt1 : Bool
  deriving DecidableEq, Repr

/-- The page number ALT1 + 2 x ALT2 (30_encoding.md R81). -/
def Mode.page (m : Mode) : Nat := m.alt1.toNat + 2 * m.alt2.toNat

/-- The mode that selects page `p` with B clear. -/
def Mode.ofPage (p : Nat) : Mode := { b := false, alt2 := p.testBit 1, alt1 := p.testBit 0 }

/-- One of four meanings, by page (30_encoding.md R82). -/
def Mode.pick {α : Type} (m : Mode) (p0 p1 p2 p3 : α) : α :=
  match m.alt2, m.alt1 with
  | false, false => p0
  | false, true => p1
  | true, false => p2
  | true, true => p3

/-- Bits 3:0 of the opcode byte, the field `n` (30_encoding.md R80). -/
def lowNibble (op : Byte) : Nat := op.toNat % 16

/-- The register operand `n` (30_encoding.md R85). -/
def regField (op : Byte) : Reg := Fin.ofNat 16 (lowNibble op)

/-- The immediate operand `#n` (30_encoding.md R85). -/
def immField (op : Byte) : Imm4 := BitVec.ofNat 4 (lowNibble op)

/-- A 16-bit immediate from its two bytes, low byte first (30_encoding.md R85). -/
def wordOfBytes (lo hi : Byte) : Word := hi ++ lo

/-! ## The opcode map -/

/-- The value of a bit of the decode key (30_encoding.md R83). -/
def Mode.keyBit (m : Mode) (op : Byte) : KeyBit → Bool
  | .b => m.b
  | .alt2 => m.alt2
  | .alt1 => m.alt1
  | .op i => op.getLsbD i.val

/-- The entry of an opcode map for the key {B, ALT2, ALT1, op} (30_encoding.md R83). -/
def OpTable.select (m : Mode) (op : Byte) : OpTable → Opcode
  | .entry o => o
  | .split bit clear set => if m.keyBit op bit then set.select m op else clear.select m op

/-- One of four parts of a map, by page (30_encoding.md R82). -/
def OpTable.pages (p0 p1 p2 p3 : OpTable) : OpTable := .split .alt2 (.split .alt1 p0 p1) (.split .alt1 p2 p3)

/-- One opcode for each page. -/
def OpTable.byPage (p0 p1 p2 p3 : Opcode) : OpTable := .pages (.entry p0) (.entry p1) (.entry p2) (.entry p3)

/-- One opcode for pages 0 and 2 and one for pages 1 and 3. -/
def OpTable.byAlt1 (p02 p13 : Opcode) : OpTable := .split .alt1 (.entry p02) (.entry p13)

/-- One opcode with B clear and one with B set (30_encoding.md R83). -/
def OpTable.byB (clear set : Opcode) : OpTable := .split .b (.entry clear) (.entry set)

/-- One of sixteen parts of a map, by four bits of the key, the most significant first. -/
def OpTable.nibble (k3 k2 k1 k0 : KeyBit) (x0 x1 x2 x3 x4 x5 x6 x7 x8 x9 xA xB xC xD xE xF : OpTable) : OpTable :=
  .split k3
    (.split k2 (.split k1 (.split k0 x0 x1) (.split k0 x2 x3)) (.split k1 (.split k0 x4 x5) (.split k0 x6 x7)))
    (.split k2 (.split k1 (.split k0 x8 x9) (.split k0 xA xB)) (.split k1 (.split k0 xC xD) (.split k0 xE xF)))

/-- By the low nibble of the opcode byte. -/
def OpTable.byLow : (x0 x1 x2 x3 x4 x5 x6 x7 x8 x9 xA xB xC xD xE xF : OpTable) → OpTable :=
  .nibble (.op 3) (.op 2) (.op 1) (.op 0)

/-- By the high nibble of the opcode byte. -/
def OpTable.byHigh : (x0 x1 x2 x3 x4 x5 x6 x7 x8 x9 xA xB xC xD xE xF : OpTable) → OpTable :=
  .nibble (.op 7) (.op 6) (.op 5) (.op 4)

/-- The bytes 00 to 0F (30_encoding.md R87). -/
def specRow0 : OpTable :=
  .byLow (.entry .stop) (.entry .nop) (.entry .cache) (.entry .lsr) (.entry .rol) (.entry .bra) (.entry .bge) (.entry .blt)
    (.entry .bne) (.entry .beq) (.entry .bpl) (.entry .bmi) (.entry .bcc) (.entry .bcs) (.entry .bvc) (.entry .bvs)

/-- The bytes 30 to 3F: stores at 30 to 3B, LOOP and the ALT prefixes. -/
def specRow3 : OpTable :=
  let st := OpTable.byAlt1 .stw .stb
  .byLow st st st st st st st st st st st st (.entry .loop) (.entry .alt1) (.entry .alt2) (.entry .alt3)

/-- The bytes 40 to 4F: loads at 40 to 4B, PLOT and RPIX, SWAP, COLOR and CMODE, NOT. -/
def specRow4 : OpTable :=
  let ld := OpTable.byAlt1 .ldw .ldb
  .byLow ld ld ld ld ld ld ld ld ld ld ld ld (.byAlt1 .plot .rpix) (.entry .swap) (.byAlt1 .color .cmode) (.entry .not)

/-- The bytes 70 to 7F: MERGE, then AND and BIC. -/
def specRow7 : OpTable :=
  let l := OpTable.byPage .and .bic .andI .bicI
  .byLow (.entry .merge) l l l l l l l l l l l l l l l

/-- The bytes 90 to 9F. -/
def specRow9 : OpTable :=
  let j := OpTable.byAlt1 .jmp .ljmp
  let k := OpTable.entry .link
  .byLow (.entry .sbk) k k k k (.entry .sex) (.byAlt1 .asr .div2) (.entry .ror)
    j j j j j j (.entry .lob) (.byAlt1 .fmult .lmult)

/-- The bytes C0 to CF: HIB, then OR and XOR. -/
def specRowC : OpTable :=
  let l := OpTable.byPage .or .xor .orI .xorI
  .byLow (.entry .hib) l l l l l l l l l l l l l l l

/-- The bytes D0 to DF: INC, then GETC, RAMB and ROMB. -/
def specRowD : OpTable :=
  let i := OpTable.entry .inc
  .byLow i i i i i i i i i i i i i i i (.byPage .getc .getc .ramb .romb)

/-- The bytes E0 to EF: DEC, then the ROM buffer reads. -/
def specRowE : OpTable :=
  let d := OpTable.entry .dec
  .byLow d d d d d d d d d d d d d d d (.byPage .getb .getbh .getbl .getbs)

/-- The spec's opcode map: spec/opcode_table.json (30_encoding.md R87; 00_scope.md R5, the value of OpTable). -/
def specOpTable : OpTable :=
  .byHigh
    specRow0
    (.byB .toR .move)
    (.entry .withR)
    specRow3
    specRow4
    (.byPage .add .adc .addI .adcI)
    (.byPage .sub .sbc .subI .cmp)
    specRow7
    (.byPage .mult .umult .multI .umultI)
    specRow9
    (.byPage .ibt .lms .sms .lms)
    (.byB .fromR .moves)
    specRowC
    specRowD
    specRowE
    (.byPage .iwt .lm .sm .lm)

/-! ## From an opcode to an instruction -/

/-- How many immediate bytes an instruction takes from the stream, by its format (30_encoding.md R80, R85). -/
def Opcode.immCount : Opcode → Nat
  | .bra | .bge | .blt | .bne | .beq | .bpl | .bmi | .bcc | .bcs | .bvc | .bvs => 1
  | .ibt | .lms | .sms => 1
  | .iwt | .lm | .sm => 2
  | .stop | .nop | .cache | .lsr | .rol | .toR | .move | .withR | .stw | .stb | .loop | .alt1 | .alt2 | .alt3
  | .ldw | .ldb | .plot | .rpix | .swap | .color | .cmode | .not | .add | .adc | .addI | .adcI | .sub | .sbc
  | .subI | .cmp | .merge | .and | .bic | .andI | .bicI | .mult | .umult | .multI | .umultI | .sbk | .link
  | .sex | .asr | .div2 | .ror | .jmp | .ljmp | .lob | .fmult | .lmult | .fromR | .moves | .hib | .or | .xor
  | .orI | .xorI | .inc | .getc | .ramb | .romb | .dec | .getb | .getbh | .getbl | .getbs => 0

/-- The instruction that an opcode makes with its operands: `n` from the low nibble of the opcode byte, the immediates from the
bytes `b1`, `b2` that follow it (30_encoding.md R85). -/
def Opcode.instr (op b1 b2 : Byte) : Opcode → Instr
  | .stop => .stop
  | .nop => .nop
  | .cache => .cache
  | .lsr => .lsr
  | .rol => .rol
  | .bra => .bra b1
  | .bge => .bge b1
  | .blt => .blt b1
  | .bne => .bne b1
  | .beq => .beq b1
  | .bpl => .bpl b1
  | .bmi => .bmi b1
  | .bcc => .bcc b1
  | .bcs => .bcs b1
  | .bvc => .bvc b1
  | .bvs => .bvs b1
  | .toR => .toR (regField op)
  | .move => .move (regField op)
  | .withR => .withR (regField op)
  | .stw => .stw (regField op)
  | .stb => .stb (regField op)
  | .loop => .loop
  | .alt1 => .alt1
  | .alt2 => .alt2
  | .alt3 => .alt3
  | .ldw => .ldw (regField op)
  | .ldb => .ldb (regField op)
  | .plot => .plot
  | .rpix => .rpix
  | .swap => .swap
  | .color => .color
  | .cmode => .cmode
  | .not => .not
  | .add => .add (regField op)
  | .adc => .adc (regField op)
  | .addI => .addI (immField op)
  | .adcI => .adcI (immField op)
  | .sub => .sub (regField op)
  | .sbc => .sbc (regField op)
  | .subI => .subI (immField op)
  | .cmp => .cmp (regField op)
  | .merge => .merge
  | .and => .and (regField op)
  | .bic => .bic (regField op)
  | .andI => .andI (immField op)
  | .bicI => .bicI (immField op)
  | .mult => .mult (regField op)
  | .umult => .umult (regField op)
  | .multI => .multI (immField op)
  | .umultI => .umultI (immField op)
  | .sbk => .sbk
  | .link => .link (immField op)
  | .sex => .sex
  | .asr => .asr
  | .div2 => .div2
  | .ror => .ror
  | .jmp => .jmp (regField op)
  | .ljmp => .ljmp (regField op)
  | .lob => .lob
  | .fmult => .fmult
  | .lmult => .lmult
  | .ibt => .ibt (regField op) b1
  | .lms => .lms (regField op) b1
  | .sms => .sms (regField op) b1
  | .fromR => .fromR (regField op)
  | .moves => .moves (regField op)
  | .hib => .hib
  | .or => .or (regField op)
  | .xor => .xor (regField op)
  | .orI => .orI (immField op)
  | .xorI => .xorI (immField op)
  | .inc => .inc (regField op)
  | .getc => .getc
  | .ramb => .ramb
  | .romb => .romb
  | .dec => .dec (regField op)
  | .getb => .getb
  | .getbh => .getbh
  | .getbl => .getbl
  | .getbs => .getbs
  | .iwt => .iwt (regField op) (wordOfBytes b1 b2)
  | .lm => .lm (regField op) (wordOfBytes b1 b2)
  | .sm => .sm (regField op) (wordOfBytes b1 b2)

/-- The instruction that the opcode byte `op` selects under mode `m` in an opcode map, with the bytes `b1`, `b2` that follow it
supplying the immediates of the formats that have any (30_encoding.md R85, R87). -/
def decodeOp (t : OpTable) (m : Mode) (op b1 b2 : Byte) : Instr := (t.select m op).instr op b1 b2

/-- The length in bytes of an instruction of the spec's map, "from its opcode byte alone, the same on every page" (30_encoding.md R84). -/
def opLength (op : Byte) : Nat :=
  if 0xF0 ≤ op.toNat then 3
  else if (0x05 ≤ op.toNat ∧ op.toNat ≤ 0x0F) ∨ (0xA0 ≤ op.toNat ∧ op.toNat ≤ 0xAF) then 2
  else 1

/-- Why a list of bytes gives no instruction. -/
inductive DecodeError where
  /-- there is no opcode byte -/
  | noOpcodeByte
  /-- the list ends before the immediate bytes that the instruction calls for -/
  | missingImmediate (op : Byte)
  deriving DecidableEq, Repr

/-- Decode the instruction at the front of a list of bytes under an opcode map, with the bytes that follow it. -/
def decode (t : OpTable) (m : Mode) : List Byte → Except DecodeError (Instr × List Byte)
  | [] => .error .noOpcodeByte
  | op :: rest =>
    match (t.select m op).immCount, rest with
    | 0, rest => .ok (decodeOp t m op 0 0, rest)
    | 1, b1 :: rest => .ok (decodeOp t m op b1 0, rest)
    | _, b1 :: b2 :: rest => .ok (decodeOp t m op b1 b2, rest)
    | _, _ => .error (.missingImmediate op)

/-- The mode flags of the decode key (30_encoding.md R83): bit 10 is B, bit 9 ALT2, bit 8 ALT1. -/
def modeOfKey (key : Nat) : Mode := { b := key.testBit 10, alt2 := key.testBit 9, alt1 := key.testBit 8 }

/-- The bits of a table word: the key's mode flags (10:8), the opcode byte (7:0), and the immediate bytes that the
table gives no bits, taken from bits 23:16 and 31:24 (log 4). -/
structure TableWord where
  mode : Mode
  op : Byte
  b1 : Byte
  b2 : Byte
  deriving DecidableEq, Repr

/-- The parts of an `nbits`-bit table word. The eleven key bits are read whatever `nbits` is, since a key has no fewer;
every immediate bit above `nbits` is 0. -/
def tableWord (nbits w : Nat) : TableWord :=
  let v := w % 2 ^ nbits
  { mode := modeOfKey w
    op := BitVec.ofNat 8 w
    b1 := BitVec.ofNat 8 (v / 2 ^ 16)
    b2 := BitVec.ofNat 8 (v / 2 ^ 24) }

/-- The instruction the decoder reads, under the spec's map, from an instruction whose bits, numbered as
spec/opcode_table.json numbers them, are `w`. -/
def decodeTableWord (nbits w : Nat) : Option Instr :=
  let t := tableWord nbits w
  match decode specOpTable t.mode [t.op, t.b1, t.b2] with
  | .ok (i, _) => some i
  | .error _ => none

/-! ## The encoder -/

/-- Where an instruction stands in the map: the mode it is decoded under and its bytes. For an instruction that
stands on several pages the lowest is taken (log 10). -/
structure Encoding where
  mode : Mode
  bytes : List Byte
  deriving DecidableEq, Repr

/-- An opcode byte from its two nibbles. -/
def opByte (high low : Nat) : Byte := BitVec.ofNat 8 (16 * high + low)

/-- The low byte of a 16-bit immediate, which comes first (30_encoding.md R85). -/
def lowByte (w : Word) : Byte := w.setWidth 8

/-- The high byte of a word. -/
def highByte (w : Word) : Byte := w.extractLsb' 8 8

/-- An encoding on page `p` with B clear. -/
def onPage (p : Nat) (bytes : List Byte) : Encoding := { mode := Mode.ofPage p, bytes := bytes }

/-- The words of an instruction, from the tables of 30_encoding.md R80 and R87. -/
def encode : Instr → Encoding
  | .stop => onPage 0 [0x00]
  | .nop => onPage 0 [0x01]
  | .cache => onPage 0 [0x02]
  | .lsr => onPage 0 [0x03]
  | .rol => onPage 0 [0x04]
  | .bra e => onPage 0 [0x05, e]
  | .bge e => onPage 0 [0x06, e]
  | .blt e => onPage 0 [0x07, e]
  | .bne e => onPage 0 [0x08, e]
  | .beq e => onPage 0 [0x09, e]
  | .bpl e => onPage 0 [0x0A, e]
  | .bmi e => onPage 0 [0x0B, e]
  | .bcc e => onPage 0 [0x0C, e]
  | .bcs e => onPage 0 [0x0D, e]
  | .bvc e => onPage 0 [0x0E, e]
  | .bvs e => onPage 0 [0x0F, e]
  | .toR n => onPage 0 [opByte 0x1 n.val]
  | .move n => { mode := { b := true, alt2 := false, alt1 := false }, bytes := [opByte 0x1 n.val] }
  | .withR n => onPage 0 [opByte 0x2 n.val]
  | .stw n => onPage 0 [opByte 0x3 n.val]
  | .stb n => onPage 1 [opByte 0x3 n.val]
  | .loop => onPage 0 [0x3C]
  | .alt1 => onPage 0 [0x3D]
  | .alt2 => onPage 0 [0x3E]
  | .alt3 => onPage 0 [0x3F]
  | .ldw n => onPage 0 [opByte 0x4 n.val]
  | .ldb n => onPage 1 [opByte 0x4 n.val]
  | .plot => onPage 0 [0x4C]
  | .rpix => onPage 1 [0x4C]
  | .swap => onPage 0 [0x4D]
  | .color => onPage 0 [0x4E]
  | .cmode => onPage 1 [0x4E]
  | .not => onPage 0 [0x4F]
  | .add n => onPage 0 [opByte 0x5 n.val]
  | .adc n => onPage 1 [opByte 0x5 n.val]
  | .addI n => onPage 2 [opByte 0x5 n.toNat]
  | .adcI n => onPage 3 [opByte 0x5 n.toNat]
  | .sub n => onPage 0 [opByte 0x6 n.val]
  | .sbc n => onPage 1 [opByte 0x6 n.val]
  | .subI n => onPage 2 [opByte 0x6 n.toNat]
  | .cmp n => onPage 3 [opByte 0x6 n.val]
  | .merge => onPage 0 [0x70]
  | .and n => onPage 0 [opByte 0x7 n.val]
  | .bic n => onPage 1 [opByte 0x7 n.val]
  | .andI n => onPage 2 [opByte 0x7 n.toNat]
  | .bicI n => onPage 3 [opByte 0x7 n.toNat]
  | .mult n => onPage 0 [opByte 0x8 n.val]
  | .umult n => onPage 1 [opByte 0x8 n.val]
  | .multI n => onPage 2 [opByte 0x8 n.toNat]
  | .umultI n => onPage 3 [opByte 0x8 n.toNat]
  | .sbk => onPage 0 [0x90]
  | .link n => onPage 0 [opByte 0x9 n.toNat]
  | .sex => onPage 0 [0x95]
  | .asr => onPage 0 [0x96]
  | .div2 => onPage 1 [0x96]
  | .ror => onPage 0 [0x97]
  | .jmp n => onPage 0 [opByte 0x9 n.val]
  | .ljmp n => onPage 1 [opByte 0x9 n.val]
  | .lob => onPage 0 [0x9E]
  | .fmult => onPage 0 [0x9F]
  | .lmult => onPage 1 [0x9F]
  | .ibt n pp => onPage 0 [opByte 0xA n.val, pp]
  | .lms n yy => onPage 1 [opByte 0xA n.val, yy]
  | .sms n yy => onPage 2 [opByte 0xA n.val, yy]
  | .fromR n => onPage 0 [opByte 0xB n.val]
  | .moves n => { mode := { b := true, alt2 := false, alt1 := false }, bytes := [opByte 0xB n.val] }
  | .hib => onPage 0 [0xC0]
  | .or n => onPage 0 [opByte 0xC n.val]
  | .xor n => onPage 1 [opByte 0xC n.val]
  | .orI n => onPage 2 [opByte 0xC n.toNat]
  | .xorI n => onPage 3 [opByte 0xC n.toNat]
  | .inc n => onPage 0 [opByte 0xD n.val]
  | .getc => onPage 0 [0xDF]
  | .ramb => onPage 2 [0xDF]
  | .romb => onPage 3 [0xDF]
  | .dec n => onPage 0 [opByte 0xE n.val]
  | .getb => onPage 0 [0xEF]
  | .getbh => onPage 1 [0xEF]
  | .getbl => onPage 2 [0xEF]
  | .getbs => onPage 3 [0xEF]
  | .iwt n xx => onPage 0 [opByte 0xF n.val, lowByte xx, highByte xx]
  | .lm n xx => onPage 1 [opByte 0xF n.val, lowByte xx, highByte xx]
  | .sm n xx => onPage 2 [opByte 0xF n.val, lowByte xx, highByte xx]

/-- The immediate bytes of an instruction, in stream order. -/
def immBytes (i : Instr) : List Byte := (encode i).bytes.drop 1

/-- The ALT prefix that "an assembler emits ... itself" for an instruction of pages 1 to 3 (30_encoding.md R91). -/
def altPrefix (m : Mode) : List Byte := m.pick [] [0x3D] [0x3E] [0x3F]

/-- The bytes an assembler emits for an instruction of the register forms, prefix included (30_encoding.md R91). MOVE and
MOVES are pseudo-instructions of two bytes (R92): see `Pseudo`. -/
def assemble (i : Instr) : List Byte := altPrefix (encode i).mode ++ (encode i).bytes

/-- The pseudo-instructions of 30_encoding.md R92. -/
inductive Pseudo where
  | moveRR (rd rs : Reg)
  | movesRR (rd rs : Reg)
  | moveImm (rd : Reg) (xx : Word)
  | moveLoad (rd : Reg) (xx : Word)
  | moveStore (xx : Word) (rs : Reg)
  | movewLoad (rd rn : Reg)
  | movebLoad (rd rn : Reg)
  | movewStore (rn rs : Reg)
  | movebStore (rn rs : Reg)
  | lea (rd : Reg) (xx : Word)
  deriving DecidableEq, Repr

/-- The short form of an absolute address serves "when xx is even and below 0x200" (30_encoding.md R92). -/
def fitsShort (xx : Word) : Bool := xx.toNat % 2 == 0 && xx.toNat < 0x200

/-- The expansion of a pseudo-instruction into the bytes of 30_encoding.md R92. -/
def Pseudo.expand : Pseudo → List Byte
  | .moveRR rd rs => assemble (.withR rs) ++ assemble (.toR rd)
  | .movesRR rd rs => assemble (.withR rd) ++ assemble (.fromR rs)
  | .moveImm rd xx =>
    if (lowByte xx).signExtend 16 = xx then assemble (.ibt rd (lowByte xx)) else assemble (.iwt rd xx)
  | .moveLoad rd xx =>
    if fitsShort xx then assemble (.lms rd (lowByte (xx >>> 1))) else assemble (.lm rd xx)
  | .moveStore xx rs =>
    if fitsShort xx then assemble (.sms rs (lowByte (xx >>> 1))) else assemble (.sm rs xx)
  | .movewLoad rd rn => assemble (.toR rd) ++ assemble (.ldw rn)
  | .movebLoad rd rn => assemble (.toR rd) ++ assemble (.ldb rn)
  | .movewStore rn rs => assemble (.fromR rs) ++ assemble (.stw rn)
  | .movebStore rn rs => assemble (.fromR rs) ++ assemble (.stb rn)
  | .lea rd xx => assemble (.iwt rd xx)

end Sys2Proof
end

