-- ==== Sys2Proof/Machine/Memory.lean ====
section
/-! DEFINITION. A byte buffer as plain data: the (address, byte) pairs that differ from what an unlisted address reads as,
addresses strictly rising. The RAM buffer, the ROM buffer and the register image are each one of these. -/

namespace Sys2Proof.Machine

/-- A byte buffer (20_memory.md R50; 10_state.md R37). -/
abbrev Memory := List Host.Cell

/-- What an unlisted byte reads as. For the RAM and ROM buffers the spec gives no content ("their content is a launch
input", 10_state.md R45): DESIGN CHOICE 0, unsafe (log 1). For the image it is the zero that reset fills it with (R45). -/
def unlisted : Byte := 0

/-- The byte at an address. -/
def Memory.read : Memory → Nat → Byte
  | [], _ => unlisted
  | c :: m, a => if c.1 = a then c.2 else Memory.read m a

/-- The memory with one address unlisted. -/
def Memory.erase (m : Memory) (a : Nat) : Memory := m.filter fun c => c.1 != a

/-- Put a cell in front of the first cell with a greater address. -/
def Memory.insert : Memory → Nat → Byte → Memory
  | [], a, v => [(a, v)]
  | c :: m, a, v => if a < c.1 then (a, v) :: c :: m else c :: Memory.insert m a v

/-- Write one byte, keeping the canonical form: the value an unlisted address reads as is not listed. -/
def Memory.write (m : Memory) (a : Nat) (v : Byte) : Memory :=
  if v = unlisted then m.erase a else (m.erase a).insert a v

/-- The canonical form: addresses strictly rising, no cell equal to what an unlisted address reads as. -/
abbrev Memory.wf (m : Memory) : Prop :=
  m.Pairwise (fun c d => c.1 < d.1) ∧ ∀ c ∈ m, c.2 ≠ unlisted

/-- Every listed address lies below `size`. -/
abbrev Memory.below (m : Memory) (size : Nat) : Prop := ∀ c ∈ m, c.1 < size

end Sys2Proof.Machine
end

