-- ==== Sys2Proof/Machine/Params.lean ====
section
/-! DEFINITION. The values of the parameters of 00_scope.md R5, as the spec gives them, and the bank counts and buffer sizes of
the machine that `State.reset` is (log 2). -/

namespace Sys2Proof.Machine

/-- The parameters at the values of 00_scope.md R5, for the bank counts given to reset, with buffers of the least sizes that
20_memory.md R53 requires for them (DESIGN CHOICE, log 2). -/
def specConfig (nrom nram : Nat) : Config where
  nrom := nrom
  nram := nram
  romSize := max (2 * bankSize) (0x200000 + 2 * min nrom 0x20 * bankSize)
  ramSize := nram * bankSize
  variant := 0
  romBankMax := 0x20
  romExtBase := 0x200000
  ditherDepths := [2]
  transparentMask := 0xFF
  stopClearsPor := false
  rpixSetsFlags := true
  mult16CarryBit := 15
  subBlock := 32
  opTable := specOpTable
  errBreakpoint := -1
  errIllegal := -2

/-- The configuration of `State.reset`: 8 ROM banks and 2 RAM banks, as in 70_reset_and_hazards.md R305 (DESIGN CHOICE,
log 2, unsafe for statements about the reset state alone). -/
def defaultConfig : Config := specConfig 8 2

end Sys2Proof.Machine
end

