-- ==== Sys2Proof/Machine/State.lean ====
section
/-! DEFINITION. All state of one session (10_state.md), as plain data, the reasons a call can stop, and the state after
reset (R45). -/

namespace Sys2Proof.Machine

/-- The error conditions of 60_exceptions.md R272. No instruction raises one (R270), so no step answers `.fault`: they are
recorded in `err` by `State.raise` (R271), which only the host's entry points call. -/
inductive Fault where
  /-- raised by the debug loops (R282, R283) when R15 equals the breakpoint after a step. Recorded, never a stop of `step`: safe. -/
  | breakpointHit
  /-- raised by `emulate` and `stepOver` when the start check fails (R275, R278). Recorded, never a stop of `step`: safe. -/
  | illegalStartAddress (addr : BitVec 24)
  deriving DecidableEq, Repr

/-- Why the model gives no meaning. -/
inductive Refusal where
  /-- an instruction without a meaning yet, by its mnemonic: raised by no arm of `exec`. Safe. -/
  | notModelled (mnemonic : String)
  /-- raised by `resetWith` for a configuration with a bank count of 0 or with a buffer smaller than 20_memory.md R53 requires, and
  for content that lies outside its buffer (70_reset_and_hazards.md R301, 93_implementation_defined.md G11: "refuse" at reset;
  log 14). Safe. -/
  | badConfiguration
  deriving DecidableEq, Repr

/-- The state of one session. -/
structure State where
  /-- R0 to R15; R15 is the program counter (10_state.md R10, R11) -/
  regs : Vector Word 16
  /-- the source register index (R12) -/
  sreg : Reg
  /-- the destination register index (R12) -/
  dreg : Reg
  /-- SFR, the status-flags word (R15) -/
  sfr : Word
  /-- PBR, the program bank (R21) -/
  pbr : Byte
  /-- ROMBR, the ROM data bank (R22) -/
  rombr : Byte
  /-- RAMBR, the RAM bank (R23) -/
  rambr : BitVec 2
  /-- CBR, the cache base (R24) -/
  cbr : Word
  /-- whether the cache window is active (R24) -/
  cacheActive : Bool
  /-- the validity bit of each 32-byte sub-block of the window (R24) -/
  cvalid : BitVec 16
  /-- COLR, the colour register (R25) -/
  colr : Byte
  /-- POR, the plot option register (R26) -/
  por : BitVec 5
  /-- SCBR, the screen base, written by the host (R27) -/
  scbr : Byte
  /-- SCMR, the screen mode, written by the host (R27) -/
  scmr : Byte
  /-- CFGR, the configuration byte, written by the host (R27) -/
  cfgr : Byte
  /-- the prefetched byte (R29) -/
  pipe : Byte
  /-- the one-byte ROM buffer (R30) -/
  rombuf : Byte
  /-- the address of the most recent RAM load or store (R31) -/
  lastRamAddr : Word
  /-- the remaining-instruction counter of the batch (R32; log 16) -/
  budget : Nat
  /-- the error code, 0 for none (R32) -/
  err : Int
  /-- the illegal-address record (R32) -/
  illegalAddr : BitVec 24
  /-- whether a breakpoint is set (R32) -/
  bpActive : Bool
  /-- the breakpoint address (R32) -/
  bpAddr : Word
  /-- the single-step target address (R32) -/
  stepAddr : Word
  /-- the register image, 0x300 bytes, shared with the host (R37) -/
  image : Memory
  /-- the RAM buffer (20_memory.md R50) -/
  ram : Memory
  /-- the ROM buffer, read only to the core (20_memory.md R50) -/
  rom : Memory
  /-- what reset fixed: bank counts and parameters (10_state.md R33; log 2) -/
  config : Config
  deriving DecidableEq, Repr

/-- SFR after reset: GO = 1, all else 0 (10_state.md R45: "SFR in the image reads 0x0020"). -/
def resetSfr : Word := 0x0020

/-- The session after reset with a configuration and the host's two buffers, which reset does not change (10_state.md
R45, 70_reset_and_hazards.md R302). The image is zeroed and then written by StoreImage, so it holds SFR = 0x0020. -/
def State.afterReset (config : Config) (ram rom : Memory) : State where
  regs := Vector.replicate 16 0
  sreg := 0
  dreg := 0
  sfr := resetSfr
  pbr := 0
  rombr := 0
  rambr := 0
  cbr := 0
  cacheActive := false
  cvalid := 0
  colr := 0
  por := 0
  scbr := 0
  scmr := 0
  cfgr := 0
  pipe := 0x01
  rombuf := 0
  lastRamAddr := 0
  budget := 0
  err := 0
  illegalAddr := 0
  bpActive := false
  bpAddr := 0
  stepAddr := 0
  image := [(0x30, 0x20)]
  ram := ram
  rom := rom
  config := config

/-- The machine right after reset, with nothing placed in RAM or ROM (log 1) and the bank counts of log 2. -/
def State.reset : State := State.afterReset defaultConfig [] []

end Sys2Proof.Machine
end

