-- ==== Sys2Proof/Machine/Operands.lean ====
section
/-! DEFINITION. Reading registers and operands: `R[i]`, `S`, the 4-bit, 8-bit and 16-bit immediates and the displacement, as
30_encoding.md R85 assembles them. -/

namespace Sys2Proof.Machine

/-- `R[i]` (00_scope.md R7). -/
def State.reg (s : State) (i : Reg) : Word := s.regs[i]

/-- `pc`, which is R15 (10_state.md R11). -/
def State.pc (s : State) : Word := s.reg 15

/-- `S`, the source operand `R[sreg]` (10_state.md R12). -/
def State.src (s : State) : Word := s.reg s.sreg

/-- The low byte of the source operand, `S[7:0]`. -/
def State.srcLow (s : State) : Byte := lowByte s.src

/-- `zext_4(n)` (00_scope.md R6). -/
def zext4 (n : Imm4) : Word := n.setWidth 16

/-- `zext_8(v)` as 16 bits. -/
def zext8 (v : Byte) : Word := v.setWidth 16

/-- `trunc16(sext_8(v))`. -/
def sext8 (v : Byte) : Word := v.signExtend 16

/-- The address of LMS and SMS, `zext_8(yy) << 1` (30_encoding.md R85). -/
def shortAddr (yy : Byte) : Word := zext8 yy <<< 1

end Sys2Proof.Machine
end

