-- ==== Sys2Proof/Machine/Flags.lean ====
section
/-! DEFINITION. The status-flags word SFR: its bit positions (10_state.md R15), reading and writing one flag, and every flag
computation: `SetSZ`, `SetSZ8` (R17), `AddFlags`, `SubFlags` (41_alu.md R151, R152) and MERGE's masks (R180). -/

namespace Sys2Proof.Machine

/-- Bit of Z, Zero (10_state.md R15). -/
abbrev bitZ : Nat := 1
/-- Bit of CY, Carry. -/
abbrev bitCY : Nat := 2
/-- Bit of SG, Sign. -/
abbrev bitSG : Nat := 3
/-- Bit of OV, Overflow. -/
abbrev bitOV : Nat := 4
/-- Bit of GO, Go/Stop. -/
abbrev bitGO : Nat := 5
/-- Bit of ALT1, page bit 0. -/
abbrev bitALT1 : Nat := 8
/-- Bit of ALT2, page bit 1. -/
abbrev bitALT2 : Nat := 9
/-- Bit of B, register-move mode. -/
abbrev bitB : Nat := 12
/-- Bit of IRQ, pending interrupt. -/
abbrev bitIRQ : Nat := 15

/-- A word with bit `i` replaced by `v`. -/
def putBit (w : Word) (i : Nat) (v : Bool) : Word :=
  if v then w ||| (1#16 <<< i) else w &&& ~~~(1#16 <<< i)

/-- Read one flag of SFR. -/
def State.flag (s : State) (i : Nat) : Bool := s.sfr.getLsbD i

/-- Write one flag of SFR, leaving its other bits (10_state.md R15, D33). -/
def State.setFlag (s : State) (i : Nat) (v : Bool) : State := { s with sfr := putBit s.sfr i v }

/-- The mode flags under which the next opcode byte is decoded (30_encoding.md R83). -/
def State.mode (s : State) : Mode := { b := s.flag bitB, alt2 := s.flag bitALT2, alt1 := s.flag bitALT1 }

/-- `SetSZ(v)` (10_state.md R17). -/
def State.setSZ (s : State) (v : Word) : State := (s.setFlag bitSG (v.getLsbD 15)).setFlag bitZ (v == 0)

/-- `SetSZ8(v)`, on the low byte of `v` (10_state.md R17). -/
def State.setSZ8 (s : State) (v : Word) : State :=
  (s.setFlag bitSG (v.getLsbD 7)).setFlag bitZ (lowByte v == 0)

/-- A 16-bit result and the four condition flags that go with it. -/
structure Flagged where
  value : Word
  z : Bool
  cy : Bool
  sg : Bool
  ov : Bool
  deriving DecidableEq, Repr

/-- `AddFlags(a, b, cin)` (41_alu.md R151): `r` is the unbounded sum; CY is `r >= 0x10000`; OV is the xor formula on the
low 16 bits. -/
def addFlags (a b : Word) (cin : Bool) : Flagged :=
  let r : Nat := a.toNat + b.toNat + cin.toNat
  let v : Word := BitVec.ofNat 16 r
  { value := v
    z := v == 0
    cy := decide (0x10000 ≤ r)
    sg := v.getLsbD 15
    ov := (~~~(a ^^^ b)) &&& (b ^^^ v) &&& 0x8000#16 != 0#16 }

/-- `SubFlags(a, b, bin)` (41_alu.md R152): `r` is the signed difference of the unsigned operands; CY is `r >= 0`, no
borrow; OV is the xor formula. -/
def subFlags (a b : Word) (bin : Bool) : Flagged :=
  let r : Int := (a.toNat : Int) - (b.toNat : Int) - (bin.toNat : Int)
  let v : Word := BitVec.ofInt 16 r
  { value := v
    z := v == 0
    cy := decide (0 ≤ r)
    sg := v.getLsbD 15
    ov := (a ^^^ b) &&& (a ^^^ v) &&& 0x8000#16 != 0#16 }

/-- The result and flags of MERGE, by its four masks (41_alu.md R180): Z is set when bits of 0xF0F0 are not all zero. -/
def mergeFlags (r7 r8 : Word) : Flagged :=
  let v : Word := (r7 &&& 0xFF00#16) ||| (r8 >>> 8)
  { value := v
    z := v &&& 0xF0F0#16 != 0#16
    cy := v &&& 0xE0E0#16 != 0#16
    sg := v &&& 0x8080#16 != 0#16
    ov := v &&& 0xC0C0#16 != 0#16 }

/-- Write Z, CY, SG and OV. -/
def State.setCond (s : State) (f : Flagged) : State :=
  (((s.setFlag bitZ f.z).setFlag bitCY f.cy).setFlag bitSG f.sg).setFlag bitOV f.ov

end Sys2Proof.Machine
end

