-- ==== Sys2Proof/Machine/Ops.lean ====
section
/-! DEFINITION. The named operations over memory and registers: the bank tables and the four address spaces (20_memory.md),
write tracking and the cache window (R68 to R72), the register write with its ROM buffer re-arm (10_state.md R13, R14),
`Advance`, `Imm8`, `ClrFlags`, the destination write, and `raise` (60_exceptions.md R271), which is all this core has in the
place of taking an exception: no handler, no vector, no return (R270). -/

namespace Sys2Proof.Machine

/-! ## Bank tables and address spaces -/

/-- Which of the two byte buffers an access reaches (20_memory.md R50). -/
inductive Buffer where
  | rom
  | ram
  deriving DecidableEq, Repr

/-- NROM', the ROM bank count capped at the hardware maximum (20_memory.md R51). -/
def cappedRomBanks (c : Config) : Nat := min c.nrom c.romBankMax

/-- `RamTable(k)` as a base byte offset in the RAM buffer (20_memory.md R52). -/
def ramBase (c : Config) (k : Nat) : Nat := (k % c.nram) * bankSize

/-- `BankTable(i)`, a buffer and a base byte offset in it (20_memory.md R51). -/
def bankTable (c : Config) (i : Byte) : Buffer × Nat :=
  if 0x70 ≤ i.toNat ∧ i.toNat ≤ 0x73 then (.ram, ramBase c (i.toNat - 0x70))
  else
    let b := i.toNat % 0x80
    let n := cappedRomBanks c
    if 0x40 ≤ b then (.rom, (if 1 < n then b % n else b % 2) * bankSize)
    else (.rom, c.romExtBase + (b % (2 * n)) * bankSize)

/-- The least size of the ROM buffer that the host must supply (20_memory.md R53). -/
def requiredRomSize (c : Config) : Nat := max (2 * bankSize) (c.romExtBase + 2 * cappedRomBanks c * bankSize)

/-- The least size of the RAM buffer that the host must supply (20_memory.md R53). -/
def requiredRamSize (c : Config) : Nat := c.nram * bankSize

/-- The byte at an offset of a buffer. -/
def State.readBuffer (s : State) : Buffer → Nat → Byte
  | .rom, p => s.rom.read p
  | .ram, p => s.ram.read p

/-- The byte at offset `a` of bank `i` (20_memory.md R55, R56). -/
def State.bankRead (s : State) (i : Byte) (a : Word) : Byte :=
  s.readBuffer (bankTable s.config i).1 ((bankTable s.config i).2 + a.toNat)

/-- `PrgRead(a)`, instruction fetch (20_memory.md R55). -/
def State.prgRead (s : State) (a : Word) : Byte := s.bankRead s.pbr a

/-- `RomRead(a)`, ROM data read (20_memory.md R56). -/
def State.romRead (s : State) (a : Word) : Byte := s.bankRead s.rombr a

/-- `InWindow(a)` (20_memory.md R72). -/
def State.inWindow (s : State) (a : Word) : Bool := s.cacheActive && decide ((a - s.cbr).toNat < cacheSize)

/-- The base of the program bank in the RAM buffer, when the program bank is a RAM bank. -/
def State.programRamBase (s : State) : Option Nat :=
  if 0x70 ≤ s.pbr.toNat ∧ s.pbr.toNat ≤ 0x73 then some (ramBase s.config (s.pbr.toNat - 0x70)) else none

/-- The sub-block of the active cache window that the RAM buffer byte `p` lies in, if it lies in one (20_memory.md R70). -/
def State.trackedBlock (s : State) (p : Nat) : Option Nat :=
  match s.programRamBase with
  | none => none
  | some w =>
    let d := (BitVec.ofNat 16 (p - w) - s.cbr).toNat
    if s.cacheActive ∧ w ≤ p ∧ p < w + bankSize ∧ d < cacheSize then some (d / s.config.subBlock) else none

/-- `TrackCacheWrite(p)` (20_memory.md R70). -/
def State.trackCacheWrite (s : State) (p : Nat) : State :=
  match s.trackedBlock p with
  | none => s
  | some k => { s with cvalid := putBit s.cvalid k false }

/-- Store one byte in the RAM buffer and track it: the store that `RamWrite` and `ScrWrite` share. -/
def State.storeRam (s : State) (p : Nat) (v : Byte) : State :=
  { s with ram := s.ram.write p v }.trackCacheWrite p

/-- `RamPhys(a)` (20_memory.md R57). -/
def State.ramPhys (s : State) (a : Word) : Nat := ramBase s.config s.rambr.toNat + a.toNat

/-- `RamRead(a)` (20_memory.md R57). -/
def State.ramRead (s : State) (a : Word) : Byte := s.ram.read (s.ramPhys a)

/-- `RamWrite(a, v)` (20_memory.md R57). -/
def State.ramWrite (s : State) (a : Word) (v : Byte) : State := s.storeRam (s.ramPhys a) v

/-- The address of the other byte of a RAM word, `a ^ 1` (20_memory.md R59). -/
def partner (a : Word) : Word := a ^^^ 1

/-- `MemRead(RAM, a, 2)`: low byte at `a`, high byte at `a ^ 1` (20_memory.md R59, R61). -/
def State.ramRead16 (s : State) (a : Word) : Word := wordOfBytes (s.ramRead a) (s.ramRead (partner a))

/-- `MemWrite(RAM, a, 2, v)`: the low byte first, then the high byte (20_memory.md R59). -/
def State.ramWrite16 (s : State) (a v : Word) : State :=
  (s.ramWrite a (lowByte v)).ramWrite (partner a) (highByte v)

/-- `ScrPhys(off)` (20_memory.md R58): reduced modulo the RAM size (D28). -/
def State.scrPhys (s : State) (off : Nat) : Nat := (s.scbr.toNat * 1024 + off) % (s.config.nram * bankSize)

/-- `ScrRead(off)` (20_memory.md R58). -/
def State.scrRead (s : State) (off : Nat) : Byte := s.ram.read (s.scrPhys off)

/-- `ScrWrite(off, v)` (20_memory.md R58). -/
def State.scrWrite (s : State) (off : Nat) (v : Byte) : State := s.storeRam (s.scrPhys off) v

/-! ## Registers, the program counter, the pipe -/

/-- `WriteReg(i, v)`: the only way a register changes; a write to R14 re-arms the ROM buffer (10_state.md R13, R14). -/
def State.writeReg (s : State) (i : Reg) (v : Word) : State :=
  let s1 := { s with regs := s.regs.set i v }
  if i = 14 then { s1 with rombuf := s1.romRead v } else s1

/-- `Advance()`: R15 plus one modulo 65536, the pipe untouched (40_dispatch_prefix_control.md R102). -/
def State.advance (s : State) : State := { s with regs := s.regs.set 15 (s.pc + 1) }

/-- `R15 <- t`: a control transfer, which does not refill the pipe (40_dispatch_prefix_control.md R129). -/
def State.jump (s : State) (t : Word) : State := s.writeReg 15 t

/-- The effect of `Imm8()`: R15 advances and the pipe is refilled from the new R15. The byte consumed is `s.pipe`
(40_dispatch_prefix_control.md R103); it stands in the instruction as its operand (log 5). -/
def State.imm8 (s : State) : State :=
  let s1 := s.advance
  { s1 with pipe := s1.prgRead s1.pc }

/-- `ClrFlags()` (10_state.md R19). -/
def State.clrFlags (s : State) : State :=
  { ((s.setFlag bitALT1 false).setFlag bitALT2 false).setFlag bitB false with sreg := 0, dreg := 0 }

/-- The usual end of an instruction that writes no register: `Advance(); ClrFlags()`. -/
def State.finish (s : State) : State := s.advance.clrFlags

/-- The usual end of an instruction that writes register `i`: `Advance(); R[i] <- v; ClrFlags()`
(40_dispatch_prefix_control.md R104). -/
def State.finishReg (s : State) (i : Reg) (v : Word) : State := (s.advance.writeReg i v).clrFlags

/-- The usual end of an instruction with a destination: `Advance(); D <- v; ClrFlags()`. The destination index is read
before `ClrFlags` clears it (40_dispatch_prefix_control.md R104). -/
def State.finishD (s : State) (v : Word) : State := s.finishReg s.dreg v

/-! ## The cache window -/

/-- `c <- a & 0xFFF0`, the 16-byte-aligned base. -/
def cacheBaseOf (a : Word) : Word := a &&& 0xFFF0#16

/-- Anchor the window at a base and mark every sub-block valid. -/
def State.cacheAnchor (s : State) (base : Word) : State :=
  { s with cbr := base, cacheActive := true, cvalid := 0xFFFF }

/-- `CacheInstruction()` (20_memory.md R68). -/
def State.cacheInstruction (s : State) : State :=
  if cacheBaseOf s.pc ≠ s.cbr ∨ s.cacheActive = false then s.cacheAnchor (cacheBaseOf s.pc) else s

/-- `CacheFlush()` (20_memory.md R69). -/
def State.cacheFlush (s : State) : State := { s with cvalid := 0, cacheActive := false }

/-! ## RAM loads and stores -/

/-- `lastRamAddr <- a` (42_load_store.md R203). -/
def State.recordAddr (s : State) (a : Word) : State := { s with lastRamAddr := a }

/-! ## Errors -/

/-- The error code of a condition (60_exceptions.md R272). -/
def errorCode (c : Config) : Fault → Int
  | .breakpointHit => c.errBreakpoint
  | .illegalStartAddress _ => c.errIllegal

/-- `raise E(info)`: record the error; "no register, flag or memory byte changes" (60_exceptions.md R271). -/
def State.raise (s : State) : Fault → State
  | .breakpointHit => { s with err := errorCode s.config .breakpointHit }
  | .illegalStartAddress a => { s with err := errorCode s.config (.illegalStartAddress a), illegalAddr := a }

/-- The common type of the meanings. -/
abbrev Result := Host.Outcome State Fault Refusal

end Sys2Proof.Machine
end

