-- ==== Sys2Proof/Machine/Arith.lean ====
section
/-! DEFINITION. Add, subtract, compare, increment, decrement (41_alu.md R150 to R160, R190, R191). All operands are read before
R15 advances (R150). -/

namespace Sys2Proof.Machine

/-- Write the four condition flags, then the usual end with the value to D. -/
def State.arith (s : State) (f : Flagged) : State := (s.setCond f).finishD f.value

/-- ADD Rn (R153). -/
def execAdd (n : Reg) (s : State) : Result := .next (s.arith (addFlags s.src (s.reg n) false))

/-- ADC Rn (R154). -/
def execAdc (n : Reg) (s : State) : Result := .next (s.arith (addFlags s.src (s.reg n) (s.flag bitCY)))

/-- ADD #n (R155). -/
def execAddI (n : Imm4) (s : State) : Result := .next (s.arith (addFlags s.src (zext4 n) false))

/-- ADC #n (R156). -/
def execAdcI (n : Imm4) (s : State) : Result := .next (s.arith (addFlags s.src (zext4 n) (s.flag bitCY)))

/-- SUB Rn (R157). -/
def execSub (n : Reg) (s : State) : Result := .next (s.arith (subFlags s.src (s.reg n) false))

/-- SBC Rn (R158): the borrow is the complement of the carry. -/
def execSbc (n : Reg) (s : State) : Result := .next (s.arith (subFlags s.src (s.reg n) (!s.flag bitCY)))

/-- SUB #n (R159). -/
def execSubI (n : Imm4) (s : State) : Result := .next (s.arith (subFlags s.src (zext4 n) false))

/-- CMP Rn (R160): the result is discarded. -/
def execCmp (n : Reg) (s : State) : Result := .next (s.setCond (subFlags s.src (s.reg n) false)).finish

/-- INC Rn (R190), on R[n] itself. -/
def execInc (n : Reg) (s : State) : Result := .next ((s.setSZ (s.reg n + 1)).finishReg n (s.reg n + 1))

/-- DEC Rn (R191), on R[n] itself. -/
def execDec (n : Reg) (s : State) : Result := .next ((s.setSZ (s.reg n - 1)).finishReg n (s.reg n - 1))

end Sys2Proof.Machine
end

