-- ==== Sys2Proof/Machine/Branch.lean ====
section
/-! DEFINITION. The eleven branches (40_dispatch_prefix_control.md R115 to R125) over `Branch(c)` (R132). No flag, index or
mode changes, and the byte after the displacement stays in the pipe as the delay slot (R129). -/

namespace Sys2Proof.Machine

/-- `Branch(c)` with displacement `e` (R132). -/
def State.branch (s : State) (taken : Bool) (e : Byte) : State :=
  let s1 := s.imm8
  if taken then s1.jump (s1.pc + sext8 e) else s1.advance

/-- BRA (R115). -/
def execBra (e : Byte) (s : State) : Result := .next (s.branch true e)

/-- BGE (R116): SG = OV. -/
def execBge (e : Byte) (s : State) : Result := .next (s.branch (s.flag bitSG == s.flag bitOV) e)

/-- BLT (R117): SG != OV. -/
def execBlt (e : Byte) (s : State) : Result := .next (s.branch (s.flag bitSG != s.flag bitOV) e)

/-- BNE (R118): Z = 0. -/
def execBne (e : Byte) (s : State) : Result := .next (s.branch (!s.flag bitZ) e)

/-- BEQ (R119): Z = 1. -/
def execBeq (e : Byte) (s : State) : Result := .next (s.branch (s.flag bitZ) e)

/-- BPL (R120): SG = 0. -/
def execBpl (e : Byte) (s : State) : Result := .next (s.branch (!s.flag bitSG) e)

/-- BMI (R121): SG = 1. -/
def execBmi (e : Byte) (s : State) : Result := .next (s.branch (s.flag bitSG) e)

/-- BCC (R122): CY = 0. -/
def execBcc (e : Byte) (s : State) : Result := .next (s.branch (!s.flag bitCY) e)

/-- BCS (R123): CY = 1. -/
def execBcs (e : Byte) (s : State) : Result := .next (s.branch (s.flag bitCY) e)

/-- BVC (R124): OV = 0. -/
def execBvc (e : Byte) (s : State) : Result := .next (s.branch (!s.flag bitOV) e)

/-- BVS (R125): OV = 1. -/
def execBvs (e : Byte) (s : State) : Result := .next (s.branch (s.flag bitOV) e)

end Sys2Proof.Machine
end

