-- ==== Sys2Proof/Machine/Logic.lean ====
section
/-! DEFINITION. The logic instructions (41_alu.md R161 to R169). They write Z and SG and leave CY and OV. -/

namespace Sys2Proof.Machine

/-- `SetSZ(v); Advance(); D <- v; ClrFlags()`, shared by the logic, byte and multiply instructions. -/
def State.result (s : State) (v : Word) : State := (s.setSZ v).finishD v

/-- AND Rn (R161). -/
def execAnd (n : Reg) (s : State) : Result := .next (s.result (s.src &&& s.reg n))

/-- BIC Rn (R162). -/
def execBic (n : Reg) (s : State) : Result := .next (s.result (s.src &&& ~~~(s.reg n)))

/-- AND #n (R166). -/
def execAndI (n : Imm4) (s : State) : Result := .next (s.result (s.src &&& zext4 n))

/-- BIC #n (R167). -/
def execBicI (n : Imm4) (s : State) : Result := .next (s.result (s.src &&& ~~~(zext4 n)))

/-- OR Rn (R163). -/
def execOr (n : Reg) (s : State) : Result := .next (s.result (s.src ||| s.reg n))

/-- XOR Rn (R164). -/
def execXor (n : Reg) (s : State) : Result := .next (s.result (s.src ^^^ s.reg n))

/-- OR #n (R168). -/
def execOrI (n : Imm4) (s : State) : Result := .next (s.result (s.src ||| zext4 n))

/-- XOR #n (R169). -/
def execXorI (n : Imm4) (s : State) : Result := .next (s.result (s.src ^^^ zext4 n))

/-- NOT (R165). -/
def execNot (s : State) : Result := .next (s.result (~~~s.src))

end Sys2Proof.Machine
end

