-- ==== Sys2Proof/Machine/Bytes.lean ====
section
/-! DEFINITION. Byte instructions (41_alu.md R176 to R180). -/

namespace Sys2Proof.Machine

/-- `SetSZ8(v); Advance(); D <- v; ClrFlags()`, shared by LOB and HIB. -/
def State.result8 (s : State) (v : Byte) : State := (s.setSZ8 (zext8 v)).finishD (zext8 v)

/-- SWAP (R176): the two bytes exchanged. -/
def execSwap (s : State) : Result := .next (s.result (wordOfBytes (highByte s.src) (lowByte s.src)))

/-- SEX (R177): the low byte sign-extended. -/
def execSex (s : State) : Result := .next (s.result (sext8 s.srcLow))

/-- LOB (R178): the low byte; the sign is its bit 7. -/
def execLob (s : State) : Result := .next (s.result8 s.srcLow)

/-- HIB (R179): the high byte; the sign is its bit 7. -/
def execHib (s : State) : Result := .next (s.result8 (highByte s.src))

/-- MERGE (R180): R7's high byte over R8's; all four flags by masks. -/
def execMerge (s : State) : Result :=
  let f := mergeFlags (s.reg 7) (s.reg 8)
  .next ((s.setCond f).finishD f.value)

end Sys2Proof.Machine
end

