-- ==== Sys2Proof/Machine/Control.lean ====
section
/-! DEFINITION. STOP, NOP, CACHE, LOOP, LINK, JMP, LJMP (40_dispatch_prefix_control.md R105 to R107, R126 to R130). -/

namespace Sys2Proof.Machine

/-- CFGR bit 7, IRQMASK: "1 suppresses the pending-interrupt flag at STOP" (10_state.md R27). -/
def State.irqMasked (s : State) : Bool := s.cfgr.getLsbD 7

/-- STOP's request to the host (40_dispatch_prefix_control.md R105, 60_exceptions.md R274). -/
def State.requestInterrupt (s : State) : State := if s.irqMasked then s else s.setFlag bitIRQ true

/-- STOP's effect on POR, under the parameter STOP_CLEARS_POR (R105, D21). -/
def State.stopPor (s : State) : State := if s.config.stopClearsPor then { s with por := 0 } else s

/-- STOP (R105). -/
def execStop (s : State) : Result :=
  let s1 := ((s.setFlag bitGO false).requestInterrupt).stopPor
  .next { s1 with pipe := 0x01 }.finish

/-- NOP (R106). -/
def execNop (s : State) : Result := .next s.finish

/-- CACHE (R107). -/
def execCache (s : State) : Result := .next s.cacheInstruction.finish

/-- LOOP (R126): R12 counts, R13 is the target. -/
def execLoop (s : State) : Result :=
  let v := s.reg 12 - 1
  let s1 := (s.writeReg 12 v).setSZ v
  .next (if v = 0 then s1.advance else s1.jump (s1.reg 13)).clrFlags

/-- LINK #n (R127): R15 here is the LINK address plus 1. -/
def execLink (n : Imm4) (s : State) : Result := .next (s.writeReg 11 (s.pc + zext4 n)).finish

/-- JMP Rn (R128). -/
def execJmp (n : Reg) (s : State) : Result := .next (s.jump (s.reg n)).clrFlags

/-- LJMP Rn (R130): the bank from Rn, 7 bits; the offset from S; the window re-based at the new R15. -/
def execLjmp (n : Reg) (s : State) : Result :=
  let s1 := { s with pbr := lowByte (s.reg n) &&& 0x7F#8 }.jump s.src
  .next ((s1.cacheFlush).cacheAnchor (cacheBaseOf s1.pc)).clrFlags

end Sys2Proof.Machine
end

