-- ==== Sys2Proof/Machine/LoadStore.lean ====
section
/-! DEFINITION. Immediate loads, RAM loads and stores, ROM buffer reads and bank instructions (42_load_store.md). None writes a
condition flag. Where a rule lists `ClrFlags(); Advance()` the two are written as `finish`: they touch different state
(40_dispatch_prefix_control.md R104). -/

namespace Sys2Proof.Machine

/-! ## Immediate loads -/

/-- IBT Rn,#pp (R200). -/
def execIbt (n : Reg) (pp : Byte) (s : State) : Result := .next (s.imm8.finishReg n (sext8 pp))

/-- IWT Rn,#xx (R201). -/
def execIwt (n : Reg) (xx : Word) (s : State) : Result := .next (s.imm8.imm8.finishReg n xx)

/-! ## Register-addressed RAM access -/

/-- STW (Rn) (R204). -/
def execStw (n : Reg) (s : State) : Result :=
  .next ((s.recordAddr (s.reg n)).ramWrite16 (s.reg n) s.src).finish

/-- STB (Rn) (R205). -/
def execStb (n : Reg) (s : State) : Result :=
  .next ((s.recordAddr (s.reg n)).ramWrite (s.reg n) s.srcLow).finish

/-- LDW (Rn) (R206). -/
def execLdw (n : Reg) (s : State) : Result :=
  .next ((s.recordAddr (s.reg n)).finishD (s.ramRead16 (s.reg n)))

/-- LDB (Rn) (R207): zero-extended. -/
def execLdb (n : Reg) (s : State) : Result :=
  .next ((s.recordAddr (s.reg n)).finishD (zext8 (s.ramRead (s.reg n))))

/-- SBK (R208): the address of the last access in the RAM bank current now. -/
def execSbk (s : State) : Result := .next (s.ramWrite16 s.lastRamAddr s.src).finish

/-! ## Absolute RAM access -/

/-- Load the RAM word at `a` into R[n], the immediate bytes consumed already: what LMS and LM share. -/
def State.loadAbs (s : State) (n : Reg) (a : Word) : State := (s.recordAddr a).finishReg n (s.ramRead16 a)

/-- Store `v` at RAM address `a`, the immediate bytes consumed already: what SMS and SM share. -/
def State.storeAbs (s : State) (a v : Word) : State := ((s.recordAddr a).ramWrite16 a v).finish

/-- LMS Rn,(yy) (R209). -/
def execLms (n : Reg) (yy : Byte) (s : State) : Result := .next (s.imm8.loadAbs n (shortAddr yy))

/-- SMS (yy),Rn (R210): R[n] is read first. -/
def execSms (n : Reg) (yy : Byte) (s : State) : Result := .next (s.imm8.storeAbs (shortAddr yy) (s.reg n))

/-- LM Rn,(xx) (R211). -/
def execLm (n : Reg) (xx : Word) (s : State) : Result := .next (s.imm8.imm8.loadAbs n xx)

/-- SM (xx),Rn (R212): R[n] is read first. -/
def execSm (n : Reg) (xx : Word) (s : State) : Result := .next (s.imm8.imm8.storeAbs xx (s.reg n))

/-! ## ROM buffer reads -/

/-- GETB (R215). -/
def execGetb (s : State) : Result := .next (s.finishD (zext8 s.rombuf))

/-- GETBH (R216). -/
def execGetbh (s : State) : Result := .next (s.finishD (wordOfBytes (lowByte s.src) s.rombuf))

/-- GETBL (R217). -/
def execGetbl (s : State) : Result := .next (s.finishD (wordOfBytes s.rombuf (highByte s.src)))

/-- GETBS (R218). -/
def execGetbs (s : State) : Result := .next (s.finishD (sext8 s.rombuf))

/-! ## Bank instructions -/

/-- RAMB (R221): `selectRamBank`, `S & 3`. -/
def execRamb (s : State) : Result := .next { s with rambr := s.src.setWidth 2 }.finish

/-- ROMB (R222): `selectRomBank`, `S & 0x7F`; the ROM buffer is not reloaded. -/
def execRomb (s : State) : Result := .next { s with rombr := s.srcLow &&& 0x7F#8 }.finish

end Sys2Proof.Machine
end

