-- ==== Sys2Proof/Machine/Multiply.lean ====
section
/-! DEFINITION. Multiply instructions (41_alu.md R181 to R188). Products are computed exactly and narrowed once. -/

namespace Sys2Proof.Machine

/-- MULT Rn (R181): signed 8 x 8. -/
def execMult (n : Reg) (s : State) : Result :=
  .next (s.result (BitVec.ofInt 16 (s.srcLow.toInt * (lowByte (s.reg n)).toInt)))

/-- UMULT Rn (R182): unsigned 8 x 8. -/
def execUmult (n : Reg) (s : State) : Result :=
  .next (s.result (BitVec.ofNat 16 (s.srcLow.toNat * (lowByte (s.reg n)).toNat)))

/-- MULT #n (R183): signed byte by 0 to 15. -/
def execMultI (n : Imm4) (s : State) : Result :=
  .next (s.result (BitVec.ofInt 16 (s.srcLow.toInt * (n.toNat : Int))))

/-- UMULT #n (R184). -/
def execUmultI (n : Imm4) (s : State) : Result :=
  .next (s.result (BitVec.ofNat 16 (s.srcLow.toNat * n.toNat)))

/-- `c`, the signed product of S and R6 mod 2^32 (R187, R188). -/
def State.product (s : State) : BitVec 32 := BitVec.ofInt 32 (s.src.toInt * (s.reg 6).toInt)

/-- `c[31:16]`. -/
def productHigh (c : BitVec 32) : Word := c.extractLsb' 16 16

/-- `c[15:0]`. -/
def productLow (c : BitVec 32) : Word := c.setWidth 16

/-- The flags of FMULT and LMULT: Z and SG from the high word, CY the product bit of MULT16_CARRY (R187, D19). -/
def State.productFlags (s : State) : State :=
  (s.setSZ (productHigh s.product)).setFlag bitCY (s.product.getLsbD s.config.mult16CarryBit)

/-- FMULT (R187). -/
def execFmult (s : State) : Result := .next (s.productFlags.finishD (productHigh s.product))

/-- LMULT (R188): R4 first, D second, so "when dreg = 4 the high word stands". -/
def execLmult (s : State) : Result :=
  let s1 := (s.productFlags.advance).writeReg 4 (productLow s.product)
  .next (s1.writeReg s.dreg (productHigh s.product)).clrFlags

end Sys2Proof.Machine
end

