-- ==== Sys2Proof/Machine/Plot.lean ====
section
/-! DEFINITION. The pixel plot engine (43_plot.md): the colour register, the geometry as functions of (depth, height), PLOT and
RPIX. The tables of 10_state.md R28 are evaluated at each use, as that rule permits (log 8). -/

namespace Sys2Proof.Machine

/-! ## Options and derived state -/

/-- POR bit 0, FORCE (10_state.md R26). -/
def State.porForce (s : State) : Bool := s.por.getLsbD 0
/-- POR bit 1, DITHER. -/
def State.porDither (s : State) : Bool := s.por.getLsbD 1
/-- POR bit 2, HIGHNIB. -/
def State.porHighNib (s : State) : Bool := s.por.getLsbD 2
/-- POR bit 3, FREEZE. -/
def State.porFreeze (s : State) : Bool := s.por.getLsbD 3
/-- POR bit 4, SPRITE. -/
def State.porSprite (s : State) : Bool := s.por.getLsbD 4

/-- `depth = [2,4,4,8][SCMR.MD]` (10_state.md R28, 43_plot.md R249). -/
def State.depth (s : State) : Nat :=
  match s.scmr.getLsbD 1, s.scmr.getLsbD 0 with
  | false, false => 2
  | false, true => 4
  | true, false => 4
  | true, true => 8

/-- `realHeight = [128,160,192,256][{HT1,HT0}]`, HT1 bit 5 and HT0 bit 2 of SCMR (10_state.md R27, R28). -/
def State.realHeight (s : State) : Nat :=
  match s.scmr.getLsbD 5, s.scmr.getLsbD 2 with
  | false, false => 128
  | false, true => 160
  | true, false => 192
  | true, true => 256

/-- `height = 256 if POR.SPRITE else realHeight` (10_state.md R28). -/
def State.height (s : State) : Nat := if s.porSprite then 256 else s.realHeight

/-! ## Geometry -/

/-- `cs`, the bytes of an 8 x 8 character cell (43_plot.md R244). -/
def cellSize (depth : Nat) : Nat := 8 * depth

/-- `colptr[i]`, i = y >> 3 (43_plot.md R244). -/
def colptr (depth height i : Nat) : Nat :=
  if height = 256 then ((i / 16) * 512 + (i % 16) * 16) * cellSize depth else i * cellSize depth

/-- `xoff[j]`, j = x >> 3 (43_plot.md R244). -/
def xoff (depth height j : Nat) : Nat :=
  if height = 256 then ((j / 16) * 256 + j % 16) * cellSize depth else j * (height / 8) * cellSize depth

/-- `ScreenSize(depth, height)` (43_plot.md R245). -/
def screenSize (depth height : Nat) : Nat := 32 * (height / 8) * cellSize depth

/-- `PixOff(x, y)` (43_plot.md R246). -/
def pixOff (depth height : Nat) (x y : Byte) : Nat :=
  colptr depth height (y.toNat / 8) + xoff depth height (x.toNat / 8) + (y.toNat % 8) * 2

/-- `PixMask(x)`: the leftmost pixel is bit 7 (43_plot.md R246). -/
def pixMask (x : Byte) : Byte := 0x80#8 >>> (x.toNat % 8)

/-- `PlaneOff(p)` (43_plot.md R246). -/
def planeOff (p : Nat) : Nat := (p / 2) * 16 + p % 2

/-! ## The colour register -/

/-- The HIGHNIB step of SetColor: the high nibble copied into the low nibble (43_plot.md R243). -/
def State.transformColor (s : State) (c : Byte) : Byte :=
  if s.porHighNib then (c &&& 0xF0#8) ||| (c >>> 4) else c

/-- `SetColor(c)` (43_plot.md R243). -/
def State.setColor (s : State) (c : Byte) : State :=
  let c1 := s.transformColor c
  { s with colr := if s.porFreeze then (s.colr &&& 0xF0#8) ||| (c1 &&& 0x0F#8) else c1 }

/-- COLOR (43_plot.md R240). -/
def execColor (s : State) : Result := .next (s.setColor s.srcLow).finish

/-- GETC (43_plot.md R241). -/
def execGetc (s : State) : Result := .next (s.setColor s.rombuf).finish

/-- CMODE (43_plot.md R242): POR takes S[4:0]; height and the tables follow from it. -/
def execCmode (s : State) : Result := .next { s with por := s.src.setWidth 5 }.finish

/-! ## PLOT and RPIX -/

/-- The x coordinate, `R[1][7:0]`. -/
def State.plotX (s : State) : Byte := lowByte (s.reg 1)

/-- The y coordinate, `R[2][7:0]`. -/
def State.plotY (s : State) : Byte := lowByte (s.reg 2)

/-- Whether y is inside the current height: the one bounds check (43_plot.md R247, R246). -/
def State.inScreen (s : State) : Bool := decide (s.plotY.toNat < s.height)

/-- The final colour `c`: COLR, or its high nibble on odd-parity pixels where dither acts (43_plot.md R247). -/
def State.plotColor (s : State) : Byte :=
  if s.config.ditherDepths.contains s.depth && s.porDither && (s.plotX ^^^ s.plotY).getLsbD 0 then s.colr >>> 4 else s.colr

/-- Whether PLOT skips the write because the final colour is transparent (43_plot.md R247). -/
def State.transparent (s : State) : Bool :=
  !s.porForce && (s.plotColor &&& s.config.transparentMask == 0#8)

/-- The offset of plane 0 of the pixel at (R1, R2). -/
def State.pixelOffset (s : State) : Nat := pixOff s.depth s.height s.plotX s.plotY

/-- A plane byte with the pixel's bit set or cleared. -/
def planeByte (t m : Byte) (on : Bool) : Byte := if on then t ||| m else t &&& ~~~m

/-- One pass of PLOT's loop: read, modify and write the byte of plane `p` (43_plot.md R247). -/
def State.plotPlane (s : State) (o : Nat) (m c : Byte) (p : Nat) : State :=
  s.scrWrite (o + planeOff p) (planeByte (s.scrRead (o + planeOff p)) m (c.getLsbD p))

/-- PLOT's loop over the given planes, in order. -/
def State.plotPlanes (s : State) (o : Nat) (m c : Byte) (planes : List Nat) : State :=
  planes.foldl (fun s p => s.plotPlane o m c p) s

/-- PLOT (43_plot.md R247). R1 is incremented as a 16-bit register whether or not a pixel is written. -/
def execPlot (s : State) : Result :=
  let s1 := (s.finish).writeReg 1 (s.reg 1 + 1)
  .next (if s.inScreen && !s.transparent
    then s1.plotPlanes s.pixelOffset (pixMask s.plotX) s.plotColor (List.range s.depth) else s1)

/-- The pixel's bit in plane `p`. -/
def State.pixelBit (s : State) (p : Nat) : Bool :=
  s.scrRead (s.pixelOffset + planeOff p) &&& pixMask s.plotX != 0#8

/-- The pixel read back: bit p from plane p, upper bits 0 (43_plot.md R248). -/
def State.pixel (s : State) : Word :=
  (List.range s.depth).foldl (fun v p => putBit v p (s.pixelBit p)) 0

/-- RPIX's effect on the flags, under the parameter RPIX_SETS_FLAGS (43_plot.md R248, D18). -/
def State.rpixFlags (s : State) (v : Word) : State := if s.config.rpixSetsFlags then s.setSZ v else s

/-- RPIX (43_plot.md R248). Out of range "no register, no flag, no memory changes" but R15 and the mode flags. -/
def execRpix (s : State) : Result :=
  .next (if s.inScreen then (s.rpixFlags s.pixel).finishD s.pixel else s.finish)

end Sys2Proof.Machine
end

