-- ==== Sys2Proof/Machine/Prefix.lean ====
section
/-! DEFINITION. Register prefixes and moves: TO, MOVE, WITH, FROM, MOVES, ALT1, ALT2, ALT3 (40_dispatch_prefix_control.md
R108 to R114, R131). The prefixes do not call `ClrFlags`. -/

namespace Sys2Proof.Machine

/-- TO Rn (R108). -/
def execTo (n : Reg) (s : State) : Result := .next { s with dreg := n }.advance

/-- MOVE Rn,Rs (R109), the 0x1n byte under B = 1. -/
def execMove (n : Reg) (s : State) : Result := .next (s.finishReg n s.src)

/-- WITH Rn (R110). -/
def execWith (n : Reg) (s : State) : Result :=
  .next ({ s with sreg := n, dreg := n }.setFlag bitB true).advance

/-- FROM Rn (R111). -/
def execFrom (n : Reg) (s : State) : Result := .next { s with sreg := n }.advance

/-- MOVES Rd,Rn (R112), the 0xBn byte under B = 1: OV is bit 7 of the value. -/
def execMoves (n : Reg) (s : State) : Result :=
  let v := s.reg n
  .next (((s.setFlag bitOV (v.getLsbD 7)).setSZ v).finishD v)

/-- ALT1 (R113). -/
def execAlt1 (s : State) : Result := .next ((s.setFlag bitALT1 true).setFlag bitB false).advance

/-- ALT2 (R114). -/
def execAlt2 (s : State) : Result := .next ((s.setFlag bitALT2 true).setFlag bitB false).advance

/-- ALT3 (R131). -/
def execAlt3 (s : State) : Result :=
  .next (((s.setFlag bitALT1 true).setFlag bitALT2 true).setFlag bitB false).advance

end Sys2Proof.Machine
end

