-- ==== Sys2Proof/Machine/Shift.lean ====
section
/-! DEFINITION. Shifts and rotates by one bit (41_alu.md R170 to R174). They write CY, SG and Z and leave OV. -/

namespace Sys2Proof.Machine

/-- `CY <- c`, then SetSZ and the usual end with the value to D. -/
def State.shifted (s : State) (v : Word) (c : Bool) : State := (s.setFlag bitCY c).result v

/-- A word whose only set bit, if any, is bit `i`. -/
def bitAt (i : Nat) (v : Bool) : Word := if v then 1#16 <<< i else 0

/-- `(v >> 1) | (v & 0x8000)`, the arithmetic shift (41_alu.md R172). -/
def asrWord (v : Word) : Word := (v >>> 1) ||| (v &&& 0x8000#16)

/-- DIV2's value: 0 for 0xFFFF, else the arithmetic shift (41_alu.md R173). -/
def div2Word (v : Word) : Word := if v = 0xFFFF#16 then 0 else asrWord v

/-- LSR (R170). -/
def execLsr (s : State) : Result := .next (s.shifted (s.src >>> 1) (s.src.getLsbD 0))

/-- ROL (R171): the old carry enters bit 0. -/
def execRol (s : State) : Result :=
  .next (s.shifted ((s.src <<< 1) ||| bitAt 0 (s.flag bitCY)) (s.src.getLsbD 15))

/-- ASR (R172). -/
def execAsr (s : State) : Result := .next (s.shifted (asrWord s.src) (s.src.getLsbD 0))

/-- DIV2 (R173). -/
def execDiv2 (s : State) : Result := .next (s.shifted (div2Word s.src) (s.src.getLsbD 0))

/-- ROR (R174): the old carry enters bit 15. -/
def execRor (s : State) : Result :=
  .next (s.shifted ((s.src >>> 1) ||| bitAt 15 (s.flag bitCY)) (s.src.getLsbD 0))

end Sys2Proof.Machine
end

