-- ==== Sys2Proof/Machine/Dispatch.lean ====
section
/-! DEFINITION. One arm for each instruction, each a direct call of its meaning (40_dispatch_prefix_control.md R101). `exec` is
given the state after the step prologue (R100): the pipe holds the byte after the opcode byte and R15 is its address. -/

namespace Sys2Proof.Machine

def exec (i : Instr) (s : State) : Host.Outcome State Fault Refusal :=
  match i with
  | .stop => Sys2Proof.Machine.execStop s
  | .nop => Sys2Proof.Machine.execNop s
  | .cache => Sys2Proof.Machine.execCache s
  | .lsr => Sys2Proof.Machine.execLsr s
  | .rol => Sys2Proof.Machine.execRol s
  | .bra e => Sys2Proof.Machine.execBra e s
  | .bge e => Sys2Proof.Machine.execBge e s
  | .blt e => Sys2Proof.Machine.execBlt e s
  | .bne e => Sys2Proof.Machine.execBne e s
  | .beq e => Sys2Proof.Machine.execBeq e s
  | .bpl e => Sys2Proof.Machine.execBpl e s
  | .bmi e => Sys2Proof.Machine.execBmi e s
  | .bcc e => Sys2Proof.Machine.execBcc e s
  | .bcs e => Sys2Proof.Machine.execBcs e s
  | .bvc e => Sys2Proof.Machine.execBvc e s
  | .bvs e => Sys2Proof.Machine.execBvs e s
  | .toR n => Sys2Proof.Machine.execTo n s
  | .move n => Sys2Proof.Machine.execMove n s
  | .withR n => Sys2Proof.Machine.execWith n s
  | .stw n => Sys2Proof.Machine.execStw n s
  | .stb n => Sys2Proof.Machine.execStb n s
  | .loop => Sys2Proof.Machine.execLoop s
  | .alt1 => Sys2Proof.Machine.execAlt1 s
  | .alt2 => Sys2Proof.Machine.execAlt2 s
  | .alt3 => Sys2Proof.Machine.execAlt3 s
  | .ldw n => Sys2Proof.Machine.execLdw n s
  | .ldb n => Sys2Proof.Machine.execLdb n s
  | .plot => Sys2Proof.Machine.execPlot s
  | .rpix => Sys2Proof.Machine.execRpix s
  | .swap => Sys2Proof.Machine.execSwap s
  | .color => Sys2Proof.Machine.execColor s
  | .cmode => Sys2Proof.Machine.execCmode s
  | .not => Sys2Proof.Machine.execNot s
  | .add n => Sys2Proof.Machine.execAdd n s
  | .adc n => Sys2Proof.Machine.execAdc n s
  | .addI n => Sys2Proof.Machine.execAddI n s
  | .adcI n => Sys2Proof.Machine.execAdcI n s
  | .sub n => Sys2Proof.Machine.execSub n s
  | .sbc n => Sys2Proof.Machine.execSbc n s
  | .subI n => Sys2Proof.Machine.execSubI n s
  | .cmp n => Sys2Proof.Machine.execCmp n s
  | .merge => Sys2Proof.Machine.execMerge s
  | .and n => Sys2Proof.Machine.execAnd n s
  | .bic n => Sys2Proof.Machine.execBic n s
  | .andI n => Sys2Proof.Machine.execAndI n s
  | .bicI n => Sys2Proof.Machine.execBicI n s
  | .mult n => Sys2Proof.Machine.execMult n s
  | .umult n => Sys2Proof.Machine.execUmult n s
  | .multI n => Sys2Proof.Machine.execMultI n s
  | .umultI n => Sys2Proof.Machine.execUmultI n s
  | .sbk => Sys2Proof.Machine.execSbk s
  | .link n => Sys2Proof.Machine.execLink n s
  | .sex => Sys2Proof.Machine.execSex s
  | .asr => Sys2Proof.Machine.execAsr s
  | .div2 => Sys2Proof.Machine.execDiv2 s
  | .ror => Sys2Proof.Machine.execRor s
  | .jmp n => Sys2Proof.Machine.execJmp n s
  | .ljmp n => Sys2Proof.Machine.execLjmp n s
  | .lob => Sys2Proof.Machine.execLob s
  | .fmult => Sys2Proof.Machine.execFmult s
  | .lmult => Sys2Proof.Machine.execLmult s
  | .ibt n pp => Sys2Proof.Machine.execIbt n pp s
  | .lms n yy => Sys2Proof.Machine.execLms n yy s
  | .sms n yy => Sys2Proof.Machine.execSms n yy s
  | .fromR n => Sys2Proof.Machine.execFrom n s
  | .moves n => Sys2Proof.Machine.execMoves n s
  | .hib => Sys2Proof.Machine.execHib s
  | .or n => Sys2Proof.Machine.execOr n s
  | .xor n => Sys2Proof.Machine.execXor n s
  | .orI n => Sys2Proof.Machine.execOrI n s
  | .xorI n => Sys2Proof.Machine.execXorI n s
  | .inc n => Sys2Proof.Machine.execInc n s
  | .getc => Sys2Proof.Machine.execGetc s
  | .ramb => Sys2Proof.Machine.execRamb s
  | .romb => Sys2Proof.Machine.execRomb s
  | .dec n => Sys2Proof.Machine.execDec n s
  | .getb => Sys2Proof.Machine.execGetb s
  | .getbh => Sys2Proof.Machine.execGetbh s
  | .getbl => Sys2Proof.Machine.execGetbl s
  | .getbs => Sys2Proof.Machine.execGetbs s
  | .iwt n xx => Sys2Proof.Machine.execIwt n xx s
  | .lm n xx => Sys2Proof.Machine.execLm n xx s
  | .sm n xx => Sys2Proof.Machine.execSm n xx s

end Sys2Proof.Machine
end

