-- ==== Sys2Proof/Machine/Fetch.lean ====
section
/-! DEFINITION. The step prologue (40_dispatch_prefix_control.md R100): which instruction the pipe and the mode flags select, the
bytes its immediates will be consumed from, and the refill of the pipe; and where a test word is put so that the next step runs it. -/

namespace Sys2Proof.Machine

/-- GO: the Running state (60_exceptions.md R279). -/
def State.running (s : State) : Bool := s.flag bitGO

/-- The instruction the next step dispatches: the opcode byte is the pipe's, decoded by the configuration's opcode map under the
mode flags "before the instruction runs" (R100). Its immediate bytes, if it has any, are the bytes at R15 and R15 + 1 of the program bank: the
prologue and each `Imm8()` load them into the pipe in turn (R103; log 5). -/
def State.fetched (s : State) : Instr :=
  decodeOp s.config.opTable s.mode s.pipe (s.prgRead s.pc) (s.prgRead (s.pc + 1))

/-- `pipe <- PrgRead(R15)`: the prologue; "R15 is not changed here" (R100). -/
def State.prologue (s : State) : State := { s with pipe := s.prgRead s.pc }

/-- Put a byte at offset `a` of the program bank, in whichever buffer that is (20_memory.md R51). For loading a program
from outside the machine only: no instruction stores here except through the RAM space. -/
def State.placeProgramByte (s : State) (a : Word) (v : Byte) : State :=
  let t := bankTable s.config s.pbr
  match t.1 with
  | .rom => { s with rom := s.rom.write (t.2 + a.toNat) v }
  | .ram => { s with ram := s.ram.write (t.2 + a.toNat) v }

/-- Set the mode flags of the decode key. -/
def State.setMode (s : State) (m : Mode) : State :=
  ((s.setFlag bitALT1 m.alt1).setFlag bitALT2 m.alt2).setFlag bitB m.b

/-- Make a table word the next instruction: its key's mode flags, its opcode byte in the pipe, its immediate bytes at R15
and R15 + 1 of the program bank, and GO set so that the next step runs (log 4). -/
def State.placeWord (s : State) (t : TableWord) : State :=
  let s1 := (s.setMode t.mode).setFlag bitGO true
  ({ s1 with pipe := t.op }.placeProgramByte s.pc t.b1).placeProgramByte (s.pc + 1) t.b2

end Sys2Proof.Machine
end

