-- ==== Sys2Proof/Machine/Step.lean ====
section
/-! DEFINITION. One step of the machine: `Step()` of 40_dispatch_prefix_control.md R100 while GO = 1. With GO = 0 the machine is
Stopped, "the only idle state" (60_exceptions.md R288): no instruction runs and nothing changes (log 3). -/

namespace Sys2Proof.Machine

/-- One step. -/
def step (s : State) : Host.Outcome State Fault Refusal :=
  if s.running then exec s.fetched s.prologue else .next s

/-- The state in which the very next step runs the instruction of a table word (log 4). -/
def State.withFetchWord (s : State) (nbits w : Nat) : State := s.placeWord (tableWord nbits w)

end Sys2Proof.Machine
end

