-- ==== Sys2Proof/Machine/Driver.lean ====
section
/-! DEFINITION. What the host can do (00_scope.md R4): reset, the image synchronisation (10_state.md R38, R39), the start check, the
run loop and the debug loops around `step` (60_exceptions.md R275 to R283), the accessors (R42) and the host's writes between
batches (20_memory.md R74). -/

namespace Sys2Proof.Machine

/-- Continue with the state a step gave; a fault or a refusal ends the call. (No step gives one: 60_exceptions.md R270.) -/
def andThen {α β : Type} (o : Host.Outcome α Fault Refusal) (f : α → Host.Outcome β Fault Refusal) :
    Host.Outcome β Fault Refusal :=
  match o with
  | .next a => f a
  | .fault r => .fault r
  | .refused r => .refused r

/-! ## Reset -/

/-- Whether the bank counts are usable and both buffers are as large as 20_memory.md R53 requires (70_reset_and_hazards.md R301,
93_implementation_defined.md G11). -/
def validConfig (c : Config) : Bool :=
  0 < c.nrom && 0 < c.nram && 0 < c.romBankMax && requiredRomSize c ≤ c.romSize && requiredRamSize c ≤ c.ramSize

/-- Whether `m` is the content of a buffer of `size` bytes: in canonical form, with no byte outside the buffer. -/
def validContent (m : Memory) (size : Nat) : Bool := decide (m.wf ∧ m.below size)

/-- `reset(config)` with the content of the host's two buffers. A configuration with a bank count of 0 or with too small a buffer is
refused, as 70_reset_and_hazards.md R301 lets a model do and 93_implementation_defined.md G11 rules (log 14). -/
def resetWith (c : Config) (ram rom : Memory) : Result :=
  if validConfig c && validContent ram c.ramSize && validContent rom c.romSize then .next (State.afterReset c ram rom)
  else .refused .badConfiguration

/-! ## The register image -/

/-- A 16-bit field of the image, low byte first (20_memory.md R60). -/
def imageWord (m : Memory) (off : Nat) : Word := wordOfBytes (m.read off) (m.read (off + 1))

/-- `LoadImage` (10_state.md R38): plain stores, no ROM buffer reload; clears `err`. -/
def State.loadImage (s : State) : State :=
  { s with
    err := 0
    regs := Vector.ofFn fun i => imageWord s.image (2 * i.val)
    sfr := imageWord s.image 0x30
    pbr := s.image.read 0x34
    rombr := s.image.read 0x36
    rambr := (s.image.read 0x3C).setWidth 2
    cbr := imageWord s.image 0x3E
    cfgr := s.image.read 0x37
    scbr := s.image.read 0x38
    scmr := s.image.read 0x3A }

/-- Write a 16-bit field of the image, low byte first. -/
def writeImageWord (m : Memory) (off : Nat) (v : Word) : Memory :=
  (m.write off (lowByte v)).write (off + 1) (highByte v)

/-- The registers R0 to R15 written to the image. -/
def State.imageRegs (s : State) : Memory :=
  (List.finRange 16).foldl (fun m i => writeImageWord m (2 * i.val) (s.reg i)) s.image

/-- `StoreImage` (10_state.md R39): no other byte of the image is written. -/
def State.storeImage (s : State) : State :=
  let m1 := writeImageWord s.imageRegs 0x30 s.sfr
  let m2 := ((m1.write 0x34 s.pbr).write 0x36 s.rombr).write 0x3C (s.rambr.setWidth 8)
  { s with image := writeImageWord m2 0x3E s.cbr }

/-! ## The batch -/

/-- `{PBR, R15}`, 24 bits (60_exceptions.md R272). -/
def State.startAddress (s : State) : BitVec 24 := s.pbr ++ s.pc

/-- SCMR bit 3, RAN: program fetch from RAM banks permitted (10_state.md R27). -/
def State.ramFetchEnabled (s : State) : Bool := s.scmr.getLsbD 3

/-- SCMR bit 4, RON: program fetch from ROM banks permitted (10_state.md R27). -/
def State.romFetchEnabled (s : State) : Bool := s.scmr.getLsbD 4

/-- `StartAllowed()` (60_exceptions.md R275). -/
def State.startAllowed (s : State) : Bool :=
  if s.inWindow s.pc then true
  else if 0x70 ≤ s.pbr.toNat ∧ s.pbr.toNat ≤ 0x73 then s.ramFetchEnabled
  else if s.pbr.toNat ≤ 0x5F then s.romFetchEnabled
  else false

/-- `rombuf <- RomRead(R[14])`: the re-arm at batch start (60_exceptions.md R276). -/
def State.rearm (s : State) : State := { s with rombuf := s.romRead (s.reg 14) }

/-- The loop of `Run`, with `fuel` the value of `budget` and the count so far (60_exceptions.md R276). -/
def runLoop : Nat → Nat → State → Host.Outcome (Nat × State) Fault Refusal
  | 0, count, s => .next (count, s)
  | fuel + 1, count, s =>
    if s.running then
      andThen (step { s with budget := fuel }) fun t => runLoop fuel (if t.running then count + 1 else count) t
    else .next (count, s)

/-- `Run(n)`, the hot loop (60_exceptions.md R276). -/
def run (n : Nat) (s : State) : Host.Outcome (Nat × State) Fault Refusal :=
  runLoop n 0 { s with budget := n }.rearm

/-- When a debug loop stops after a step, and whether it stops with BreakpointHit. -/
inductive DebugStop where
  | goOn
  | reached
  | breakpoint
  deriving DecidableEq, Repr

/-- `RunToBreakpoint` compares R15 with the breakpoint (60_exceptions.md R282). -/
def breakStop (s : State) : DebugStop := if s.pc = s.bpAddr then .breakpoint else .goOn

/-- `stepOver` compares the breakpoint first, if one is set, then the step target (60_exceptions.md R283, R273). -/
def stepOverStop (s : State) : DebugStop :=
  if s.bpActive ∧ s.pc = s.bpAddr then .breakpoint else if s.pc = s.stepAddr then .reached else .goOn

/-- The loop of the two debug drivers: every executed step counts, a STOP included (60_exceptions.md R282, R283). -/
def debugLoop (stop : State → DebugStop) : Nat → Nat → State → Host.Outcome (Nat × State) Fault Refusal
  | 0, count, s => .next (count, s)
  | fuel + 1, count, s =>
    if s.running then
      andThen (step s) fun t =>
        match stop t with
        | .goOn => debugLoop stop fuel (count + 1) t
        | .reached => .next (count + 1, t)
        | .breakpoint => .next (count + 1, t.raise .breakpointHit)
    else .next (count, s)

/-- `RunToBreakpoint(n)` (60_exceptions.md R282). -/
def runToBreakpoint (n : Nat) (s : State) : Host.Outcome (Nat × State) Fault Refusal :=
  debugLoop breakStop n 0 s.rearm

/-- The end of a batch: `StoreImage`, then the error code if one was recorded, else the count (60_exceptions.md R277, R278). -/
def finishBatch (r : Nat × State) : Int × State :=
  (if r.2.err ≠ 0 then r.2.err else (r.1 : Int), r.2.storeImage)

/-- What a failed start check leaves: GO cleared, the error recorded, the image stored, 0 returned (60_exceptions.md R278). -/
def State.refuseStart (s : State) : Int × State :=
  (0, (((s.setFlag bitGO false).raise (.illegalStartAddress s.startAddress))).storeImage)

/-- `emulate(n)` (60_exceptions.md R278): the value returned and the session after it. -/
def emulate (n : Nat) (s : State) : Host.Outcome (Int × State) Fault Refusal :=
  let s1 := s.loadImage
  if s1.startAllowed then
    andThen (if s1.bpActive then runToBreakpoint n s1 else run n s1) fun r => .next (finishBatch r)
  else .next s1.refuseStart

/-! ## Debug drivers -/

/-- `setBreakpoint(address)`: `address[15:0]` (60_exceptions.md R280). -/
def setBreakpoint (address : Nat) (s : State) : State :=
  { s with bpAddr := BitVec.ofNat 16 address, bpActive := true }

/-- `clearBreakpoint()`: the address keeps its value (60_exceptions.md R281). -/
def clearBreakpoint (s : State) : State := { s with bpActive := false }

/-- The step target: "R15 after the instruction in pipe, had it run sequentially" (60_exceptions.md R283). -/
def State.stepTarget (s : State) : Word := s.pc + BitVec.ofNat 16 (opLength s.pipe)

/-- `stepOver(maxInstructions)` (60_exceptions.md R283). -/
def stepOver (n : Nat) (s : State) : Host.Outcome (Int × State) Fault Refusal :=
  let s1 := s.loadImage
  if s1.startAllowed then
    andThen (debugLoop stepOverStop n 0 { s1 with stepAddr := s1.stepTarget }.rearm) fun r => .next (finishBatch r)
  else .next s1.refuseStart

/-! ## Accessors and host writes -/

/-- What the host reads without side effect (10_state.md R42). -/
structure HostView where
  err : Int
  illegalAddr : BitVec 24
  colr : Byte
  por : BitVec 5
  sreg : Reg
  dreg : Reg
  pipe : Byte
  deriving DecidableEq, Repr

/-- The accessors of 10_state.md R42. -/
def State.hostView (s : State) : HostView where
  err := s.err
  illegalAddr := s.illegalAddr
  colr := s.colr
  por := s.por
  sreg := s.sreg
  dreg := s.dreg
  pipe := s.pipe

/-- The host writes one image byte between batches; an offset outside the 0x300 bytes is no byte of the image, and a
write there changes nothing (20_memory.md R74; DESIGN CHOICE, log 17). -/
def hostWriteImage (off : Nat) (v : Byte) (s : State) : State :=
  if off < imageSize then { s with image := s.image.write off v } else s

/-- The host writes one RAM byte between batches; no write tracking (20_memory.md R74). What a write past the end of the buffer does
the spec does not say: it changes nothing (DESIGN CHOICE, log 17). -/
def hostWriteRam (p : Nat) (v : Byte) (s : State) : State :=
  if p < s.config.ramSize then { s with ram := s.ram.write p v } else s

/-- The host replaces one ROM byte between batches (20_memory.md R74). What a write past the end of the buffer does the spec does not
say: it changes nothing (DESIGN CHOICE, log 17). -/
def hostWriteRom (p : Nat) (v : Byte) (s : State) : State :=
  if p < s.config.romSize then { s with rom := s.rom.write p v } else s

end Sys2Proof.Machine
end

