-- ==== Sys2Proof/Safety.lean ====
section
/-! DEFINITION. The terms claims are stated in: what a step leaves unchanged, when an instruction completes and with what
effect, where an instruction stands in the opcode map, and the invariant of the machine. -/

namespace Sys2Proof.Machine

/-! ## Frames -/

/-- Every register but those listed is unchanged. -/
def SameRegsExcept (rs : List Reg) (s t : State) : Prop := ∀ r : Reg, r ∉ rs → t.reg r = s.reg r

/-- Every bit of SFR outside the mask is unchanged. -/
def SameSfrExcept (mask : Word) (s t : State) : Prop :=
  ∀ i : Nat, mask.getLsbD i = false → t.sfr.getLsbD i = s.sfr.getLsbD i

/-- Every special register, the execution context, the image and the configuration are unchanged. (The pipe, `rombuf`,
`sreg` and `dreg` are said apart.) -/
def SameSpecial (s t : State) : Prop :=
  t.pbr = s.pbr ∧ t.rombr = s.rombr ∧ t.rambr = s.rambr ∧ t.cbr = s.cbr ∧ t.cacheActive = s.cacheActive ∧
  t.cvalid = s.cvalid ∧ t.colr = s.colr ∧ t.por = s.por ∧ t.scbr = s.scbr ∧ t.scmr = s.scmr ∧ t.cfgr = s.cfgr ∧
  t.lastRamAddr = s.lastRamAddr ∧ t.budget = s.budget ∧ t.err = s.err ∧ t.illegalAddr = s.illegalAddr ∧
  t.bpActive = s.bpActive ∧ t.bpAddr = s.bpAddr ∧ t.stepAddr = s.stepAddr ∧ t.image = s.image ∧ t.config = s.config

/-- Every byte of the RAM buffer reads as before. -/
def SameRam (s t : State) : Prop := ∀ a : Nat, t.ram.read a = s.ram.read a

/-- Every byte of the ROM buffer reads as before. -/
def SameRom (s t : State) : Prop := ∀ a : Nat, t.rom.read a = s.rom.read a

/-- The bits of ALT1, ALT2 and B in SFR. -/
def modeMask : Word := 0x1300
/-- The bits of Z and SG. -/
def szMask : Word := 0x000A
/-- The bits of Z, CY and SG. -/
def shiftMask : Word := 0x000E
/-- The bits of Z, CY, SG and OV. -/
def condMask : Word := 0x001E

/-- What `ClrFlags()` leaves (10_state.md R19). -/
def Cleared (t : State) : Prop :=
  t.flag bitALT1 = false ∧ t.flag bitALT2 = false ∧ t.flag bitB = false ∧ t.sreg = 0 ∧ t.dreg = 0

/-- The pipe after an instruction with `k` immediate bytes: the prologue's byte, or the byte the last `Imm8()` fetched
(40_dispatch_prefix_control.md R103). -/
def pipeAfter (s : State) (k : Nat) : Byte := if k = 0 then s.pipe else s.prgRead (s.pc + BitVec.ofNat 16 k)

/-- R15 after an instruction with `k` immediate bytes that transfers nowhere (40_dispatch_prefix_control.md R102, R103). -/
def pcAfter (s : State) (k : Nat) : Word := s.pc + 1 + BitVec.ofNat 16 k

/-- From `s`, the instruction completes in a state with the given register, pc and SFR frame, the special registers of `u`,
memory unchanged, and what `post` says. `u` is `s` but for the special registers the instruction writes. -/
def RunsTo (i : Instr) (s u : State) (regs : List Reg) (mask : Word) (post : State → Prop) : Prop :=
  ∃ t, exec i s = .next t ∧ SameRegsExcept regs s t ∧ SameSfrExcept mask s t ∧ SameSpecial u t ∧
    SameRam s t ∧ SameRom s t ∧ post t

/-- The instruction writes `v` to register `d` (40_dispatch_prefix_control.md R104): R15 has advanced unless it is the
destination, the ROM buffer is re-armed when the destination is R14 (10_state.md R14), the prefixes are cleared, and of SFR
only the bits of `mask` and the mode flags may change. `k` immediate bytes are consumed. -/
def WritesReg (i : Instr) (s u : State) (k : Nat) (d : Reg) (v : Word) (mask : Word) (post : State → Prop) : Prop :=
  RunsTo i s u [d, 15] (mask ||| modeMask) fun t =>
    t.reg d = v ∧ (d ≠ 15 → t.pc = pcAfter s k) ∧ t.rombuf = (if d = 14 then s.romRead v else s.rombuf) ∧
    t.pipe = pipeAfter s k ∧ Cleared t ∧ post t

/-- The instruction writes no general register: R15 has advanced, the prefixes are cleared, memory is unchanged. -/
def WritesNoReg (i : Instr) (s u : State) (k : Nat) (mask : Word) (post : State → Prop) : Prop :=
  RunsTo i s u [15] (mask ||| modeMask) fun t =>
    t.pc = pcAfter s k ∧ t.rombuf = s.rombuf ∧ t.pipe = pipeAfter s k ∧ Cleared t ∧ post t

/-- No further condition. -/
def anyPost : State → Prop := fun _ => True

/-- Z and SG say that the 16-bit value is 0 and that its bit 15 is set (10_state.md R17). -/
def HasSZ (v : Word) (t : State) : Prop := t.flag bitZ = decide (v = 0) ∧ t.flag bitSG = decide (0x8000 ≤ v.toNat)

/-- Z, SG and CY. -/
def HasSZC (v : Word) (c : Bool) (t : State) : Prop := HasSZ v t ∧ t.flag bitCY = c

/-- All four condition flags. -/
def HasCond (v : Word) (c o : Bool) (t : State) : Prop := HasSZC v c t ∧ t.flag bitOV = o

/-! ## Stores -/

/-- After the instruction, which stores in RAM, each RAM byte reads as `after` says, and a validity bit is still set when it
was set and no stored byte lies in its sub-block of the active window (20_memory.md R70). The instruction writes no general
register and no condition flag. `a` is the address recorded. -/
def Stores (i : Instr) (s : State) (k : Nat) (last : Word) (stored : List Nat) (after : Nat → Byte) : Prop :=
  ∃ t, exec i s = .next t ∧ SameRegsExcept [15] s t ∧ SameSfrExcept modeMask s t ∧
    SameSpecial { s with lastRamAddr := last, cvalid := t.cvalid } t ∧ SameRom s t ∧
    t.pc = pcAfter s k ∧ t.rombuf = s.rombuf ∧ t.pipe = pipeAfter s k ∧ Cleared t ∧
    (∀ a, t.ram.read a = after a) ∧
    (∀ b, t.cvalid.getLsbD b = true ↔ s.cvalid.getLsbD b = true ∧ ∀ p ∈ stored, s.trackedBlock p ≠ some b)

/-- RAM after the 16-bit store of `v` at RAM address `a` (20_memory.md R59): the low byte at `a`, the high byte at `a ^ 1`,
every other byte as before. -/
def ramAfterWord (s : State) (a v : Word) (p : Nat) : Byte :=
  if p = s.ramPhys a then lowByte v else if p = s.ramPhys (a ^^^ 1) then highByte v else s.ram.read p

/-- RAM after the 8-bit store of `v` at RAM address `a`. -/
def ramAfterByte (s : State) (a : Word) (v : Byte) (p : Nat) : Byte :=
  if p = s.ramPhys a then v else s.ram.read p

/-- The two RAM buffer offsets a 16-bit access at `a` touches. -/
def wordBytes (s : State) (a : Word) : List Nat := [s.ramPhys a, s.ramPhys (a ^^^ 1)]

/-! ## The opcode map -/

/-- In the spec's map, on the given pages the opcode byte selects `f`, whatever B is, given the bytes that follow
(30_encoding.md R87). -/
def StandsAt (pages : List Nat) (op : Byte) (f : Byte → Byte → Instr) : Prop :=
  ∀ (m : Mode) (b1 b2 : Byte), m.page ∈ pages → decodeOp specOpTable m op b1 b2 = f b1 b2

/-- All four pages. -/
def allPages : List Nat := [0, 1, 2, 3]

/-- In the spec's map, on every page, the opcode byte selects `i` under the given value of B (30_encoding.md R83). -/
def StandsAtB (b : Bool) (op : Byte) (i : Instr) : Prop :=
  ∀ (m : Mode) (b1 b2 : Byte), m.b = b → decodeOp specOpTable m op b1 b2 = i

/-- The bytes that "mean different things on different pages" (30_encoding.md R82). -/
def pageSensitive (op : Byte) : Bool :=
  let v := op.toNat
  (0x30 ≤ v && v ≤ 0x3B) || (0x40 ≤ v && v ≤ 0x4C) || v == 0x4E || (0x50 ≤ v && v ≤ 0x6F) || (0x71 ≤ v && v ≤ 0x8F) ||
  v == 0x96 || (0x98 ≤ v && v ≤ 0x9D) || v == 0x9F || (0xA0 ≤ v && v ≤ 0xAF) || (0xC1 ≤ v && v ≤ 0xCF) || v == 0xDF ||
  v == 0xEF || 0xF0 ≤ v

/-- The bytes that read B: 0x10-0x1F and 0xB0-0xBF (30_encoding.md R83). -/
def readsB (op : Byte) : Bool := (0x10 ≤ op.toNat && op.toNat ≤ 0x1F) || (0xB0 ≤ op.toNat && op.toNat ≤ 0xBF)

/-- The instructions that do not call `ClrFlags()` (10_state.md R19). -/
def keepsPrefix : Instr → Bool
  | .toR _ | .withR _ | .fromR _ | .alt1 | .alt2 | .alt3 => true
  | .bra _ | .bge _ | .blt _ | .bne _ | .beq _ | .bpl _ | .bmi _ | .bcc _ | .bcs _ | .bvc _ | .bvs _ => true
  | _ => false

/-! ## The invariant -/

/-- What every step keeps: the three buffers in canonical form and inside their sizes (20_memory.md R53, 10_state.md R33, R37), a
configuration that reset accepts, and the cache base aligned to 16 bytes (10_state.md R24). -/
structure State.Inv (s : State) : Prop where
  ramWf : s.ram.wf
  romWf : s.rom.wf
  imageWf : s.image.wf
  ramBelow : s.ram.below s.config.ramSize
  romBelow : s.rom.below s.config.romSize
  imageBelow : s.image.below imageSize
  validConfig : validConfig s.config = true
  cbrAligned : s.cbr.toNat % 16 = 0

end Sys2Proof.Machine
end

