-- ==== Sys2Proof/Certificates/Slice0/Obligations.lean ====
section
/-! DEFINITION. The statements for the provers, by section of the spec. Each docstring names the rule it formalises. -/

open Sys2Proof Sys2Proof.Machine

/-! ## Encoding (30_encoding.md) -/

/-- Decoding the bytes of a well-formed instruction, in the mode it stands under, gives it back with the bytes that follow
(30_encoding.md R85, R87). The encoder is the model's: for an instruction of several pages it takes the lowest (log 10). -/
def Obligations.DecodeOfEncodeIsTheInstruction : Prop :=
  ∀ (i : Instr) (rest : List Byte), i.wellFormed = true →
    decode specOpTable (encode i).mode ((encode i).bytes ++ rest) = .ok (i, rest)

/-- Whatever the mode, the bytes of the instruction that an opcode byte and its successors decode to are those bytes, as
many as the instruction is long: no bit of the stream is dropped (R85, R87). -/
def Obligations.EncodeOfDecodeGivesTheBytesBack : Prop :=
  ∀ (m : Mode) (op b1 b2 : Byte), (encode (decodeOp specOpTable m op b1 b2)).bytes = [op, b1, b2].take (opLength op)

/-- R86, R89: every key gives an instruction whose operands lie in its register range. -/
def Obligations.EveryKeyGivesAWellFormedInstruction : Prop :=
  ∀ (m : Mode) (op b1 b2 : Byte), (decodeOp specOpTable m op b1 b2).wellFormed = true

/-- R84: the length, from the opcode byte alone, the same on every page. -/
def Obligations.InstructionLengthComesFromTheOpcodeByte : Prop :=
  ∀ (m : Mode) (op b1 b2 : Byte),
    (encode (decodeOp specOpTable m op b1 b2)).bytes.length =
      if 0xF0 ≤ op.toNat then 3
      else if (0x05 ≤ op.toNat ∧ op.toNat ≤ 0x0F) ∨ (0xA0 ≤ op.toNat ∧ op.toNat ≤ 0xAF) then 2 else 1

/-- R82, R83, R88: a byte that is not page sensitive decodes alike on all pages, and no byte but 0x10-0x1F and 0xB0-0xBF
reads B. -/
def Obligations.PageAndBMatterOnlyWhereTheMapSays : Prop :=
  (∀ (m m' : Mode) (op b1 b2 : Byte), pageSensitive op = false → m.b = m'.b →
    decodeOp specOpTable m op b1 b2 = decodeOp specOpTable m' op b1 b2) ∧
  (∀ (m m' : Mode) (op b1 b2 : Byte), readsB op = false → m.alt1 = m'.alt1 → m.alt2 = m'.alt2 →
    decodeOp specOpTable m op b1 b2 = decodeOp specOpTable m' op b1 b2)

/-- Words written out from R87 and R91 decode to what they stand for: 53 is ADD R3, ADC R3, ADD #3 and ADC #3 on pages 0 to
3, 63 is CMP R3 on page 3, F3 34 12 is IWT R3,#1234, B8 under B is MOVES. -/
def Obligations.WrittenOutWordsDecode : Prop :=
  decode specOpTable (Mode.ofPage 0) [0x53#8] = .ok (.add 3, []) ∧ decode specOpTable (Mode.ofPage 1) [0x53#8] = .ok (.adc 3, []) ∧
  decode specOpTable (Mode.ofPage 2) [0x53#8] = .ok (.addI 3#4, []) ∧ decode specOpTable (Mode.ofPage 3) [0x53#8] = .ok (.adcI 3#4, []) ∧
  decode specOpTable (Mode.ofPage 3) [0x63#8] = .ok (.cmp 3, []) ∧
  decode specOpTable (Mode.ofPage 0) [0xF3#8, 0x34#8, 0x12#8] = .ok (.iwt 3 0x1234#16, []) ∧
  decode specOpTable { b := true, alt2 := false, alt1 := false } [0xB8#8] = .ok (.moves 8, [])

/-! ## The step (40_dispatch_prefix_control.md) -/

/-- R100: when the pipe's byte and the program bytes at R15 decode, by the configuration's opcode map under the mode flags, to an
instruction, a running machine's step is `exec` of it in the state with the pipe refilled from R15 and nothing else changed. That the
immediate bytes are read with the opcode is the model's form (log 5, DEDUCED). -/
def Obligations.StepRunsTheDecodedInstruction : Prop :=
  ∀ (s : State) (i : Instr) (rest : List Byte), s.flag bitGO = true →
    decode s.config.opTable s.mode [s.pipe, s.prgRead s.pc, s.prgRead (s.pc + 1)] = .ok (i, rest) →
    step s = exec i { s with pipe := s.prgRead s.pc }

/-- The model's reading of R276 and R288 for a step outside a batch (log 3): with GO = 0 no instruction runs and nothing changes. -/
def Obligations.StoppedMachineChangesNothing : Prop :=
  ∀ s : State, s.flag bitGO = false → step s = .next s

/-- R103: the immediate bytes of the instruction a step dispatches are the bytes `Imm8()` takes from the pipe, as many as the
selected opcode calls for: the prologue's byte, then the byte the first `Imm8()` fetched. In the spec's opcode map they are as
many as the opcode byte alone says (30_encoding.md R84). That an instruction carries its immediate bytes as operands is the model's form
(log 5, DEDUCED). -/
def Obligations.ImmediateBytesComeFromThePipe : Prop :=
  ∀ s : State,
    let k := (s.config.opTable.select s.mode s.pipe).immCount
    immBytes s.fetched = [s.prologue.pipe, s.prologue.imm8.pipe].take k ∧
    (s.config.opTable = specOpTable → k + 1 = opLength s.pipe)

/-- The model's way of placing a word for the next step (log 4): the step after it is `exec`, in the state the prologue leaves, of
what the configuration's opcode map makes of the word; with the spec's map, of the table word's instruction. -/
def Obligations.PlacedWordIsTheNextInstruction : Prop :=
  ∀ (s : State) (nbits w : Nat),
    let p := tableWord nbits w
    let u := s.withFetchWord nbits w
    step u = exec (decodeOp s.config.opTable p.mode p.op p.b1 p.b2) u.prologue ∧
    ∀ i : Instr, s.config.opTable = specOpTable → decodeTableWord nbits w = some i → step u = exec i u.prologue

/-- R101, R270: every instruction completes, in every state, without fault or refusal; so does every step. -/
def Obligations.EveryInstructionCompletesWithoutFault : Prop :=
  (∀ (i : Instr) (s : State), ∃ t, exec i s = .next t) ∧ ∀ s : State, ∃ t, step s = .next t

/-- R129, R306, R309: after any step but a STOP's the pipe holds the byte that followed the instruction in memory before the
step, whether the instruction transferred control or not and whatever it stored. -/
def Obligations.PipeHoldsTheByteAfterTheInstruction : Prop :=
  ∀ s : State, s.flag bitGO = true → s.fetched ≠ .stop →
    ∃ t, step s = .next t ∧ t.pipe = s.prgRead (s.pc + BitVec.ofNat 16 (immBytes s.fetched).length)

/-- R19: every instruction but the prefixes and the branches clears ALT1, ALT2 and B and returns both indices to 0. -/
def Obligations.OnlyPrefixesAndBranchesKeepThePrefix : Prop :=
  ∀ (i : Instr) (s : State), keepsPrefix i = false → ∃ t, exec i s = .next t ∧ Cleared t

/-! ## Control (40_dispatch_prefix_control.md) -/

/-- R105: STOP. -/
def Obligations.StopClearsGoAndRequestsTheInterrupt : Prop :=
  StandsAt allPages 0x00 (fun _ _ => .stop) ∧
  ∀ s : State, RunsTo .stop s { s with por := if s.config.stopClearsPor then 0 else s.por } [15] 0x9320 fun t =>
    t.flag bitGO = false ∧ t.flag bitIRQ = (s.flag bitIRQ || !s.cfgr.getLsbD 7) ∧
    t.pipe = 0x01 ∧ t.pc = s.pc + 1 ∧ t.rombuf = s.rombuf ∧ Cleared t

/-- R106: NOP. -/
def Obligations.NopOnlyClearsThePrefixes : Prop :=
  StandsAt allPages 0x01 (fun _ _ => .nop) ∧ ∀ s : State, WritesNoReg .nop s s 0 0 anyPost

/-- R107 with 20_memory.md R68: CACHE. -/
def Obligations.CacheReanchorsTheWindowWhenItMoves : Prop :=
  StandsAt allPages 0x02 (fun _ _ => .cache) ∧
  ∀ s : State,
    WritesNoReg .cache s
      (if s.pc &&& 0xFFF0#16 ≠ s.cbr ∨ s.cacheActive = false then
        { s with cbr := s.pc &&& 0xFFF0#16, cacheActive := true, cvalid := 0xFFFF#16 } else s) 0 0 anyPost

/-- R108, R110, R111: TO, WITH, FROM. -/
def Obligations.RegisterPrefixesSetTheIndices : Prop :=
  ∀ (n : Reg) (s : State),
    StandsAtB false (opByte 0x1 n.val) (.toR n) ∧
    RunsTo (.toR n) s s [15] 0 (fun t => t.dreg = n ∧ t.sreg = s.sreg ∧ t.pc = s.pc + 1 ∧ t.pipe = s.pipe ∧ t.rombuf = s.rombuf) ∧
    StandsAt allPages (opByte 0x2 n.val) (fun _ _ => .withR n) ∧
    RunsTo (.withR n) s s [15] 0x1000
      (fun t => t.dreg = n ∧ t.sreg = n ∧ t.flag bitB = true ∧ t.pc = s.pc + 1 ∧ t.pipe = s.pipe ∧ t.rombuf = s.rombuf) ∧
    StandsAtB false (opByte 0xB n.val) (.fromR n) ∧
    RunsTo (.fromR n) s s [15] 0 (fun t => t.dreg = s.dreg ∧ t.sreg = n ∧ t.pc = s.pc + 1 ∧ t.pipe = s.pipe ∧ t.rombuf = s.rombuf)

/-- R113, R114, R131: ALT1, ALT2, ALT3. -/
def Obligations.AltPrefixesSetThePageAndClearB : Prop :=
  ∀ s : State,
    let keeps := fun t : State => t.flag bitB = false ∧ t.sreg = s.sreg ∧ t.dreg = s.dreg ∧ t.pc = s.pc + 1 ∧ t.pipe = s.pipe ∧
      t.rombuf = s.rombuf
    StandsAt allPages 0x3D (fun _ _ => .alt1) ∧ RunsTo .alt1 s s [15] 0x1100 (fun t => t.flag bitALT1 = true ∧ keeps t) ∧
    StandsAt allPages 0x3E (fun _ _ => .alt2) ∧ RunsTo .alt2 s s [15] 0x1200 (fun t => t.flag bitALT2 = true ∧ keeps t) ∧
    StandsAt allPages 0x3F (fun _ _ => .alt3) ∧
    RunsTo .alt3 s s [15] 0x1300 (fun t => t.flag bitALT1 = true ∧ t.flag bitALT2 = true ∧ keeps t)

/-- R109, R112: MOVE and MOVES. -/
def Obligations.MovesCopyARegister : Prop :=
  ∀ (n : Reg) (s : State),
    StandsAtB true (opByte 0x1 n.val) (.move n) ∧ WritesReg (.move n) s s 0 n s.src 0 anyPost ∧
    StandsAtB true (opByte 0xB n.val) (.moves n) ∧
    WritesReg (.moves n) s s 0 s.dreg (s.reg n) 0x001A
      (fun t => HasSZ (s.reg n) t ∧ t.flag bitOV = (s.reg n).getLsbD 7)

/-- R132: a branch consumes its displacement byte, changes no flag, index or mode, and moves R15 to the address after the
displacement plus the signed displacement when `c` holds, one past it otherwise. -/
def BranchesWhen (op : Byte) (i : Instr) (e : Byte) (s : State) (c : Prop) : Prop :=
  (∀ (m : Mode) (b2 : Byte), decodeOp specOpTable m op e b2 = i) ∧
  RunsTo i s s [15] 0 fun t =>
    t.sreg = s.sreg ∧ t.dreg = s.dreg ∧ t.rombuf = s.rombuf ∧ t.pipe = s.prgRead (s.pc + 1) ∧
    (c → t.pc = BitVec.ofInt 16 ((s.pc.toNat : Int) + 1 + e.toInt)) ∧ (¬c → t.pc = s.pc + 2)

/-- R115 to R125 over R132: the eleven branches and their conditions. -/
def Obligations.BranchesFollowTheirConditions : Prop :=
  ∀ (e : Byte) (s : State),
    BranchesWhen 0x05 (.bra e) e s True ∧
    BranchesWhen 0x06 (.bge e) e s (s.flag bitSG = s.flag bitOV) ∧
    BranchesWhen 0x07 (.blt e) e s (s.flag bitSG ≠ s.flag bitOV) ∧
    BranchesWhen 0x08 (.bne e) e s (s.flag bitZ = false) ∧
    BranchesWhen 0x09 (.beq e) e s (s.flag bitZ = true) ∧
    BranchesWhen 0x0A (.bpl e) e s (s.flag bitSG = false) ∧
    BranchesWhen 0x0B (.bmi e) e s (s.flag bitSG = true) ∧
    BranchesWhen 0x0C (.bcc e) e s (s.flag bitCY = false) ∧
    BranchesWhen 0x0D (.bcs e) e s (s.flag bitCY = true) ∧
    BranchesWhen 0x0E (.bvc e) e s (s.flag bitOV = false) ∧
    BranchesWhen 0x0F (.bvs e) e s (s.flag bitOV = true)

/-- R126: LOOP. -/
def Obligations.LoopCountsDownR12 : Prop :=
  StandsAt allPages 0x3C (fun _ _ => .loop) ∧
  ∀ s : State, RunsTo .loop s s [12, 15] (szMask ||| modeMask) fun t =>
    t.reg 12 = BitVec.ofInt 16 ((s.reg 12).toNat - 1) ∧ HasSZ (t.reg 12) t ∧
    (t.reg 12 ≠ 0 → t.pc = s.reg 13) ∧ (t.reg 12 = 0 → t.pc = s.pc + 1) ∧
    t.pipe = s.pipe ∧ t.rombuf = s.rombuf ∧ Cleared t

/-- R127, R128: LINK writes R11 with R15 + n; JMP moves R15 to Rn, the program bank unchanged. -/
def Obligations.LinkAndJumpTransferInTheBank : Prop :=
  (∀ (n : Imm4) (s : State), ((Instr.link n).wellFormed = true → StandsAt allPages (opByte 0x9 n.toNat) (fun _ _ => .link n)) ∧
    RunsTo (.link n) s s [11, 15] modeMask fun t =>
      t.reg 11 = s.pc + BitVec.ofNat 16 n.toNat ∧ t.pc = s.pc + 1 ∧ t.pipe = s.pipe ∧ t.rombuf = s.rombuf ∧ Cleared t) ∧
  (∀ (n : Reg) (s : State), ((Instr.jmp n).wellFormed = true → StandsAt [0, 2] (opByte 0x9 n.val) (fun _ _ => .jmp n)) ∧
    RunsTo (.jmp n) s s [15] modeMask fun t =>
      t.pc = s.reg n ∧ t.pipe = s.pipe ∧ t.rombuf = s.rombuf ∧ Cleared t)

/-- R130: LJMP. -/
def Obligations.LongJumpSelectsTheBankAndRebasesTheCache : Prop :=
  ∀ (n : Reg) (s : State), ((Instr.ljmp n).wellFormed = true → StandsAt [1, 3] (opByte 0x9 n.val) (fun _ _ => .ljmp n)) ∧
    RunsTo (.ljmp n) s
      { s with pbr := BitVec.ofNat 8 ((s.reg n).toNat % 128), cbr := s.src &&& 0xFFF0#16, cacheActive := true, cvalid := 0xFFFF#16 }
      [15] modeMask fun t => t.pc = s.src ∧ t.pipe = s.pipe ∧ t.rombuf = s.rombuf ∧ Cleared t

/-! ## Arithmetic and logic (41_alu.md) -/

/-- R151, R152: `AddFlags` and `SubFlags` by the formulas that "must match bit-for-bit" (10_state.md R16). -/
def Obligations.AddAndSubtractFlagFormulas : Prop :=
  ∀ (a b : Word) (c : Bool),
    (let r : Nat := a.toNat + b.toNat + c.toNat
     let f := addFlags a b c
     f.value.toNat = r % 65536 ∧ (f.cy = true ↔ 0x10000 ≤ r) ∧ (f.z = true ↔ r % 65536 = 0) ∧ f.sg = f.value.getLsbD 15 ∧
     f.ov = ((!(a.getLsbD 15 ^^ b.getLsbD 15)) && (b.getLsbD 15 ^^ f.value.getLsbD 15))) ∧
    (let r : Int := a.toNat - b.toNat - c.toNat
     let f := subFlags a b c
     (f.value.toNat : Int) = r % 65536 ∧ (f.cy = true ↔ 0 ≤ r) ∧ (f.z = true ↔ r % 65536 = 0) ∧ f.sg = f.value.getLsbD 15 ∧
     f.ov = ((a.getLsbD 15 ^^ b.getLsbD 15) && (a.getLsbD 15 ^^ f.value.getLsbD 15)))

/-- An add: `D` gets the sum, CY says the unsigned sum does not fit in 16 bits, OV that the signed sum does not. -/
def Adds (i : Instr) (s : State) (b : Word) (c : Bool) : Prop :=
  let v := BitVec.ofNat 16 (s.src.toNat + b.toNat + c.toNat)
  WritesReg i s s 0 s.dreg v condMask
    (HasCond v (decide (0x10000 ≤ s.src.toNat + b.toNat + c.toNat))
      (decide (s.src.toInt + b.toInt + c.toNat < -32768 ∨ 32767 < s.src.toInt + b.toInt + c.toNat)))

/-- R153 to R156: the four adds. -/
def Obligations.AddInstructions : Prop :=
  ∀ s : State,
    (∀ n : Reg, StandsAt [0] (opByte 0x5 n.val) (fun _ _ => .add n) ∧ Adds (.add n) s (s.reg n) false) ∧
    (∀ n : Reg, StandsAt [1] (opByte 0x5 n.val) (fun _ _ => .adc n) ∧ Adds (.adc n) s (s.reg n) (s.flag bitCY)) ∧
    (∀ n : Imm4, StandsAt [2] (opByte 0x5 n.toNat) (fun _ _ => .addI n) ∧ Adds (.addI n) s (BitVec.ofNat 16 n.toNat) false) ∧
    (∀ n : Imm4, StandsAt [3] (opByte 0x5 n.toNat) (fun _ _ => .adcI n) ∧
      Adds (.adcI n) s (BitVec.ofNat 16 n.toNat) (s.flag bitCY))

/-- The flags of a subtract: CY says no borrow, OV that the signed difference does not fit in 16 bits. -/
def SubtractFlags (s : State) (b : Word) (c : Bool) : State → Prop :=
  HasCond (BitVec.ofInt 16 (s.src.toNat - b.toNat - c.toNat)) (decide (b.toNat + c.toNat ≤ s.src.toNat))
    (decide (s.src.toInt - b.toInt - c.toNat < -32768 ∨ 32767 < s.src.toInt - b.toInt - c.toNat))

/-- R157 to R160: the three subtracts, which write `D`, and the compare, which writes no register and the same flags. -/
def Obligations.SubtractAndCompareInstructions : Prop :=
  ∀ s : State,
    let subtracts := fun (i : Instr) (b : Word) (c : Bool) =>
      WritesReg i s s 0 s.dreg (BitVec.ofInt 16 (s.src.toNat - b.toNat - c.toNat)) condMask (SubtractFlags s b c)
    (∀ n : Reg, StandsAt [0] (opByte 0x6 n.val) (fun _ _ => .sub n) ∧ subtracts (.sub n) (s.reg n) false) ∧
    (∀ n : Reg, StandsAt [1] (opByte 0x6 n.val) (fun _ _ => .sbc n) ∧ subtracts (.sbc n) (s.reg n) (!s.flag bitCY)) ∧
    (∀ n : Imm4, StandsAt [2] (opByte 0x6 n.toNat) (fun _ _ => .subI n) ∧ subtracts (.subI n) (BitVec.ofNat 16 n.toNat) false) ∧
    (∀ n : Reg, StandsAt [3] (opByte 0x6 n.val) (fun _ _ => .cmp n) ∧
      WritesNoReg (.cmp n) s s 0 condMask (SubtractFlags s (s.reg n) false))

/-- R195: after an add OV is signed overflow; subtracting and adding the same `b` restores `a`; the edge cases (e) and (f). -/
def Obligations.ArithmeticLaws : Prop :=
  ∀ a b : Word,
    ((addFlags a b false).ov = true ↔ (a.toInt + b.toInt < -32768 ∨ 32767 < a.toInt + b.toInt)) ∧
    ((subFlags a b false).ov = true ↔ (a.toInt - b.toInt < -32768 ∨ 32767 < a.toInt - b.toInt)) ∧
    (addFlags (subFlags a b false).value b false).value = a ∧
    (addFlags a 0 false).cy = false ∧ (addFlags a 0 false).ov = false ∧
    (subFlags a 0 false).cy = true ∧ (subFlags a 0 false).ov = false ∧ (subFlags a 0xFFFF true).cy = false

/-- An instruction that writes `v` to `D` with Z and SG from it, CY and OV unchanged. -/
def GivesSZ (i : Instr) (s : State) (v : Word) : Prop := WritesReg i s s 0 s.dreg v szMask (HasSZ v)

/-- R161 to R169: the logic instructions. -/
def Obligations.LogicInstructions : Prop :=
  ∀ s : State,
    (∀ n : Reg, n ≠ 0 →
      StandsAt [0] (opByte 0x7 n.val) (fun _ _ => .and n) ∧ StandsAt [1] (opByte 0x7 n.val) (fun _ _ => .bic n) ∧
      StandsAt [0] (opByte 0xC n.val) (fun _ _ => .or n) ∧ StandsAt [1] (opByte 0xC n.val) (fun _ _ => .xor n)) ∧
    (∀ n : Imm4, n ≠ 0 →
      StandsAt [2] (opByte 0x7 n.toNat) (fun _ _ => .andI n) ∧ StandsAt [3] (opByte 0x7 n.toNat) (fun _ _ => .bicI n) ∧
      StandsAt [2] (opByte 0xC n.toNat) (fun _ _ => .orI n) ∧ StandsAt [3] (opByte 0xC n.toNat) (fun _ _ => .xorI n)) ∧
    (∀ n : Reg, GivesSZ (.and n) s (s.src &&& s.reg n) ∧ GivesSZ (.bic n) s (s.src &&& ~~~(s.reg n)) ∧
      GivesSZ (.or n) s (s.src ||| s.reg n) ∧ GivesSZ (.xor n) s (s.src ^^^ s.reg n)) ∧
    (∀ n : Imm4, let k := BitVec.ofNat 16 n.toNat
      GivesSZ (.andI n) s (s.src &&& k) ∧ GivesSZ (.bicI n) s (s.src &&& ~~~k) ∧
      GivesSZ (.orI n) s (s.src ||| k) ∧ GivesSZ (.xorI n) s (s.src ^^^ k)) ∧
    StandsAt allPages 0x4F (fun _ _ => .not) ∧ GivesSZ .not s (~~~s.src)

/-- A shift: `v` to `D`, Z and SG from it, CY the bit shifted out, OV unchanged. -/
def Shifts (i : Instr) (s : State) (v : Word) (c : Bool) : Prop := WritesReg i s s 0 s.dreg v shiftMask (HasSZC v c)

/-- R170 to R174: the shifts and rotates. The arithmetic shift is division by two rounding toward minus infinity; DIV2
differs from it for 0xFFFF only. -/
def Obligations.ShiftInstructions : Prop :=
  ∀ s : State,
    let a := s.src.toNat
    let cy := s.flag bitCY
    let half : Word := BitVec.ofInt 16 (s.src.toInt / 2)
    StandsAt allPages 0x03 (fun _ _ => .lsr) ∧ Shifts .lsr s (BitVec.ofNat 16 (a / 2)) (decide (a % 2 = 1)) ∧
    StandsAt allPages 0x04 (fun _ _ => .rol) ∧ Shifts .rol s (BitVec.ofNat 16 (2 * a + cy.toNat)) (decide (0x8000 ≤ a)) ∧
    StandsAt [0, 2] 0x96 (fun _ _ => .asr) ∧ Shifts .asr s half (decide (a % 2 = 1)) ∧
    StandsAt [1, 3] 0x96 (fun _ _ => .div2) ∧ Shifts .div2 s (if s.src = 0xFFFF#16 then 0 else half) (decide (a % 2 = 1)) ∧
    StandsAt allPages 0x97 (fun _ _ => .ror) ∧ Shifts .ror s (BitVec.ofNat 16 (a / 2 + 0x8000 * cy.toNat)) (decide (a % 2 = 1))

/-- R176 to R179: SWAP, SEX, LOB, HIB. For LOB and HIB the sign is bit 7 of the byte. -/
def Obligations.ByteInstructions : Prop :=
  ∀ s : State,
    let lo := s.src.toNat % 256
    let hi := s.src.toNat / 256
    let gives8 := fun (i : Instr) (b : Nat) => WritesReg i s s 0 s.dreg (BitVec.ofNat 16 b) szMask
      (fun t => t.flag bitZ = decide (b = 0) ∧ t.flag bitSG = decide (0x80 ≤ b))
    StandsAt allPages 0x4D (fun _ _ => .swap) ∧ GivesSZ .swap s (BitVec.ofNat 16 (256 * lo + hi)) ∧
    StandsAt allPages 0x95 (fun _ _ => .sex) ∧ GivesSZ .sex s (BitVec.ofNat 16 (if lo < 0x80 then lo else 0xFF00 + lo)) ∧
    StandsAt allPages 0x9E (fun _ _ => .lob) ∧ gives8 .lob lo ∧
    StandsAt allPages 0xC0 (fun _ _ => .hib) ∧ gives8 .hib hi

/-- R180: MERGE and its flags by masks. -/
def Obligations.MergeSetsFlagsByMasks : Prop :=
  StandsAt allPages 0x70 (fun _ _ => .merge) ∧
  ∀ s : State,
    let v := BitVec.ofNat 16 (256 * ((s.reg 7).toNat / 256) + (s.reg 8).toNat / 256)
    WritesReg .merge s s 0 s.dreg v condMask fun t =>
      (t.flag bitOV = true ↔ v &&& 0xC0C0#16 ≠ 0) ∧ (t.flag bitZ = true ↔ v &&& 0xF0F0#16 ≠ 0) ∧
      (t.flag bitSG = true ↔ v &&& 0x8080#16 ≠ 0) ∧ (t.flag bitCY = true ↔ v &&& 0xE0E0#16 ≠ 0)

/-- The signed value of the low byte of a word. -/
def signedLow (w : Word) : Int := if w.toNat % 256 < 128 then (w.toNat % 256 : Int) else (w.toNat % 256 : Int) - 256

/-- R181 to R184: the 8 x 8 multiplies; the high bytes of the operands are ignored and the immediate is never negative. -/
def Obligations.ByteMultiplies : Prop :=
  ∀ s : State,
    (∀ n : Reg, StandsAt [0] (opByte 0x8 n.val) (fun _ _ => .mult n) ∧
      GivesSZ (.mult n) s (BitVec.ofInt 16 (signedLow s.src * signedLow (s.reg n)))) ∧
    (∀ n : Reg, StandsAt [1] (opByte 0x8 n.val) (fun _ _ => .umult n) ∧
      GivesSZ (.umult n) s (BitVec.ofNat 16 ((s.src.toNat % 256) * ((s.reg n).toNat % 256)))) ∧
    (∀ n : Imm4, StandsAt [2] (opByte 0x8 n.toNat) (fun _ _ => .multI n) ∧
      GivesSZ (.multI n) s (BitVec.ofInt 16 (signedLow s.src * n.toNat))) ∧
    (∀ n : Imm4, StandsAt [3] (opByte 0x8 n.toNat) (fun _ _ => .umultI n) ∧
      GivesSZ (.umultI n) s (BitVec.ofNat 16 ((s.src.toNat % 256) * n.toNat)))

/-- R187, R188: FMULT and LMULT. The carry is the product bit that the parameter MULT16_CARRY names (D19), 15 in the spec's
configuration; when D is R4 the high word stands. -/
def Obligations.WordMultiplies : Prop :=
  ∀ s : State,
    let c : Int := s.src.toInt * (s.reg 6).toInt
    let high : Word := BitVec.ofInt 16 (c / 65536)
    let low : Word := BitVec.ofInt 16 c
    let carry := (BitVec.ofInt 32 c).getLsbD s.config.mult16CarryBit
    StandsAt [0, 2] 0x9F (fun _ _ => .fmult) ∧ WritesReg .fmult s s 0 s.dreg high shiftMask (HasSZC high carry) ∧
    StandsAt [1, 3] 0x9F (fun _ _ => .lmult) ∧
    RunsTo .lmult s s [4, s.dreg, 15] (shiftMask ||| modeMask) fun t =>
      t.reg s.dreg = high ∧ (s.dreg ≠ 4 → t.reg 4 = low) ∧ (s.dreg ≠ 15 → t.pc = s.pc + 1) ∧
      t.rombuf = (if s.dreg = 14 then s.romRead high else s.rombuf) ∧ t.pipe = s.pipe ∧ HasSZC high carry t ∧ Cleared t

/-- R190, R191: INC and DEC on R[n], n = 0 to 14, CY and OV unchanged. -/
def Obligations.IncrementAndDecrement : Prop :=
  ∀ (n : Reg) (s : State),
    let up := BitVec.ofNat 16 ((s.reg n).toNat + 1)
    let down := BitVec.ofInt 16 ((s.reg n).toNat - 1)
    (n.val ≤ 14 → StandsAt allPages (opByte 0xD n.val) (fun _ _ => .inc n) ∧
      StandsAt allPages (opByte 0xE n.val) (fun _ _ => .dec n)) ∧
    WritesReg (.inc n) s s 0 n up szMask (HasSZ up) ∧ WritesReg (.dec n) s s 0 n down szMask (HasSZ down)

/-! ## Loads, stores, ROM buffer, banks (42_load_store.md, 20_memory.md) -/

/-- R200, R201: IBT and IWT. -/
def Obligations.ImmediateLoads : Prop :=
  ∀ (n : Reg) (s : State),
    (∀ pp : Byte, (∀ (m : Mode) (b2 : Byte), m.page = 0 → decodeOp specOpTable m (opByte 0xA n.val) pp b2 = .ibt n pp) ∧
      WritesReg (.ibt n pp) s s 1 n (BitVec.ofInt 16 pp.toInt) 0 anyPost) ∧
    (∀ lo hi : Byte, let xx := BitVec.ofNat 16 (lo.toNat + 256 * hi.toNat)
      (∀ m : Mode, m.page = 0 → decodeOp specOpTable m (opByte 0xF n.val) lo hi = .iwt n xx) ∧
      WritesReg (.iwt n xx) s s 2 n xx 0 anyPost)

/-- R204, R205, R208: STW, STB and SBK store where R[n] or `lastRamAddr` says, the two bytes of a word at `a` and `a ^ 1`. -/
def Obligations.RegisterAddressedStores : Prop :=
  ∀ s : State,
    (∀ n : Reg, n.val ≤ 11 → StandsAt [0, 2] (opByte 0x3 n.val) (fun _ _ => .stw n) ∧
      StandsAt [1, 3] (opByte 0x3 n.val) (fun _ _ => .stb n)) ∧
    (∀ n : Reg, Stores (.stw n) s 0 (s.reg n) (wordBytes s (s.reg n)) (ramAfterWord s (s.reg n) s.src)) ∧
    (∀ n : Reg, Stores (.stb n) s 0 (s.reg n) [s.ramPhys (s.reg n)] (ramAfterByte s (s.reg n) (lowByte s.src))) ∧
    StandsAt allPages 0x90 (fun _ _ => .sbk) ∧
    Stores .sbk s 0 s.lastRamAddr (wordBytes s s.lastRamAddr) (ramAfterWord s s.lastRamAddr s.src)

/-- The word that a 16-bit RAM read at `a` gives: the byte at `a`, and the byte at `a ^ 1` above it (20_memory.md R59). -/
def ramWordAt (s : State) (a : Word) : Word :=
  BitVec.ofNat 16 ((s.ramRead a).toNat + 256 * (s.ramRead (a ^^^ 1)).toNat)

/-- R206, R207: LDW and LDB, with no condition flag written and the byte zero-extended. -/
def Obligations.RegisterAddressedLoads : Prop :=
  ∀ (n : Reg) (s : State),
    (n.val ≤ 11 → StandsAt [0, 2] (opByte 0x4 n.val) (fun _ _ => .ldw n) ∧
      StandsAt [1, 3] (opByte 0x4 n.val) (fun _ _ => .ldb n)) ∧
    WritesReg (.ldw n) s { s with lastRamAddr := s.reg n } 0 s.dreg (ramWordAt s (s.reg n)) 0 anyPost ∧
    WritesReg (.ldb n) s { s with lastRamAddr := s.reg n } 0 s.dreg (BitVec.ofNat 16 (s.ramRead (s.reg n)).toNat) 0 anyPost

/-- R209, R211: LMS and LM. -/
def Obligations.AbsoluteLoads : Prop :=
  ∀ (n : Reg) (s : State),
    (∀ yy : Byte, let a := BitVec.ofNat 16 (2 * yy.toNat)
      (∀ (m : Mode) (b2 : Byte), m.page ∈ [1, 3] → decodeOp specOpTable m (opByte 0xA n.val) yy b2 = .lms n yy) ∧
      WritesReg (.lms n yy) s { s with lastRamAddr := a } 1 n (ramWordAt s a) 0 anyPost) ∧
    (∀ lo hi : Byte, let a := BitVec.ofNat 16 (lo.toNat + 256 * hi.toNat)
      (∀ m : Mode, m.page ∈ [1, 3] → decodeOp specOpTable m (opByte 0xF n.val) lo hi = .lm n a) ∧
      WritesReg (.lm n a) s { s with lastRamAddr := a } 2 n (ramWordAt s a) 0 anyPost)

/-- R210, R212: SMS and SM store R[n] as it was before the immediate bytes were consumed. -/
def Obligations.AbsoluteStores : Prop :=
  ∀ (n : Reg) (s : State),
    (∀ yy : Byte, let a := BitVec.ofNat 16 (2 * yy.toNat)
      (∀ (m : Mode) (b2 : Byte), m.page = 2 → decodeOp specOpTable m (opByte 0xA n.val) yy b2 = .sms n yy) ∧
      Stores (.sms n yy) s 1 a (wordBytes s a) (ramAfterWord s a (s.reg n))) ∧
    (∀ lo hi : Byte, let a := BitVec.ofNat 16 (lo.toNat + 256 * hi.toNat)
      (∀ m : Mode, m.page = 2 → decodeOp specOpTable m (opByte 0xF n.val) lo hi = .sm n a) ∧
      Stores (.sm n a) s 2 a (wordBytes s a) (ramAfterWord s a (s.reg n)))

/-- R215 to R218: GETB, GETBH, GETBL, GETBS read the ROM buffer, no memory, and no condition flag is written. -/
def Obligations.RomBufferReads : Prop :=
  ∀ s : State,
    let r := s.rombuf.toNat
    StandsAt [0] 0xEF (fun _ _ => .getb) ∧ WritesReg .getb s s 0 s.dreg (BitVec.ofNat 16 r) 0 anyPost ∧
    StandsAt [1] 0xEF (fun _ _ => .getbh) ∧
    WritesReg .getbh s s 0 s.dreg (BitVec.ofNat 16 (s.src.toNat % 256 + 256 * r)) 0 anyPost ∧
    StandsAt [2] 0xEF (fun _ _ => .getbl) ∧
    WritesReg .getbl s s 0 s.dreg (BitVec.ofNat 16 (256 * (s.src.toNat / 256) + r)) 0 anyPost ∧
    StandsAt [3] 0xEF (fun _ _ => .getbs) ∧ WritesReg .getbs s s 0 s.dreg (BitVec.ofInt 16 s.rombuf.toInt) 0 anyPost

/-- R221, R222: RAMB keeps 2 bits of S, ROMB 7; the ROM buffer is not reloaded. -/
def Obligations.BankInstructions : Prop :=
  ∀ s : State,
    StandsAt [2] 0xDF (fun _ _ => .ramb) ∧
    WritesNoReg .ramb s { s with rambr := BitVec.ofNat 2 (s.src.toNat % 4) } 0 0 anyPost ∧
    StandsAt [3] 0xDF (fun _ _ => .romb) ∧
    WritesNoReg .romb s { s with rombr := BitVec.ofNat 8 (s.src.toNat % 128) } 0 0 anyPost

/-- 20_memory.md R59 to R61, R65: a word written is read back; the access at an odd address is the one at the even address
below it with the bytes exchanged; the byte at the address of a word is its low byte. -/
def Obligations.WordAccessLaws : Prop :=
  ∀ (s : State) (a v : Word),
    (s.ramWrite16 a v).ramRead16 a = v ∧
    (a.toNat % 2 = 1 → (a ^^^ 1#16) = a - 1 ∧
      s.ramRead16 a = (s.ramRead16 (a - 1)).rotateLeft 8) ∧
    s.ramRead a = (s.ramRead16 a).setWidth 8

/-- The byte at offset `a` of bank `i` by the table of 20_memory.md R51: RAM at 70 to 73, the extended ROM region below 40 and the
primary one from 40 on, once the index is folded modulo 80. -/
def BankByteIs (s : State) (i : Byte) (a : Word) (v : Byte) : Prop :=
  let b := i.toNat % 128
  let n := min s.config.nrom s.config.romBankMax
  (0x70 ≤ i.toNat ∧ i.toNat ≤ 0x73 → v = s.ram.read (((i.toNat - 0x70) % s.config.nram) * 65536 + a.toNat)) ∧
  (¬(0x70 ≤ i.toNat ∧ i.toNat ≤ 0x73) ∧ 0x40 ≤ b → v = s.rom.read ((if 1 < n then b % n else b % 2) * 65536 + a.toNat)) ∧
  (b < 0x40 → v = s.rom.read (s.config.romExtBase + (b % (2 * n)) * 65536 + a.toNat))

/-- R51, R52, R55 to R58, R53: which byte of which buffer each of the four address spaces reaches, in every bank and at every
offset, and that with the bank counts a configuration may have it lies inside the buffer sizes the host must supply. That a
screen address wraps modulo the RAM size is the model's choice among what R58 allows: the spec marks it as its own choice, D28,
and lets a model refuse such a launch instead (log 12, DEDUCED). Reset refuses buffers smaller than that, as G11 rules and R301
permits (log 14, DESIGN CHOICE), and accepts the others. -/
def Obligations.AddressSpacesReachTheStatedBytes : Prop :=
  (∀ (s : State) (a : Word), BankByteIs s s.pbr a (s.prgRead a) ∧ BankByteIs s s.rombr a (s.romRead a) ∧
    s.ramRead a = s.ram.read ((s.rambr.toNat % s.config.nram) * 65536 + a.toNat) ∧
    ∀ off : Nat, s.scrRead off = s.ram.read ((s.scbr.toNat * 1024 + off) % (s.config.nram * 65536))) ∧
  ∀ (c : Config) (i : Byte) (a : Word), 0 < c.nrom → 0 < c.nram → 0 < c.romBankMax →
    let b := i.toNat % 128
    let n := min c.nrom c.romBankMax
    (0x70 ≤ i.toNat ∧ i.toNat ≤ 0x73 → bankTable c i = (.ram, ((i.toNat - 0x70) % c.nram) * 65536)) ∧
    (¬(0x70 ≤ i.toNat ∧ i.toNat ≤ 0x73) ∧ 0x40 ≤ b → bankTable c i = (.rom, (if 1 < n then b % n else b % 2) * 65536)) ∧
    (b < 0x40 → bankTable c i = (.rom, c.romExtBase + (b % (2 * n)) * 65536)) ∧
    ((bankTable c i).1 = .ram → (bankTable c i).2 + a.toNat < c.nram * 65536) ∧
    ((bankTable c i).1 = .rom → (bankTable c i).2 + a.toNat < max (2 * 65536) (c.romExtBase + 2 * n * 65536)) ∧
    (∀ k : Nat, ramBase c k = (k % c.nram) * 65536 ∧ ramBase c k + a.toNat < c.nram * 65536) ∧
    (∀ ram rom : Memory, ram.wf → ram.below c.ramSize → rom.wf → rom.below c.romSize →
      ((max (2 * 65536) (c.romExtBase + 2 * n * 65536) ≤ c.romSize ∧ c.nram * 65536 ≤ c.ramSize →
          resetWith c ram rom = .next (State.afterReset c ram rom)) ∧
        (c.romSize < max (2 * 65536) (c.romExtBase + 2 * n * 65536) ∨ c.ramSize < c.nram * 65536 →
          resetWith c ram rom = .refused .badConfiguration)))

/-- 10_state.md R14: an instruction that changes R14 leaves in the ROM buffer the byte at the new R14 of the current ROM bank. -/
def Obligations.ChangingR14RearmsTheRomBuffer : Prop :=
  ∀ (i : Instr) (s t : State), exec i s = .next t → t.reg 14 ≠ s.reg 14 → t.rombuf = t.romRead (t.reg 14)

/-- 20_memory.md R70: a write at RAM byte `p` clears exactly the validity bit of the sub-block it lies in, when the cache is
active, the program bank is a RAM bank and `p` lies in the window of that bank. A sub-block is SUBBLOCK bytes, 32 in the spec's
configuration (log 11). -/
def Obligations.WritesInTheWindowClearTheirValidityBit : Prop :=
  ∀ (s : State) (p b : Nat),
    (s.trackCacheWrite p).cvalid.getLsbD b = true ↔
      s.cvalid.getLsbD b = true ∧
      ¬(s.cacheActive = true ∧ 0x70 ≤ s.pbr.toNat ∧ s.pbr.toNat ≤ 0x73 ∧
        (let w := ((s.pbr.toNat - 0x70) % s.config.nram) * 65536
         w ≤ p ∧ p < w + 65536 ∧
         (let d := ((p : Int) - w - s.cbr.toNat) % 65536
          d < 512 ∧ d / s.config.subBlock = b)))

/-! ## Plot engine (43_plot.md) -/

/-- R240, R241, R243: COLOR and GETC load COLR through the colour transformation. -/
def Obligations.ColorInstructionsTransformTheirInput : Prop :=
  ∀ s : State,
    let transformed := fun c : Nat =>
      let c1 := if s.por.getLsbD 2 then 16 * (c / 16) + c / 16 else c
      BitVec.ofNat 8 (if s.por.getLsbD 3 then 16 * (s.colr.toNat / 16) + c1 % 16 else c1)
    StandsAt [0, 2] 0x4E (fun _ _ => .color) ∧
    WritesNoReg .color s { s with colr := transformed (s.src.toNat % 256) } 0 0 anyPost ∧
    StandsAt [0, 1] 0xDF (fun _ _ => .getc) ∧
    WritesNoReg .getc s { s with colr := transformed s.rombuf.toNat } 0 0 anyPost

/-- R242: CMODE loads POR with S[4:0]; the height is then 256 with SPRITE and the real height without; depth is unchanged. Depth
and real height are those of SCMR's MD and {HT1, HT0} (10_state.md R27, R28). -/
def Obligations.CmodeSetsTheOptionsAndTheHeight : Prop :=
  StandsAt [1, 3] 0x4E (fun _ _ => .cmode) ∧
  ∀ s : State,
    s.depth = [2, 4, 4, 8].getD (s.scmr.toNat % 4) 0 ∧
    s.realHeight = [128, 160, 192, 256].getD (2 * (s.scmr.toNat / 32 % 2) + s.scmr.toNat / 4 % 2) 0 ∧
    WritesNoReg .cmode s { s with por := BitVec.ofNat 5 (s.src.toNat % 32) } 0 0 fun t =>
      t.height = (if s.src.getLsbD 4 then 256 else s.realHeight) ∧ t.depth = s.depth ∧ t.realHeight = s.realHeight

/-- The RAM byte of plane `p` of the pixel that PLOT and RPIX address: the screen base (20_memory.md R58), the two geometry tables
(43_plot.md R244), the row inside the cell and the plane's offset (R246). -/
def planeAddr (s : State) (p : Nat) : Nat :=
  let x := (s.reg 1).toNat % 256
  let y := (s.reg 2).toNat % 256
  let cs := 8 * s.depth
  let i := y / 8
  let j := x / 8
  let col := if s.height = 256 then ((i / 16) * 512 + (i % 16) * 16) * cs else i * cs
  let xoff := if s.height = 256 then ((j / 16) * 256 + j % 16) * cs else j * (s.height / 8) * cs
  (s.scbr.toNat * 1024 + (col + xoff + 2 * (y % 8) + (16 * (p / 2) + p % 2))) % (s.config.nram * 65536)

/-- R247's final colour. -/
def finalColor (s : State) : Nat :=
  if s.depth ∈ s.config.ditherDepths ∧ s.por.getLsbD 1 = true ∧ ((s.reg 1).toNat + (s.reg 2).toNat) % 2 = 1
  then s.colr.toNat / 16 else s.colr.toNat

/-- Whether PLOT writes: y in range, and FORCE or a colour that is not transparent (R247; TRANSPARENT_TEST is the mask). -/
def PlotWrites (s : State) : Prop :=
  (s.reg 2).toNat % 256 < s.height ∧
  (s.por.getLsbD 0 = true ∨ BitVec.ofNat 8 (finalColor s) &&& s.config.transparentMask ≠ 0)

/-- R247: PLOT. R1 is incremented whether or not the pixel is written; when it is, the pixel's bit of each plane is bit p of
the final colour and every other bit of RAM is as before; otherwise all of RAM is.
A plane's address wraps modulo the RAM size: R58 marks that as the spec's own choice, D28, and
lets a model refuse such a launch instead; this model takes the wrap (log 12, DEDUCED). DITHER_DEPTHS and TRANSPARENT_TEST are
parameters (log 11, DESIGN CHOICE). -/
def Obligations.PlotWritesThePixelAndIncrementsR1 : Prop :=
  StandsAt [0, 2] 0x4C (fun _ _ => .plot) ∧
  ∀ s : State, ∃ t, exec .plot s = .next t ∧
    SameRegsExcept [1, 15] s t ∧ SameSfrExcept modeMask s t ∧ SameSpecial { s with cvalid := t.cvalid } t ∧ SameRom s t ∧
    t.reg 1 = BitVec.ofNat 16 ((s.reg 1).toNat + 1) ∧ t.pc = s.pc + 1 ∧ t.rombuf = s.rombuf ∧ t.pipe = s.pipe ∧ Cleared t ∧
    (¬PlotWrites s → SameRam s t ∧ t.cvalid = s.cvalid) ∧
    (PlotWrites s →
      (∀ p, p < s.depth → ∀ b, (t.ram.read (planeAddr s p)).getLsbD b =
        if b = 7 - (s.reg 1).toNat % 8 then (finalColor s).testBit p else (s.ram.read (planeAddr s p)).getLsbD b) ∧
      (∀ a, (∀ p, p < s.depth → a ≠ planeAddr s p) → t.ram.read a = s.ram.read a) ∧
      (∀ b, t.cvalid.getLsbD b = true ↔
        s.cvalid.getLsbD b = true ∧ ∀ p, p < s.depth → s.trackedBlock (planeAddr s p) ≠ some b))

/-- R248: RPIX. In range D gets the pixel, bit p from plane p, upper bits 0, with Z and SG from it under RPIX_SETS_FLAGS; out
of range no register but R15 and no condition flag changes. Memory is never written.
A plane's address wraps modulo the RAM size: R58 marks that as the spec's own choice, D28, and
lets a model refuse such a launch instead; this model takes the wrap (log 12, DEDUCED). -/
def Obligations.ReadPixelAssemblesThePlanes : Prop :=
  StandsAt [1, 3] 0x4C (fun _ _ => .rpix) ∧
  ∀ s : State,
    (s.height ≤ (s.reg 2).toNat % 256 → WritesNoReg .rpix s s 0 0 anyPost) ∧
    ((s.reg 2).toNat % 256 < s.height → ∃ v : Word,
      (∀ p, v.getLsbD p = (decide (p < s.depth) && (s.ram.read (planeAddr s p)).getLsbD (7 - (s.reg 1).toNat % 8))) ∧
      WritesReg .rpix s s 0 s.dreg v (if s.config.rpixSetsFlags then szMask else 0)
        (fun t => s.config.rpixSetsFlags = true → HasSZ v t))

/-- R250 (a): PLOT, then R1 set back to x, then RPIX, gives the colour masked to the depth, when y is in range, no dither
applies, and the colour is not transparent or FORCE is set.
A plane's address wraps modulo the RAM size: R58 marks that as the spec's own choice, D28, and
lets a model refuse such a launch instead; this model takes the wrap (log 12, DEDUCED). -/
def Obligations.PlotThenReadPixelGivesTheColour : Prop :=
  ∀ s t : State, (s.reg 2).toNat % 256 < s.height → (s.por.getLsbD 1 = false ∨ s.depth ∉ s.config.ditherDepths) →
    (s.por.getLsbD 0 = true ∨ s.colr &&& s.config.transparentMask ≠ 0) →
    exec .plot s = .next t →
    ∃ u, exec .rpix (t.writeReg 1 (s.reg 1)) = .next u ∧ u.reg 0 = BitVec.ofNat 16 (s.colr.toNat % 2 ^ s.depth)

/-- R250 (d), R245, R246: every byte of a pixel in range lies inside the bitmap, and no two pixels share a bit. -/
def Obligations.PixelsStayInTheBitmapAndApart : Prop :=
  ∀ (depth height : Nat) (x y x' y' : Byte) (p p' : Nat), depth ∈ [2, 4, 8] → height ∈ [128, 160, 192, 256] →
    y.toNat < height → y'.toNat < height → p < depth → p' < depth →
    pixOff depth height x y + planeOff p < screenSize depth height ∧
    (pixOff depth height x y + planeOff p = pixOff depth height x' y' + planeOff p' → pixMask x = pixMask x' →
      x = x' ∧ y = y' ∧ p = p')

/-! ## The whole machine -/

/-- 10_state.md R45, 70_reset_and_hazards.md R302: what reset leaves, for every configuration and buffers; the image holds
SFR = 0x0020 and 0 elsewhere. -/
def Obligations.ResetLeavesTheStatedValues : Prop :=
  ∀ (c : Config) (ram rom : Memory), let s := State.afterReset c ram rom
    (∀ r, s.reg r = 0) ∧ s.sreg = 0 ∧ s.dreg = 0 ∧ s.sfr = 0x0020 ∧ s.flag bitGO = true ∧ s.pbr = 0 ∧ s.rombr = 0 ∧ s.rambr = 0 ∧
    s.cbr = 0 ∧ s.cacheActive = false ∧ s.cvalid = 0 ∧ s.colr = 0 ∧ s.por = 0 ∧ s.scbr = 0 ∧ s.scmr = 0 ∧ s.cfgr = 0 ∧
    s.depth = 2 ∧ s.realHeight = 128 ∧ s.height = 128 ∧ s.pipe = 0x01 ∧ s.rombuf = 0 ∧ s.lastRamAddr = 0 ∧ s.budget = 0 ∧
    s.err = 0 ∧ s.illegalAddr = 0 ∧ s.bpActive = false ∧ s.bpAddr = 0 ∧ s.stepAddr = 0 ∧ s.ram = ram ∧ s.rom = rom ∧
    ∀ off, s.image.read off = if off = 0x30 then 0x20 else 0

/-- The invariant holds at reset, in the configuration of log 2 with nothing placed in memory (log 1), and after every reset that is
not refused (log 14). -/
def Obligations.ResetMeetsTheInvariant : Prop :=
  State.reset.Inv ∧ ∀ (c : Config) (ram rom : Memory) (s : State), resetWith c ram rom = .next s → s.Inv

/-- Every step keeps the buffers canonical and inside their sizes (20_memory.md R53) and the cache base aligned (10_state.md
R24), from every state that meets the invariant, and stores nothing past the NRAM banks of RAM, however large the buffer is. -/
def Obligations.EveryStepKeepsTheInvariant : Prop :=
  ∀ s t : State, s.Inv → step s = .next t →
    t.Inv ∧ ∀ a, s.config.nram * 65536 ≤ a → t.ram.read a = s.ram.read a

/-- 10_state.md R15, R20, 60_exceptions.md R274: no instruction but STOP changes GO or IRQ, STOP only clears GO and only sets
IRQ, and no instruction changes an unnamed bit of SFR. -/
def Obligations.OnlyStopTouchesGoAndIrq : Prop :=
  ∀ (i : Instr) (s : State), ∃ t, exec i s = .next t ∧
    (i ≠ .stop → t.flag bitGO = s.flag bitGO ∧ t.flag bitIRQ = s.flag bitIRQ) ∧
    (i = .stop → t.flag bitGO = false ∧ t.flag bitIRQ = (s.flag bitIRQ || !s.cfgr.getLsbD 7)) ∧
    ∀ b ∈ [0, 6, 7, 10, 11, 13, 14], t.flag b = s.flag b

/-- 60_exceptions.md R284, R285, 20_memory.md R64, 10_state.md R27, R33: a step never changes what the host alone writes (SCBR,
SCMR, CFGR, the breakpoint state, the image), the ROM buffer, the error record, the budget or the configuration. -/
def Obligations.StepNeverWritesTheHostsState : Prop :=
  ∀ s : State, ∃ t, step s = .next t ∧ t.scbr = s.scbr ∧ t.scmr = s.scmr ∧ t.cfgr = s.cfgr ∧ t.bpActive = s.bpActive ∧
    t.bpAddr = s.bpAddr ∧ t.stepAddr = s.stepAddr ∧ t.image = s.image ∧ t.rom = s.rom ∧ t.err = s.err ∧
    t.illegalAddr = s.illegalAddr ∧ t.budget = s.budget ∧ t.config = s.config

/-! ## The host's calls (10_state.md, 60_exceptions.md) -/

/-- The image bytes that `StoreImage` writes (10_state.md R39). -/
def storedByStoreImage (off : Nat) : Bool :=
  off < 0x20 || off == 0x30 || off == 0x31 || off == 0x34 || off == 0x36 || off == 0x3C || off == 0x3E || off == 0x3F

/-- 10_state.md R38, R39, R40: storing and loading the image gives back R0 to R15, SFR, PBR, ROMBR, RAMBR and CBR, loads SCBR, SCMR
and CFGR from their bytes, clears `err`, and keeps everything that is not in the image; no other byte of the image is written. -/
def Obligations.ImageRoundTrip : Prop :=
  ∀ s : State, let t := s.storeImage.loadImage
    t.regs = s.regs ∧ t.sfr = s.sfr ∧ t.pbr = s.pbr ∧ t.rombr = s.rombr ∧ t.rambr = s.rambr ∧ t.cbr = s.cbr ∧ t.err = 0 ∧
    t.cfgr = s.image.read 0x37 ∧ t.scbr = s.image.read 0x38 ∧ t.scmr = s.image.read 0x3A ∧
    t.sreg = s.sreg ∧ t.dreg = s.dreg ∧ t.pipe = s.pipe ∧ t.rombuf = s.rombuf ∧ t.lastRamAddr = s.lastRamAddr ∧
    t.colr = s.colr ∧ t.por = s.por ∧ t.cacheActive = s.cacheActive ∧ t.cvalid = s.cvalid ∧ t.bpActive = s.bpActive ∧
    t.bpAddr = s.bpAddr ∧ t.stepAddr = s.stepAddr ∧ t.illegalAddr = s.illegalAddr ∧ t.budget = s.budget ∧
    t.ram = s.ram ∧ t.rom = s.rom ∧ t.config = s.config ∧
    ∀ off, storedByStoreImage off = false → s.storeImage.image.read off = s.image.read off

/-- 60_exceptions.md R275, R278, R283, R271: the start check, and what a failed one leaves: GO = 0, the error recorded, 0 returned,
no instruction run. -/
def Obligations.IllegalStartRunsNothing : Prop :=
  ∀ (n : Nat) (s : State), let u := s.loadImage
    (u.startAllowed = true ↔
      (u.cacheActive = true ∧ ((u.pc.toNat : Int) - u.cbr.toNat) % 65536 < 512) ∨
      (0x70 ≤ u.pbr.toNat ∧ u.pbr.toNat ≤ 0x73 ∧ u.scmr.getLsbD 3 = true) ∨
      (u.pbr.toNat ≤ 0x5F ∧ u.scmr.getLsbD 4 = true)) ∧
    (u.startAllowed = false → ∃ t, emulate n s = .next (0, t) ∧ stepOver n s = .next (0, t) ∧
      t.err = u.config.errIllegal ∧ t.illegalAddr.toNat = u.pbr.toNat * 65536 + u.pc.toNat ∧ t.flag bitGO = false ∧
      (∀ b, b ≠ bitGO → t.sfr.getLsbD b = u.sfr.getLsbD b) ∧ t.regs = u.regs ∧ t.ram = u.ram ∧ t.rom = u.rom ∧ t.pipe = u.pipe)

/-- 60_exceptions.md R276 with R277: a batch without a breakpoint. It begins in the loaded state with the ROM buffer re-armed, takes
at most `n` steps, each with GO set before it and the budget counted down, and stops when `n` are taken or GO is clear; the
value is the number of its steps that did not end with GO = 0, and the state the last one's with the image stored. -/
def Obligations.BatchReturnsTheCountOfItsSteps : Prop :=
  ∀ (n : Nat) (s : State), let u := s.loadImage
    u.startAllowed = true → s.bpActive = false →
    ∃ (k : Nat) (σ : Nat → State) (r : Int) (t : State), emulate n s = .next (r, t) ∧ k ≤ n ∧
      σ 0 = { u with budget := n, rombuf := u.romRead (u.reg 14) } ∧
      (∀ j, j < k → (σ j).flag bitGO = true ∧ step { σ j with budget := n - (j + 1) } = .next (σ (j + 1))) ∧
      (k = n ∨ (σ k).flag bitGO = false) ∧
      r = ((List.range k).countP fun j => (σ (j + 1)).flag bitGO : Nat) ∧ t = (σ k).storeImage ∧ t.err = 0 ∧
      0 ≤ r ∧ r ≤ n ∧ (r < n → t.flag bitGO = false)

/-- A debug loop (60_exceptions.md R282, R283) from `a`, of at most `n` steps, gives the value `r` and the state `t`: `bp` says that
R15 is at an active breakpoint, `target` that it is at a step target. Every step before the last left R15 at neither. If the
last left it at the breakpoint, the value is the breakpoint's code and the state has it as `err`, GO unchanged; if not, the
loop ended because `n` steps were taken, GO is clear or the target is reached, and the value is the number of steps. -/
def HaltsWhere (a : State) (n : Nat) (bp target : State → Prop) (r : Int) (t : State) : Prop :=
  ∃ (k : Nat) (σ : Nat → State), k ≤ n ∧ σ 0 = a ∧
    (∀ j, j < k → (σ j).flag bitGO = true ∧ step (σ j) = .next (σ (j + 1))) ∧
    (∀ j, 0 < j → j < k → ¬bp (σ j) ∧ ¬target (σ j)) ∧
    ((0 < k ∧ bp (σ k) ∧ r = a.config.errBreakpoint ∧ t = { σ k with err := a.config.errBreakpoint }.storeImage) ∨
     ((0 < k → ¬bp (σ k)) ∧ (k = n ∨ (σ k).flag bitGO = false ∨ (0 < k ∧ target (σ k))) ∧
      r = k ∧ t = (σ k).storeImage ∧ t.err = 0))

/-- 60_exceptions.md R282, R283: an allowed `emulate` with a breakpoint set halts after the first step that leaves R15 at `bpAddr`,
and then answers the breakpoint's code; an allowed `stepOver`, with or without one, halts after the first step that leaves
R15 there or at the step target, R15 plus the length of the instruction in the pipe, the breakpoint being compared first. The
ROM buffer is re-armed before the first step. The code is not 0 (R272 gives -1). -/
def Obligations.BreakpointHaltsAtItsAddress : Prop :=
  ∀ (n : Nat) (s : State), let u := s.loadImage
    let len := if 0xF0 ≤ u.pipe.toNat then 3
      else if (0x05 ≤ u.pipe.toNat ∧ u.pipe.toNat ≤ 0x0F) ∨ (0xA0 ≤ u.pipe.toNat ∧ u.pipe.toNat ≤ 0xAF) then 2 else 1
    let tgt := BitVec.ofNat 16 (u.pc.toNat + len)
    u.startAllowed = true → s.config.errBreakpoint ≠ 0 →
    (s.bpActive = true → ∃ (r : Int) (t : State), emulate n s = .next (r, t) ∧
      HaltsWhere { u with rombuf := u.romRead (u.reg 14) } n (fun x => x.pc = s.bpAddr) (fun _ => False) r t) ∧
    ∃ (r : Int) (t : State), stepOver n s = .next (r, t) ∧
      HaltsWhere { u with stepAddr := tgt, rombuf := u.romRead (u.reg 14) } n
        (fun x => s.bpActive = true ∧ x.pc = s.bpAddr) (fun x => x.pc = tgt) r t
end

