-- ==== Sys2Proof/Laws/Bits.lean ====
section
/-! SUPPORT. Lemmas about the bits, the bytes and the value of a word. -/

namespace Sys2Proof.Machine

/-- Reading a bit of a word one bit of which was replaced. -/
@[simp] theorem getLsbD_putBit (w : Word) (i : Nat) (v : Bool) (j : Nat) :
    (putBit w i v).getLsbD j = if i = j ∧ j < 16 then v else w.getLsbD j := by
  unfold putBit
  by_cases hj : j < 16
  · by_cases hij : i = j
    · subst hij
      cases v <;> simp [hj]
    · by_cases hlt : j < i <;> cases v <;> simp [hj, hij, hlt] <;> omega
  · cases v <;> simp [hj, BitVec.getLsbD_of_ge w j (by omega)]

/-- The same for a bit read with its bound. -/
@[simp] theorem getElem_putBit (w : Word) (i : Nat) (v : Bool) (j : Nat) (hj : j < 16) :
    (putBit w i v)[j] = if i = j then v else w[j] := by
  have h := getLsbD_putBit w i v j
  simpa [hj, BitVec.getLsbD_eq_getElem hj] using h

/-! ## Bytes of a word -/

theorem toNat_lowByte (w : Word) : (lowByte w).toNat = w.toNat % 256 := by simp [lowByte]

theorem toNat_highByte (w : Word) : (highByte w).toNat = w.toNat / 256 := by
  have := w.isLt
  simp only [highByte, BitVec.extractLsb'_toNat, Nat.shiftRight_eq_div_pow]
  omega

theorem toNat_wordOfBytes (lo hi : Byte) : (wordOfBytes lo hi).toNat = lo.toNat + 256 * hi.toNat := by
  have hlo := lo.isLt
  rw [wordOfBytes, BitVec.toNat_append, Nat.shiftLeft_eq, Nat.mul_comm hi.toNat, ← Nat.two_pow_add_eq_or_of_lt hlo]
  omega

theorem wordOfBytes_eq_ofNat (lo hi : Byte) : wordOfBytes lo hi = BitVec.ofNat 16 (lo.toNat + 256 * hi.toNat) := by
  rw [← toNat_wordOfBytes, BitVec.ofNat_toNat, BitVec.setWidth_eq]

/-- A word is its two bytes. -/
@[simp] theorem wordOfBytes_bytes (w : Word) : wordOfBytes (lowByte w) (highByte w) = w := by
  apply BitVec.eq_of_toNat_eq
  rw [toNat_wordOfBytes, toNat_lowByte, toNat_highByte]
  omega

@[simp] theorem lowByte_wordOfBytes (lo hi : Byte) : lowByte (wordOfBytes lo hi) = lo := by
  apply BitVec.eq_of_toNat_eq
  have := lo.isLt
  rw [toNat_lowByte, toNat_wordOfBytes]
  omega

@[simp] theorem highByte_wordOfBytes (lo hi : Byte) : highByte (wordOfBytes lo hi) = hi := by
  apply BitVec.eq_of_toNat_eq
  have := lo.isLt
  rw [toNat_highByte, toNat_wordOfBytes]
  omega

theorem zext8_eq_ofNat (v : Byte) : zext8 v = BitVec.ofNat 16 v.toNat := by
  apply BitVec.eq_of_toNat_eq
  simp [zext8]

theorem zext4_eq_ofNat (n : Imm4) : zext4 n = BitVec.ofNat 16 n.toNat := by
  apply BitVec.eq_of_toNat_eq
  simp [zext4]

theorem sext8_eq_ofInt (v : Byte) : sext8 v = BitVec.ofInt 16 v.toInt := by
  apply BitVec.eq_of_toInt_eq
  have h1 := BitVec.toInt_lt (x := v)
  have h2 := BitVec.le_toInt (x := v)
  rw [sext8, BitVec.toInt_signExtend_of_le (by decide), BitVec.toInt_ofInt, Int.bmod_eq_of_le] <;> omega

end Sys2Proof.Machine
end

