-- ==== Sys2Proof/Laws/Decode.lean ====
section
/-! SUPPORT. What an opcode map selects: the small lemmas of `OpTable.select`, and the spec's map as a match on the two nibbles and
the page, for proofs that go by cases of the opcode byte. -/

namespace Sys2Proof

open Sys2Proof.Machine

@[simp] theorem OpTable.select_entry (m : Mode) (op : Byte) (o : Opcode) : (OpTable.entry o).select m op = o := rfl

theorem OpTable.select_split (m : Mode) (op : Byte) (k : KeyBit) (c s : OpTable) :
    (OpTable.split k c s).select m op = if m.keyBit op k then s.select m op else c.select m op := rfl

theorem OpTable.select_pages (m : Mode) (op : Byte) (p0 p1 p2 p3 : OpTable) :
    (OpTable.pages p0 p1 p2 p3).select m op =
      m.pick (p0.select m op) (p1.select m op) (p2.select m op) (p3.select m op) := by
  obtain ⟨b, _ | _, _ | _⟩ := m <;> rfl

theorem OpTable.select_byAlt1 (m : Mode) (op : Byte) (x y : Opcode) :
    (OpTable.byAlt1 x y).select m op = if m.alt1 then y else x := rfl

theorem OpTable.select_byB (m : Mode) (op : Byte) (x y : Opcode) :
    (OpTable.byB x y).select m op = if m.b then y else x := rfl

/-- A property of every key holds when it holds of the eight modes and the sixteen values of each nibble. -/
theorem forall_key {P : Mode → Byte → Prop}
    (h : ∀ b a2 a1 : Bool, ∀ hi lo : Fin 16, P ⟨b, a2, a1⟩ (BitVec.ofNat 8 (16 * hi.val + lo.val))) (m : Mode) (op : Byte) : P m op := by
  have hop := op.isLt
  have e : op = BitVec.ofNat 8 (16 * (op.toNat / 16) + op.toNat % 16) := by
    rw [Nat.div_add_mod]; simp
  rw [e]
  exact h m.b m.alt2 m.alt1 ⟨op.toNat / 16, by omega⟩ ⟨op.toNat % 16, by omega⟩

/-- The spec's map (30_encoding.md R87) as a match on the nibbles of the opcode byte. -/
def keyOpcode (m : Mode) (hi lo : Nat) : Opcode :=
  match hi with
  | 0x0 =>
    match lo with
    | 0x0 => .stop | 0x1 => .nop | 0x2 => .cache | 0x3 => .lsr | 0x4 => .rol | 0x5 => .bra | 0x6 => .bge | 0x7 => .blt
    | 0x8 => .bne | 0x9 => .beq | 0xA => .bpl | 0xB => .bmi | 0xC => .bcc | 0xD => .bcs | 0xE => .bvc | _ => .bvs
  | 0x1 => if m.b then .move else .toR
  | 0x2 => .withR
  | 0x3 =>
    match lo with
    | 0xC => .loop | 0xD => .alt1 | 0xE => .alt2 | 0xF => .alt3
    | _ => m.pick .stw .stb .stw .stb
  | 0x4 =>
    match lo with
    | 0xC => m.pick .plot .rpix .plot .rpix
    | 0xD => .swap
    | 0xE => m.pick .color .cmode .color .cmode
    | 0xF => .not
    | _ => m.pick .ldw .ldb .ldw .ldb
  | 0x5 => m.pick .add .adc .addI .adcI
  | 0x6 => m.pick .sub .sbc .subI .cmp
  | 0x7 =>
    match lo with
    | 0x0 => .merge
    | _ => m.pick .and .bic .andI .bicI
  | 0x8 => m.pick .mult .umult .multI .umultI
  | 0x9 =>
    match lo with
    | 0x0 => .sbk
    | 0x1 | 0x2 | 0x3 | 0x4 => .link
    | 0x5 => .sex
    | 0x6 => m.pick .asr .div2 .asr .div2
    | 0x7 => .ror
    | 0xE => .lob
    | 0xF => m.pick .fmult .lmult .fmult .lmult
    | _ => m.pick .jmp .ljmp .jmp .ljmp
  | 0xA => m.pick .ibt .lms .sms .lms
  | 0xB => if m.b then .moves else .fromR
  | 0xC =>
    match lo with
    | 0x0 => .hib
    | _ => m.pick .or .xor .orI .xorI
  | 0xD =>
    match lo with
    | 0xF => m.pick .getc .getc .ramb .romb
    | _ => .inc
  | 0xE =>
    match lo with
    | 0xF => m.pick .getb .getbh .getbl .getbs
    | _ => .dec
  | _ => m.pick .iwt .lm .sm .lm

/-- The spec's map, as a tree over the key bits and as a match on the nibbles, is one map. -/
theorem select_specOpTable (m : Mode) (op : Byte) :
    specOpTable.select m op = keyOpcode m (op.toNat / 16) (op.toNat % 16) := by
  refine forall_key (P := fun m op => specOpTable.select m op = keyOpcode m (op.toNat / 16) (op.toNat % 16)) ?_ m op
  decide

/-- In the spec's map the immediate bytes are those of the length rule (30_encoding.md R84). -/
theorem immCount_specOpTable (m : Mode) (op : Byte) : (specOpTable.select m op).immCount = opLength op - 1 := by
  refine forall_key (P := fun m op => (specOpTable.select m op).immCount = opLength op - 1) ?_ m op
  decide

/-! ## The immediate bytes -/

/-- An instruction's immediate bytes are those it was made with, as many as its opcode takes. -/
theorem immBytes_instr (o : Opcode) (op b1 b2 : Byte) : immBytes (o.instr op b1 b2) = [b1, b2].take o.immCount := by
  cases o <;> first | rfl | simp [immBytes, encode, onPage, Opcode.instr, Opcode.immCount]

/-- A byte past the immediates of its format does not take part in an instruction. -/
theorem instr_of_immCount_eq_zero {o : Opcode} (h : o.immCount = 0) (op b1 b2 : Byte) : o.instr op b1 b2 = o.instr op 0 0 := by
  cases o <;> first | rfl | simp [Opcode.immCount] at h

theorem instr_of_immCount_eq_one {o : Opcode} (h : o.immCount = 1) (op b1 b2 : Byte) : o.instr op b1 b2 = o.instr op b1 0 := by
  cases o <;> first | rfl | simp [Opcode.immCount] at h

/-- What decoding answers on three bytes is what the opcode byte selects with the two after it. -/
theorem eq_decodeOp_of_decode {t : OpTable} {m : Mode} {op b1 b2 : Byte} {i : Instr} {rest : List Byte}
    (h : decode t m [op, b1, b2] = .ok (i, rest)) : i = decodeOp t m op b1 b2 := by
  simp only [decode, decodeOp] at h ⊢
  split at h
  · rename_i hk
    simp only [Except.ok.injEq, Prod.mk.injEq] at h
    rw [← h.1, instr_of_immCount_eq_zero hk op b1 b2]
  · rename_i hk hl
    simp only [Except.ok.injEq, Prod.mk.injEq, List.cons.injEq] at h hl
    rw [← h.1, ← hl.1, instr_of_immCount_eq_one hk op b1 b2]
  · rename_i hl _ _
    simp only [Except.ok.injEq, Prod.mk.injEq, List.cons.injEq] at h hl
    rw [← h.1, ← hl.1, ← hl.2.1]
  · simp at h

end Sys2Proof
end

