-- ==== Sys2Proof/Laws/Driver.lean ====
section
/-! SUPPORT. What the two loops around `step` do when they answer: the states they go through, as a sequence `σ` of which `σ 0` is the
first and `σ k` the last, for the claims about `emulate` and `stepOver`. -/

namespace Sys2Proof.Machine

/-- `andThen` answers exactly when both of its parts do. -/
theorem andThen_eq_next {α β : Type} {o : Host.Outcome α Fault Refusal} {f : α → Host.Outcome β Fault Refusal} {b : β} :
    andThen o f = .next b ↔ ∃ a, o = .next a ∧ f a = .next b := by
  cases o <;> simp [andThen]

/-! ## What the image, the re-arm and the error record leave alone -/

/-! ### loadImage -/

@[simp] theorem State.loadImage_sreg (s : State) : (s.loadImage).sreg = s.sreg := rfl
@[simp] theorem State.loadImage_dreg (s : State) : (s.loadImage).dreg = s.dreg := rfl
@[simp] theorem State.loadImage_cacheActive (s : State) : (s.loadImage).cacheActive = s.cacheActive := rfl
@[simp] theorem State.loadImage_cvalid (s : State) : (s.loadImage).cvalid = s.cvalid := rfl
@[simp] theorem State.loadImage_colr (s : State) : (s.loadImage).colr = s.colr := rfl
@[simp] theorem State.loadImage_por (s : State) : (s.loadImage).por = s.por := rfl
@[simp] theorem State.loadImage_pipe (s : State) : (s.loadImage).pipe = s.pipe := rfl
@[simp] theorem State.loadImage_rombuf (s : State) : (s.loadImage).rombuf = s.rombuf := rfl
@[simp] theorem State.loadImage_lastRamAddr (s : State) : (s.loadImage).lastRamAddr = s.lastRamAddr := rfl
@[simp] theorem State.loadImage_budget (s : State) : (s.loadImage).budget = s.budget := rfl
@[simp] theorem State.loadImage_illegalAddr (s : State) : (s.loadImage).illegalAddr = s.illegalAddr := rfl
@[simp] theorem State.loadImage_bpActive (s : State) : (s.loadImage).bpActive = s.bpActive := rfl
@[simp] theorem State.loadImage_bpAddr (s : State) : (s.loadImage).bpAddr = s.bpAddr := rfl
@[simp] theorem State.loadImage_stepAddr (s : State) : (s.loadImage).stepAddr = s.stepAddr := rfl
@[simp] theorem State.loadImage_image (s : State) : (s.loadImage).image = s.image := rfl
@[simp] theorem State.loadImage_ram (s : State) : (s.loadImage).ram = s.ram := rfl
@[simp] theorem State.loadImage_rom (s : State) : (s.loadImage).rom = s.rom := rfl
@[simp] theorem State.loadImage_config (s : State) : (s.loadImage).config = s.config := rfl
@[simp] theorem State.loadImage_err (s : State) : s.loadImage.err = 0 := rfl

/-! ### storeImage -/

@[simp] theorem State.storeImage_regs (s : State) : (s.storeImage).regs = s.regs := rfl
@[simp] theorem State.storeImage_sreg (s : State) : (s.storeImage).sreg = s.sreg := rfl
@[simp] theorem State.storeImage_dreg (s : State) : (s.storeImage).dreg = s.dreg := rfl
@[simp] theorem State.storeImage_sfr (s : State) : (s.storeImage).sfr = s.sfr := rfl
@[simp] theorem State.storeImage_pbr (s : State) : (s.storeImage).pbr = s.pbr := rfl
@[simp] theorem State.storeImage_rombr (s : State) : (s.storeImage).rombr = s.rombr := rfl
@[simp] theorem State.storeImage_rambr (s : State) : (s.storeImage).rambr = s.rambr := rfl
@[simp] theorem State.storeImage_cbr (s : State) : (s.storeImage).cbr = s.cbr := rfl
@[simp] theorem State.storeImage_cacheActive (s : State) : (s.storeImage).cacheActive = s.cacheActive := rfl
@[simp] theorem State.storeImage_cvalid (s : State) : (s.storeImage).cvalid = s.cvalid := rfl
@[simp] theorem State.storeImage_colr (s : State) : (s.storeImage).colr = s.colr := rfl
@[simp] theorem State.storeImage_por (s : State) : (s.storeImage).por = s.por := rfl
@[simp] theorem State.storeImage_scbr (s : State) : (s.storeImage).scbr = s.scbr := rfl
@[simp] theorem State.storeImage_scmr (s : State) : (s.storeImage).scmr = s.scmr := rfl
@[simp] theorem State.storeImage_cfgr (s : State) : (s.storeImage).cfgr = s.cfgr := rfl
@[simp] theorem State.storeImage_pipe (s : State) : (s.storeImage).pipe = s.pipe := rfl
@[simp] theorem State.storeImage_rombuf (s : State) : (s.storeImage).rombuf = s.rombuf := rfl
@[simp] theorem State.storeImage_lastRamAddr (s : State) : (s.storeImage).lastRamAddr = s.lastRamAddr := rfl
@[simp] theorem State.storeImage_budget (s : State) : (s.storeImage).budget = s.budget := rfl
@[simp] theorem State.storeImage_err (s : State) : (s.storeImage).err = s.err := rfl
@[simp] theorem State.storeImage_illegalAddr (s : State) : (s.storeImage).illegalAddr = s.illegalAddr := rfl
@[simp] theorem State.storeImage_bpActive (s : State) : (s.storeImage).bpActive = s.bpActive := rfl
@[simp] theorem State.storeImage_bpAddr (s : State) : (s.storeImage).bpAddr = s.bpAddr := rfl
@[simp] theorem State.storeImage_stepAddr (s : State) : (s.storeImage).stepAddr = s.stepAddr := rfl
@[simp] theorem State.storeImage_ram (s : State) : (s.storeImage).ram = s.ram := rfl
@[simp] theorem State.storeImage_rom (s : State) : (s.storeImage).rom = s.rom := rfl
@[simp] theorem State.storeImage_config (s : State) : (s.storeImage).config = s.config := rfl
@[simp] theorem State.storeImage_flag (s : State) (i : Nat) : s.storeImage.flag i = s.flag i := rfl
@[simp] theorem State.storeImage_reg (s : State) (r : Reg) : s.storeImage.reg r = s.reg r := rfl

/-! ### rearm -/

@[simp] theorem State.rearm_regs (s : State) : (s.rearm).regs = s.regs := rfl
@[simp] theorem State.rearm_sreg (s : State) : (s.rearm).sreg = s.sreg := rfl
@[simp] theorem State.rearm_dreg (s : State) : (s.rearm).dreg = s.dreg := rfl
@[simp] theorem State.rearm_sfr (s : State) : (s.rearm).sfr = s.sfr := rfl
@[simp] theorem State.rearm_pbr (s : State) : (s.rearm).pbr = s.pbr := rfl
@[simp] theorem State.rearm_rombr (s : State) : (s.rearm).rombr = s.rombr := rfl
@[simp] theorem State.rearm_rambr (s : State) : (s.rearm).rambr = s.rambr := rfl
@[simp] theorem State.rearm_cbr (s : State) : (s.rearm).cbr = s.cbr := rfl
@[simp] theorem State.rearm_cacheActive (s : State) : (s.rearm).cacheActive = s.cacheActive := rfl
@[simp] theorem State.rearm_cvalid (s : State) : (s.rearm).cvalid = s.cvalid := rfl
@[simp] theorem State.rearm_colr (s : State) : (s.rearm).colr = s.colr := rfl
@[simp] theorem State.rearm_por (s : State) : (s.rearm).por = s.por := rfl
@[simp] theorem State.rearm_scbr (s : State) : (s.rearm).scbr = s.scbr := rfl
@[simp] theorem State.rearm_scmr (s : State) : (s.rearm).scmr = s.scmr := rfl
@[simp] theorem State.rearm_cfgr (s : State) : (s.rearm).cfgr = s.cfgr := rfl
@[simp] theorem State.rearm_pipe (s : State) : (s.rearm).pipe = s.pipe := rfl
@[simp] theorem State.rearm_lastRamAddr (s : State) : (s.rearm).lastRamAddr = s.lastRamAddr := rfl
@[simp] theorem State.rearm_budget (s : State) : (s.rearm).budget = s.budget := rfl
@[simp] theorem State.rearm_err (s : State) : (s.rearm).err = s.err := rfl
@[simp] theorem State.rearm_illegalAddr (s : State) : (s.rearm).illegalAddr = s.illegalAddr := rfl
@[simp] theorem State.rearm_bpActive (s : State) : (s.rearm).bpActive = s.bpActive := rfl
@[simp] theorem State.rearm_bpAddr (s : State) : (s.rearm).bpAddr = s.bpAddr := rfl
@[simp] theorem State.rearm_stepAddr (s : State) : (s.rearm).stepAddr = s.stepAddr := rfl
@[simp] theorem State.rearm_image (s : State) : (s.rearm).image = s.image := rfl
@[simp] theorem State.rearm_ram (s : State) : (s.rearm).ram = s.ram := rfl
@[simp] theorem State.rearm_rom (s : State) : (s.rearm).rom = s.rom := rfl
@[simp] theorem State.rearm_config (s : State) : (s.rearm).config = s.config := rfl
@[simp] theorem State.rearm_rombuf (s : State) : s.rearm.rombuf = s.romRead (s.reg 14) := rfl
@[simp] theorem State.rearm_flag (s : State) (i : Nat) : s.rearm.flag i = s.flag i := rfl

/-! ### raise of a breakpoint -/

@[simp] theorem State.raise_breakpointHit_regs (s : State) : (s.raise .breakpointHit).regs = s.regs := rfl
@[simp] theorem State.raise_breakpointHit_sreg (s : State) : (s.raise .breakpointHit).sreg = s.sreg := rfl
@[simp] theorem State.raise_breakpointHit_dreg (s : State) : (s.raise .breakpointHit).dreg = s.dreg := rfl
@[simp] theorem State.raise_breakpointHit_sfr (s : State) : (s.raise .breakpointHit).sfr = s.sfr := rfl
@[simp] theorem State.raise_breakpointHit_pbr (s : State) : (s.raise .breakpointHit).pbr = s.pbr := rfl
@[simp] theorem State.raise_breakpointHit_rombr (s : State) : (s.raise .breakpointHit).rombr = s.rombr := rfl
@[simp] theorem State.raise_breakpointHit_rambr (s : State) : (s.raise .breakpointHit).rambr = s.rambr := rfl
@[simp] theorem State.raise_breakpointHit_cbr (s : State) : (s.raise .breakpointHit).cbr = s.cbr := rfl
@[simp] theorem State.raise_breakpointHit_cacheActive (s : State) : (s.raise .breakpointHit).cacheActive = s.cacheActive := rfl
@[simp] theorem State.raise_breakpointHit_cvalid (s : State) : (s.raise .breakpointHit).cvalid = s.cvalid := rfl
@[simp] theorem State.raise_breakpointHit_colr (s : State) : (s.raise .breakpointHit).colr = s.colr := rfl
@[simp] theorem State.raise_breakpointHit_por (s : State) : (s.raise .breakpointHit).por = s.por := rfl
@[simp] theorem State.raise_breakpointHit_scbr (s : State) : (s.raise .breakpointHit).scbr = s.scbr := rfl
@[simp] theorem State.raise_breakpointHit_scmr (s : State) : (s.raise .breakpointHit).scmr = s.scmr := rfl
@[simp] theorem State.raise_breakpointHit_cfgr (s : State) : (s.raise .breakpointHit).cfgr = s.cfgr := rfl
@[simp] theorem State.raise_breakpointHit_pipe (s : State) : (s.raise .breakpointHit).pipe = s.pipe := rfl
@[simp] theorem State.raise_breakpointHit_rombuf (s : State) : (s.raise .breakpointHit).rombuf = s.rombuf := rfl
@[simp] theorem State.raise_breakpointHit_lastRamAddr (s : State) : (s.raise .breakpointHit).lastRamAddr = s.lastRamAddr := rfl
@[simp] theorem State.raise_breakpointHit_budget (s : State) : (s.raise .breakpointHit).budget = s.budget := rfl
@[simp] theorem State.raise_breakpointHit_illegalAddr (s : State) : (s.raise .breakpointHit).illegalAddr = s.illegalAddr := rfl
@[simp] theorem State.raise_breakpointHit_bpActive (s : State) : (s.raise .breakpointHit).bpActive = s.bpActive := rfl
@[simp] theorem State.raise_breakpointHit_bpAddr (s : State) : (s.raise .breakpointHit).bpAddr = s.bpAddr := rfl
@[simp] theorem State.raise_breakpointHit_stepAddr (s : State) : (s.raise .breakpointHit).stepAddr = s.stepAddr := rfl
@[simp] theorem State.raise_breakpointHit_image (s : State) : (s.raise .breakpointHit).image = s.image := rfl
@[simp] theorem State.raise_breakpointHit_ram (s : State) : (s.raise .breakpointHit).ram = s.ram := rfl
@[simp] theorem State.raise_breakpointHit_rom (s : State) : (s.raise .breakpointHit).rom = s.rom := rfl
@[simp] theorem State.raise_breakpointHit_config (s : State) : (s.raise .breakpointHit).config = s.config := rfl
@[simp] theorem State.raise_breakpointHit_err (s : State) : (s.raise .breakpointHit).err = s.config.errBreakpoint := rfl

/-! ## The entry points, by the start check (60_exceptions.md R278, R283) -/

theorem emulate_refused {n : Nat} {s : State} (h : s.loadImage.startAllowed = false) :
    emulate n s = .next s.loadImage.refuseStart := by simp [emulate, h]

theorem emulate_run {n : Nat} {s : State} (h : s.loadImage.startAllowed = true) (hb : s.bpActive = false) :
    emulate n s = andThen (run n s.loadImage) fun r => .next (finishBatch r) := by simp [emulate, h, hb]

theorem emulate_runToBreakpoint {n : Nat} {s : State} (h : s.loadImage.startAllowed = true) (hb : s.bpActive = true) :
    emulate n s = andThen (runToBreakpoint n s.loadImage) fun r => .next (finishBatch r) := by simp [emulate, h, hb]

theorem stepOver_refused {n : Nat} {s : State} (h : s.loadImage.startAllowed = false) :
    stepOver n s = .next s.loadImage.refuseStart := by simp [stepOver, h]

theorem stepOver_run {n : Nat} {s : State} (h : s.loadImage.startAllowed = true) :
    stepOver n s =
      andThen (debugLoop stepOverStop n 0 { s.loadImage with stepAddr := s.loadImage.stepTarget }.rearm)
        fun r => .next (finishBatch r) := by simp [stepOver, h]

/-! ## The loops -/

/-- A sequence with one more state in front. -/
def consSeq (s : State) (σ : Nat → State) : Nat → State
  | 0 => s
  | j + 1 => σ j

@[simp] theorem consSeq_zero (s : State) (σ : Nat → State) : consSeq s σ 0 = s := rfl
@[simp] theorem consSeq_succ (s : State) (σ : Nat → State) (j : Nat) : consSeq s σ (j + 1) = σ j := rfl

/-- The loop of `Run` (60_exceptions.md R276): at most `fuel` steps, each from a running state with the budget counted down, until
the fuel is spent or GO is clear; the count grows by the steps after which GO is still set. -/
theorem runLoop_trace {fuel count c : Nat} {s t : State} (h : runLoop fuel count s = .next (c, t)) :
    ∃ (k : Nat) (σ : Nat → State), k ≤ fuel ∧ σ 0 = s ∧ σ k = t ∧
      (∀ j, j < k → (σ j).running = true ∧ step { σ j with budget := fuel - (j + 1) } = .next (σ (j + 1))) ∧
      (k = fuel ∨ t.running = false) ∧ c = count + (List.range k).countP fun j => (σ (j + 1)).running := by
  induction fuel generalizing count s with
  | zero =>
    simp only [runLoop, Host.Outcome.next.injEq, Prod.mk.injEq] at h
    exact ⟨0, fun _ => s, le_rfl, rfl, h.2, by simp, .inl rfl, by simp [h.1]⟩
  | succ fuel ih =>
    simp only [runLoop] at h
    split at h
    · rename_i hr
      obtain ⟨u, hu, h⟩ := andThen_eq_next.mp h
      obtain ⟨k, σ, hk, h0, hlast, hs, hend, hc⟩ := ih h
      refine ⟨k + 1, consSeq s σ, by omega, rfl, hlast, ?_, ?_, ?_⟩
      · rintro (_ | j) hj
        · simpa [h0, hr] using hu
        · have := hs j (by omega)
          simpa [Nat.add_sub_add_right] using this
      · exact hend.imp_left fun e => by omega
      · rw [hc, List.range_succ_eq_map, List.countP_cons, List.countP_map]
        simp only [consSeq_succ, h0, Function.comp_def, Nat.succ_eq_add_one]
        split <;> omega
    · rename_i hr
      simp only [Host.Outcome.next.injEq, Prod.mk.injEq] at h
      refine ⟨0, fun _ => s, by omega, rfl, h.2, by simp, .inr ?_, by simp [h.1]⟩
      simpa [← h.2] using hr

/-- The loop of the debug drivers (60_exceptions.md R282, R283): at most `fuel` steps, each from a running state, every step before
the last leaving a state where the loop goes on; the last stops it with a breakpoint, whose code is recorded, or the loop ends
there without one, because the fuel is spent, GO is clear or the target is reached. -/
theorem debugLoop_trace {stop : State → DebugStop} {fuel count c : Nat} {s t : State}
    (h : debugLoop stop fuel count s = .next (c, t)) :
    ∃ (k : Nat) (σ : Nat → State), k ≤ fuel ∧ σ 0 = s ∧ c = count + k ∧
      (∀ j, j < k → (σ j).running = true ∧ step (σ j) = .next (σ (j + 1))) ∧
      (∀ j, 0 < j → j < k → stop (σ j) = .goOn) ∧
      ((0 < k ∧ stop (σ k) = .breakpoint ∧ t = (σ k).raise .breakpointHit) ∨
       ((0 < k → stop (σ k) ≠ .breakpoint) ∧
        (k = fuel ∨ (σ k).running = false ∨ (0 < k ∧ stop (σ k) = .reached)) ∧ t = σ k)) := by
  induction fuel generalizing count s with
  | zero =>
    simp only [debugLoop, Host.Outcome.next.injEq, Prod.mk.injEq] at h
    exact ⟨0, fun _ => s, le_rfl, rfl, by omega, by simp, by simp, .inr ⟨by simp, .inl rfl, h.2.symm⟩⟩
  | succ fuel ih =>
    simp only [debugLoop] at h
    split at h
    · rename_i hr
      obtain ⟨u, hu, h⟩ := andThen_eq_next.mp h
      split at h
      · rename_i hstop
        obtain ⟨k, σ, hk, h0, hc, hs, hgo, hend⟩ := ih h
        refine ⟨k + 1, consSeq s σ, by omega, rfl, by omega, ?_, ?_, ?_⟩
        · rintro (_ | j) hj
          · simpa [h0, hr] using hu
          · exact hs j (by omega)
        · rintro (_ | _ | j) h1 h2
          · omega
          · simpa [h0] using hstop
          · exact hgo (j + 1) (by omega) (by omega)
        · cases k with
          | zero =>
            obtain ⟨hk, -, -⟩ | ⟨-, he, ht⟩ := hend
            · omega
            · refine .inr ⟨by simp [h0, hstop], ?_, ht⟩
              rcases he with he | he | he
              · exact .inl (by omega)
              · exact .inr (.inl he)
              · omega
          | succ k =>
            refine hend.imp (fun x => ⟨by omega, x.2⟩) (fun x => ⟨fun _ => x.1 (by omega), ?_, x.2.2⟩)
            rcases x.2.1 with he | he | he
            · exact .inl (by omega)
            · exact .inr (.inl he)
            · exact .inr (.inr ⟨by omega, he.2⟩)
      · rename_i hstop
        simp only [Host.Outcome.next.injEq, Prod.mk.injEq] at h
        refine ⟨1, consSeq s fun _ => u, by omega, rfl, by omega, ?_, by omega, .inr ⟨?_, .inr (.inr ⟨by omega, hstop⟩), h.2.symm⟩⟩
        · rintro j hj
          obtain rfl : j = 0 := by omega
          exact ⟨hr, hu⟩
        · simp [hstop]
      · rename_i hstop
        simp only [Host.Outcome.next.injEq, Prod.mk.injEq] at h
        refine ⟨1, consSeq s fun _ => u, by omega, rfl, by omega, ?_, by omega, .inl ⟨by omega, hstop, h.2.symm⟩⟩
        rintro j hj
        obtain rfl : j = 0 := by omega
        exact ⟨hr, hu⟩
    · rename_i hr
      simp only [Host.Outcome.next.injEq, Prod.mk.injEq] at h
      exact ⟨0, fun _ => s, by omega, rfl, by omega, by simp, by simp,
        .inr ⟨by simp, .inr (.inl (by simpa using hr)), h.2.symm⟩⟩

end Sys2Proof.Machine
end

