-- ==== Sys2Proof/Laws/Memory.lean ====
section
/-! SUPPORT. The laws of a byte buffer: a write is read back, leaves every other address alone, and keeps the canonical form
and the bound on addresses. The read laws need no canonical form. -/

namespace Sys2Proof.Machine

theorem Memory.read_erase (m : Memory) (a b : Nat) :
    (m.erase a).read b = if b = a then unlisted else m.read b := by
  induction m with
  | nil => simp [Memory.erase, Memory.read]
  | cons c m ih =>
    unfold Memory.erase at ih ⊢
    by_cases hc : c.1 = a
    · by_cases hb : b = a
      · simpa [hc, hb, Memory.read] using ih
      · have : c.1 ≠ b := fun h => hb (h ▸ hc)
        simp only [hc, bne_self_eq_false, Bool.false_eq_true, not_false_eq_true, List.filter_cons_of_neg, ih, hb,
          if_false, Memory.read, if_neg (fun h => hb (h.symm) : ¬a = b)]
    · have hk : (c.1 != a) = true := by simpa using hc
      simp only [List.filter_cons, hk, if_true, Memory.read, ih]
      by_cases hcb : c.1 = b
      · have : b ≠ a := hcb ▸ hc
        simp [hcb, this]
      · simp [hcb]

theorem Memory.read_insert (m : Memory) (a : Nat) (v : Byte) (b : Nat) (h : ∀ c ∈ m, c.1 ≠ a) :
    (m.insert a v).read b = if b = a then v else m.read b := by
  induction m with
  | nil => simp [Memory.insert, Memory.read, eq_comm]
  | cons c m ih =>
    have hc : c.1 ≠ a := h c (by simp)
    unfold Memory.insert
    split
    · simp [Memory.read, eq_comm]
    · simp only [Memory.read, ih fun d hd => h d (List.mem_cons_of_mem _ hd)]
      by_cases hcb : c.1 = b
      · have : b ≠ a := hcb ▸ hc
        simp [hcb, this]
      · simp [hcb]

theorem Memory.erase_addr_ne (m : Memory) (a : Nat) : ∀ c ∈ m.erase a, c.1 ≠ a := by
  intro c hc
  simpa using (List.mem_filter.mp hc).2

/-- A write is read back and changes no other byte. -/
@[simp] theorem Memory.read_write (m : Memory) (a : Nat) (v : Byte) (b : Nat) :
    (m.write a v).read b = if b = a then v else m.read b := by
  unfold Memory.write
  split
  · rename_i hv
    rw [Memory.read_erase, hv]
  · rw [Memory.read_insert _ _ _ _ (m.erase_addr_ne a), Memory.read_erase]
    split <;> rfl

theorem Memory.mem_insert (m : Memory) (a : Nat) (v : Byte) (c : Host.Cell) :
    c ∈ m.insert a v ↔ c = (a, v) ∨ c ∈ m := by
  induction m with
  | nil => simp [Memory.insert]
  | cons d m ih =>
    unfold Memory.insert
    split
    · simp
    · simp only [List.mem_cons, ih]
      tauto

theorem Memory.pairwise_insert (m : Memory) (a : Nat) (v : Byte) (h : ∀ c ∈ m, c.1 ≠ a)
    (hm : m.Pairwise fun c d => c.1 < d.1) : (m.insert a v).Pairwise fun c d => c.1 < d.1 := by
  induction m with
  | nil => simp [Memory.insert]
  | cons c m ih =>
    have hc : c.1 ≠ a := h c (by simp)
    obtain ⟨hhead, htail⟩ := List.pairwise_cons.mp hm
    unfold Memory.insert
    split
    · rename_i hlt
      refine List.pairwise_cons.mpr ⟨fun d hd => ?_, hm⟩
      rcases List.mem_cons.mp hd with rfl | hd
      · exact hlt
      · exact Nat.lt_trans hlt (hhead d hd)
    · rename_i hlt
      refine List.pairwise_cons.mpr ⟨fun d hd => ?_, ih (fun d hd => h d (List.mem_cons_of_mem _ hd)) htail⟩
      rcases (Memory.mem_insert m a v d).mp hd with rfl | hd
      · exact Nat.lt_of_le_of_ne (Nat.le_of_not_lt hlt) hc
      · exact hhead d hd

theorem Memory.wf_erase {m : Memory} (h : m.wf) (a : Nat) : (m.erase a).wf :=
  ⟨List.Pairwise.filter _ h.1, fun c hc => h.2 c (List.mem_filter.mp hc).1⟩

/-- A write keeps the canonical form. -/
theorem Memory.wf_write {m : Memory} (h : m.wf) (a : Nat) (v : Byte) : (m.write a v).wf := by
  unfold Memory.write
  split
  · exact Memory.wf_erase h a
  · rename_i hv
    refine ⟨Memory.pairwise_insert _ a v (m.erase_addr_ne a) (Memory.wf_erase h a).1, fun c hc => ?_⟩
    rcases (Memory.mem_insert _ a v c).mp hc with rfl | hc
    · exact hv
    · exact (Memory.wf_erase h a).2 c hc

/-- A write inside the bound keeps the bound. -/
theorem Memory.below_write {m : Memory} {size : Nat} (h : m.below size) {a : Nat} (ha : a < size) (v : Byte) :
    (m.write a v).below size := by
  unfold Memory.write
  split
  · exact fun c hc => h c (List.mem_filter.mp hc).1
  · intro c hc
    rcases (Memory.mem_insert _ a v c).mp hc with rfl | hc
    · exact ha
    · exact h c (List.mem_filter.mp hc).1

end Sys2Proof.Machine
end

