-- ==== Sys2Proof/Laws/State.lean ====
section
/-! SUPPORT. One lemma for each field of State and each reader of it that an update leaves alone: no later proof unfolds a
record update. The fields an update does write have their lemmas in Laws/Ops.lean. -/

namespace Sys2Proof.Machine

variable (s : State)

/-! ## setFlag -/

@[simp] theorem State.setFlag_regs (i : Nat) (v : Bool) : (s.setFlag i v).regs = s.regs := rfl
@[simp] theorem State.setFlag_sreg (i : Nat) (v : Bool) : (s.setFlag i v).sreg = s.sreg := rfl
@[simp] theorem State.setFlag_dreg (i : Nat) (v : Bool) : (s.setFlag i v).dreg = s.dreg := rfl
@[simp] theorem State.setFlag_pbr (i : Nat) (v : Bool) : (s.setFlag i v).pbr = s.pbr := rfl
@[simp] theorem State.setFlag_rombr (i : Nat) (v : Bool) : (s.setFlag i v).rombr = s.rombr := rfl
@[simp] theorem State.setFlag_rambr (i : Nat) (v : Bool) : (s.setFlag i v).rambr = s.rambr := rfl
@[simp] theorem State.setFlag_cbr (i : Nat) (v : Bool) : (s.setFlag i v).cbr = s.cbr := rfl
@[simp] theorem State.setFlag_cacheActive (i : Nat) (v : Bool) : (s.setFlag i v).cacheActive = s.cacheActive := rfl
@[simp] theorem State.setFlag_cvalid (i : Nat) (v : Bool) : (s.setFlag i v).cvalid = s.cvalid := rfl
@[simp] theorem State.setFlag_colr (i : Nat) (v : Bool) : (s.setFlag i v).colr = s.colr := rfl
@[simp] theorem State.setFlag_por (i : Nat) (v : Bool) : (s.setFlag i v).por = s.por := rfl
@[simp] theorem State.setFlag_scbr (i : Nat) (v : Bool) : (s.setFlag i v).scbr = s.scbr := rfl
@[simp] theorem State.setFlag_scmr (i : Nat) (v : Bool) : (s.setFlag i v).scmr = s.scmr := rfl
@[simp] theorem State.setFlag_cfgr (i : Nat) (v : Bool) : (s.setFlag i v).cfgr = s.cfgr := rfl
@[simp] theorem State.setFlag_pipe (i : Nat) (v : Bool) : (s.setFlag i v).pipe = s.pipe := rfl
@[simp] theorem State.setFlag_rombuf (i : Nat) (v : Bool) : (s.setFlag i v).rombuf = s.rombuf := rfl
@[simp] theorem State.setFlag_lastRamAddr (i : Nat) (v : Bool) : (s.setFlag i v).lastRamAddr = s.lastRamAddr := rfl
@[simp] theorem State.setFlag_budget (i : Nat) (v : Bool) : (s.setFlag i v).budget = s.budget := rfl
@[simp] theorem State.setFlag_err (i : Nat) (v : Bool) : (s.setFlag i v).err = s.err := rfl
@[simp] theorem State.setFlag_illegalAddr (i : Nat) (v : Bool) : (s.setFlag i v).illegalAddr = s.illegalAddr := rfl
@[simp] theorem State.setFlag_bpActive (i : Nat) (v : Bool) : (s.setFlag i v).bpActive = s.bpActive := rfl
@[simp] theorem State.setFlag_bpAddr (i : Nat) (v : Bool) : (s.setFlag i v).bpAddr = s.bpAddr := rfl
@[simp] theorem State.setFlag_stepAddr (i : Nat) (v : Bool) : (s.setFlag i v).stepAddr = s.stepAddr := rfl
@[simp] theorem State.setFlag_image (i : Nat) (v : Bool) : (s.setFlag i v).image = s.image := rfl
@[simp] theorem State.setFlag_ram (i : Nat) (v : Bool) : (s.setFlag i v).ram = s.ram := rfl
@[simp] theorem State.setFlag_rom (i : Nat) (v : Bool) : (s.setFlag i v).rom = s.rom := rfl
@[simp] theorem State.setFlag_config (i : Nat) (v : Bool) : (s.setFlag i v).config = s.config := rfl
@[simp] theorem State.setFlag_reg (i : Nat) (v : Bool) (r : Reg) : (s.setFlag i v).reg r = s.reg r := rfl
@[simp] theorem State.setFlag_bankRead (i : Nat) (v : Bool) (k : Byte) (a : Word) : (s.setFlag i v).bankRead k a = s.bankRead k a := rfl
@[simp] theorem State.setFlag_romRead (i : Nat) (v : Bool) (a : Word) : (s.setFlag i v).romRead a = s.romRead a := rfl
@[simp] theorem State.setFlag_prgRead (i : Nat) (v : Bool) (a : Word) : (s.setFlag i v).prgRead a = s.prgRead a := rfl
@[simp] theorem State.setFlag_ramPhys (i : Nat) (v : Bool) (a : Word) : (s.setFlag i v).ramPhys a = s.ramPhys a := rfl
@[simp] theorem State.setFlag_ramRead (i : Nat) (v : Bool) (a : Word) : (s.setFlag i v).ramRead a = s.ramRead a := rfl
@[simp] theorem State.setFlag_trackedBlock (i : Nat) (v : Bool) (q : Nat) : (s.setFlag i v).trackedBlock q = s.trackedBlock q := rfl
@[simp] theorem State.setFlag_scrPhys (i : Nat) (v : Bool) (o : Nat) : (s.setFlag i v).scrPhys o = s.scrPhys o := rfl
@[simp] theorem State.setFlag_scrRead (i : Nat) (v : Bool) (o : Nat) : (s.setFlag i v).scrRead o = s.scrRead o := rfl

/-! ## advance -/

@[simp] theorem State.advance_sreg : (s.advance).sreg = s.sreg := rfl
@[simp] theorem State.advance_dreg : (s.advance).dreg = s.dreg := rfl
@[simp] theorem State.advance_sfr : (s.advance).sfr = s.sfr := rfl
@[simp] theorem State.advance_pbr : (s.advance).pbr = s.pbr := rfl
@[simp] theorem State.advance_rombr : (s.advance).rombr = s.rombr := rfl
@[simp] theorem State.advance_rambr : (s.advance).rambr = s.rambr := rfl
@[simp] theorem State.advance_cbr : (s.advance).cbr = s.cbr := rfl
@[simp] theorem State.advance_cacheActive : (s.advance).cacheActive = s.cacheActive := rfl
@[simp] theorem State.advance_cvalid : (s.advance).cvalid = s.cvalid := rfl
@[simp] theorem State.advance_colr : (s.advance).colr = s.colr := rfl
@[simp] theorem State.advance_por : (s.advance).por = s.por := rfl
@[simp] theorem State.advance_scbr : (s.advance).scbr = s.scbr := rfl
@[simp] theorem State.advance_scmr : (s.advance).scmr = s.scmr := rfl
@[simp] theorem State.advance_cfgr : (s.advance).cfgr = s.cfgr := rfl
@[simp] theorem State.advance_pipe : (s.advance).pipe = s.pipe := rfl
@[simp] theorem State.advance_rombuf : (s.advance).rombuf = s.rombuf := rfl
@[simp] theorem State.advance_lastRamAddr : (s.advance).lastRamAddr = s.lastRamAddr := rfl
@[simp] theorem State.advance_budget : (s.advance).budget = s.budget := rfl
@[simp] theorem State.advance_err : (s.advance).err = s.err := rfl
@[simp] theorem State.advance_illegalAddr : (s.advance).illegalAddr = s.illegalAddr := rfl
@[simp] theorem State.advance_bpActive : (s.advance).bpActive = s.bpActive := rfl
@[simp] theorem State.advance_bpAddr : (s.advance).bpAddr = s.bpAddr := rfl
@[simp] theorem State.advance_stepAddr : (s.advance).stepAddr = s.stepAddr := rfl
@[simp] theorem State.advance_image : (s.advance).image = s.image := rfl
@[simp] theorem State.advance_ram : (s.advance).ram = s.ram := rfl
@[simp] theorem State.advance_rom : (s.advance).rom = s.rom := rfl
@[simp] theorem State.advance_config : (s.advance).config = s.config := rfl
@[simp] theorem State.advance_flag (b : Nat) : (s.advance).flag b = s.flag b := rfl
@[simp] theorem State.advance_bankRead (k : Byte) (a : Word) : (s.advance).bankRead k a = s.bankRead k a := rfl
@[simp] theorem State.advance_romRead (a : Word) : (s.advance).romRead a = s.romRead a := rfl
@[simp] theorem State.advance_prgRead (a : Word) : (s.advance).prgRead a = s.prgRead a := rfl
@[simp] theorem State.advance_ramPhys (a : Word) : (s.advance).ramPhys a = s.ramPhys a := rfl
@[simp] theorem State.advance_ramRead (a : Word) : (s.advance).ramRead a = s.ramRead a := rfl
@[simp] theorem State.advance_trackedBlock (q : Nat) : (s.advance).trackedBlock q = s.trackedBlock q := rfl
@[simp] theorem State.advance_scrPhys (o : Nat) : (s.advance).scrPhys o = s.scrPhys o := rfl
@[simp] theorem State.advance_scrRead (o : Nat) : (s.advance).scrRead o = s.scrRead o := rfl

/-! ## writeReg -/

@[simp] theorem State.writeReg_sreg (i : Reg) (v : Word) : (s.writeReg i v).sreg = s.sreg := by unfold State.writeReg; split <;> rfl
@[simp] theorem State.writeReg_dreg (i : Reg) (v : Word) : (s.writeReg i v).dreg = s.dreg := by unfold State.writeReg; split <;> rfl
@[simp] theorem State.writeReg_sfr (i : Reg) (v : Word) : (s.writeReg i v).sfr = s.sfr := by unfold State.writeReg; split <;> rfl
@[simp] theorem State.writeReg_pbr (i : Reg) (v : Word) : (s.writeReg i v).pbr = s.pbr := by unfold State.writeReg; split <;> rfl
@[simp] theorem State.writeReg_rombr (i : Reg) (v : Word) : (s.writeReg i v).rombr = s.rombr := by unfold State.writeReg; split <;> rfl
@[simp] theorem State.writeReg_rambr (i : Reg) (v : Word) : (s.writeReg i v).rambr = s.rambr := by unfold State.writeReg; split <;> rfl
@[simp] theorem State.writeReg_cbr (i : Reg) (v : Word) : (s.writeReg i v).cbr = s.cbr := by unfold State.writeReg; split <;> rfl
@[simp] theorem State.writeReg_cacheActive (i : Reg) (v : Word) : (s.writeReg i v).cacheActive = s.cacheActive := by unfold State.writeReg; split <;> rfl
@[simp] theorem State.writeReg_cvalid (i : Reg) (v : Word) : (s.writeReg i v).cvalid = s.cvalid := by unfold State.writeReg; split <;> rfl
@[simp] theorem State.writeReg_colr (i : Reg) (v : Word) : (s.writeReg i v).colr = s.colr := by unfold State.writeReg; split <;> rfl
@[simp] theorem State.writeReg_por (i : Reg) (v : Word) : (s.writeReg i v).por = s.por := by unfold State.writeReg; split <;> rfl
@[simp] theorem State.writeReg_scbr (i : Reg) (v : Word) : (s.writeReg i v).scbr = s.scbr := by unfold State.writeReg; split <;> rfl
@[simp] theorem State.writeReg_scmr (i : Reg) (v : Word) : (s.writeReg i v).scmr = s.scmr := by unfold State.writeReg; split <;> rfl
@[simp] theorem State.writeReg_cfgr (i : Reg) (v : Word) : (s.writeReg i v).cfgr = s.cfgr := by unfold State.writeReg; split <;> rfl
@[simp] theorem State.writeReg_pipe (i : Reg) (v : Word) : (s.writeReg i v).pipe = s.pipe := by unfold State.writeReg; split <;> rfl
@[simp] theorem State.writeReg_lastRamAddr (i : Reg) (v : Word) : (s.writeReg i v).lastRamAddr = s.lastRamAddr := by unfold State.writeReg; split <;> rfl
@[simp] theorem State.writeReg_budget (i : Reg) (v : Word) : (s.writeReg i v).budget = s.budget := by unfold State.writeReg; split <;> rfl
@[simp] theorem State.writeReg_err (i : Reg) (v : Word) : (s.writeReg i v).err = s.err := by unfold State.writeReg; split <;> rfl
@[simp] theorem State.writeReg_illegalAddr (i : Reg) (v : Word) : (s.writeReg i v).illegalAddr = s.illegalAddr := by unfold State.writeReg; split <;> rfl
@[simp] theorem State.writeReg_bpActive (i : Reg) (v : Word) : (s.writeReg i v).bpActive = s.bpActive := by unfold State.writeReg; split <;> rfl
@[simp] theorem State.writeReg_bpAddr (i : Reg) (v : Word) : (s.writeReg i v).bpAddr = s.bpAddr := by unfold State.writeReg; split <;> rfl
@[simp] theorem State.writeReg_stepAddr (i : Reg) (v : Word) : (s.writeReg i v).stepAddr = s.stepAddr := by unfold State.writeReg; split <;> rfl
@[simp] theorem State.writeReg_image (i : Reg) (v : Word) : (s.writeReg i v).image = s.image := by unfold State.writeReg; split <;> rfl
@[simp] theorem State.writeReg_ram (i : Reg) (v : Word) : (s.writeReg i v).ram = s.ram := by unfold State.writeReg; split <;> rfl
@[simp] theorem State.writeReg_rom (i : Reg) (v : Word) : (s.writeReg i v).rom = s.rom := by unfold State.writeReg; split <;> rfl
@[simp] theorem State.writeReg_config (i : Reg) (v : Word) : (s.writeReg i v).config = s.config := by unfold State.writeReg; split <;> rfl
@[simp] theorem State.writeReg_flag (i : Reg) (v : Word) (b : Nat) : (s.writeReg i v).flag b = s.flag b := by unfold State.writeReg; split <;> rfl
@[simp] theorem State.writeReg_bankRead (i : Reg) (v : Word) (k : Byte) (a : Word) : (s.writeReg i v).bankRead k a = s.bankRead k a := by unfold State.writeReg; split <;> rfl
@[simp] theorem State.writeReg_romRead (i : Reg) (v : Word) (a : Word) : (s.writeReg i v).romRead a = s.romRead a := by unfold State.writeReg; split <;> rfl
@[simp] theorem State.writeReg_prgRead (i : Reg) (v : Word) (a : Word) : (s.writeReg i v).prgRead a = s.prgRead a := by unfold State.writeReg; split <;> rfl
@[simp] theorem State.writeReg_ramPhys (i : Reg) (v : Word) (a : Word) : (s.writeReg i v).ramPhys a = s.ramPhys a := by unfold State.writeReg; split <;> rfl
@[simp] theorem State.writeReg_ramRead (i : Reg) (v : Word) (a : Word) : (s.writeReg i v).ramRead a = s.ramRead a := by unfold State.writeReg; split <;> rfl
@[simp] theorem State.writeReg_trackedBlock (i : Reg) (v : Word) (q : Nat) : (s.writeReg i v).trackedBlock q = s.trackedBlock q := by unfold State.writeReg; split <;> rfl
@[simp] theorem State.writeReg_scrPhys (i : Reg) (v : Word) (o : Nat) : (s.writeReg i v).scrPhys o = s.scrPhys o := by unfold State.writeReg; split <;> rfl
@[simp] theorem State.writeReg_scrRead (i : Reg) (v : Word) (o : Nat) : (s.writeReg i v).scrRead o = s.scrRead o := by unfold State.writeReg; split <;> rfl

/-! ## imm8 -/

@[simp] theorem State.imm8_sreg : (s.imm8).sreg = s.sreg := rfl
@[simp] theorem State.imm8_dreg : (s.imm8).dreg = s.dreg := rfl
@[simp] theorem State.imm8_sfr : (s.imm8).sfr = s.sfr := rfl
@[simp] theorem State.imm8_pbr : (s.imm8).pbr = s.pbr := rfl
@[simp] theorem State.imm8_rombr : (s.imm8).rombr = s.rombr := rfl
@[simp] theorem State.imm8_rambr : (s.imm8).rambr = s.rambr := rfl
@[simp] theorem State.imm8_cbr : (s.imm8).cbr = s.cbr := rfl
@[simp] theorem State.imm8_cacheActive : (s.imm8).cacheActive = s.cacheActive := rfl
@[simp] theorem State.imm8_cvalid : (s.imm8).cvalid = s.cvalid := rfl
@[simp] theorem State.imm8_colr : (s.imm8).colr = s.colr := rfl
@[simp] theorem State.imm8_por : (s.imm8).por = s.por := rfl
@[simp] theorem State.imm8_scbr : (s.imm8).scbr = s.scbr := rfl
@[simp] theorem State.imm8_scmr : (s.imm8).scmr = s.scmr := rfl
@[simp] theorem State.imm8_cfgr : (s.imm8).cfgr = s.cfgr := rfl
@[simp] theorem State.imm8_rombuf : (s.imm8).rombuf = s.rombuf := rfl
@[simp] theorem State.imm8_lastRamAddr : (s.imm8).lastRamAddr = s.lastRamAddr := rfl
@[simp] theorem State.imm8_budget : (s.imm8).budget = s.budget := rfl
@[simp] theorem State.imm8_err : (s.imm8).err = s.err := rfl
@[simp] theorem State.imm8_illegalAddr : (s.imm8).illegalAddr = s.illegalAddr := rfl
@[simp] theorem State.imm8_bpActive : (s.imm8).bpActive = s.bpActive := rfl
@[simp] theorem State.imm8_bpAddr : (s.imm8).bpAddr = s.bpAddr := rfl
@[simp] theorem State.imm8_stepAddr : (s.imm8).stepAddr = s.stepAddr := rfl
@[simp] theorem State.imm8_image : (s.imm8).image = s.image := rfl
@[simp] theorem State.imm8_ram : (s.imm8).ram = s.ram := rfl
@[simp] theorem State.imm8_rom : (s.imm8).rom = s.rom := rfl
@[simp] theorem State.imm8_config : (s.imm8).config = s.config := rfl
@[simp] theorem State.imm8_flag (b : Nat) : (s.imm8).flag b = s.flag b := rfl
@[simp] theorem State.imm8_bankRead (k : Byte) (a : Word) : (s.imm8).bankRead k a = s.bankRead k a := rfl
@[simp] theorem State.imm8_romRead (a : Word) : (s.imm8).romRead a = s.romRead a := rfl
@[simp] theorem State.imm8_prgRead (a : Word) : (s.imm8).prgRead a = s.prgRead a := rfl
@[simp] theorem State.imm8_ramPhys (a : Word) : (s.imm8).ramPhys a = s.ramPhys a := rfl
@[simp] theorem State.imm8_ramRead (a : Word) : (s.imm8).ramRead a = s.ramRead a := rfl
@[simp] theorem State.imm8_trackedBlock (q : Nat) : (s.imm8).trackedBlock q = s.trackedBlock q := rfl
@[simp] theorem State.imm8_scrPhys (o : Nat) : (s.imm8).scrPhys o = s.scrPhys o := rfl
@[simp] theorem State.imm8_scrRead (o : Nat) : (s.imm8).scrRead o = s.scrRead o := rfl

/-! ## clrFlags -/

@[simp] theorem State.clrFlags_regs : (s.clrFlags).regs = s.regs := rfl
@[simp] theorem State.clrFlags_pbr : (s.clrFlags).pbr = s.pbr := rfl
@[simp] theorem State.clrFlags_rombr : (s.clrFlags).rombr = s.rombr := rfl
@[simp] theorem State.clrFlags_rambr : (s.clrFlags).rambr = s.rambr := rfl
@[simp] theorem State.clrFlags_cbr : (s.clrFlags).cbr = s.cbr := rfl
@[simp] theorem State.clrFlags_cacheActive : (s.clrFlags).cacheActive = s.cacheActive := rfl
@[simp] theorem State.clrFlags_cvalid : (s.clrFlags).cvalid = s.cvalid := rfl
@[simp] theorem State.clrFlags_colr : (s.clrFlags).colr = s.colr := rfl
@[simp] theorem State.clrFlags_por : (s.clrFlags).por = s.por := rfl
@[simp] theorem State.clrFlags_scbr : (s.clrFlags).scbr = s.scbr := rfl
@[simp] theorem State.clrFlags_scmr : (s.clrFlags).scmr = s.scmr := rfl
@[simp] theorem State.clrFlags_cfgr : (s.clrFlags).cfgr = s.cfgr := rfl
@[simp] theorem State.clrFlags_pipe : (s.clrFlags).pipe = s.pipe := rfl
@[simp] theorem State.clrFlags_rombuf : (s.clrFlags).rombuf = s.rombuf := rfl
@[simp] theorem State.clrFlags_lastRamAddr : (s.clrFlags).lastRamAddr = s.lastRamAddr := rfl
@[simp] theorem State.clrFlags_budget : (s.clrFlags).budget = s.budget := rfl
@[simp] theorem State.clrFlags_err : (s.clrFlags).err = s.err := rfl
@[simp] theorem State.clrFlags_illegalAddr : (s.clrFlags).illegalAddr = s.illegalAddr := rfl
@[simp] theorem State.clrFlags_bpActive : (s.clrFlags).bpActive = s.bpActive := rfl
@[simp] theorem State.clrFlags_bpAddr : (s.clrFlags).bpAddr = s.bpAddr := rfl
@[simp] theorem State.clrFlags_stepAddr : (s.clrFlags).stepAddr = s.stepAddr := rfl
@[simp] theorem State.clrFlags_image : (s.clrFlags).image = s.image := rfl
@[simp] theorem State.clrFlags_ram : (s.clrFlags).ram = s.ram := rfl
@[simp] theorem State.clrFlags_rom : (s.clrFlags).rom = s.rom := rfl
@[simp] theorem State.clrFlags_config : (s.clrFlags).config = s.config := rfl
@[simp] theorem State.clrFlags_reg (r : Reg) : (s.clrFlags).reg r = s.reg r := rfl
@[simp] theorem State.clrFlags_bankRead (k : Byte) (a : Word) : (s.clrFlags).bankRead k a = s.bankRead k a := rfl
@[simp] theorem State.clrFlags_romRead (a : Word) : (s.clrFlags).romRead a = s.romRead a := rfl
@[simp] theorem State.clrFlags_prgRead (a : Word) : (s.clrFlags).prgRead a = s.prgRead a := rfl
@[simp] theorem State.clrFlags_ramPhys (a : Word) : (s.clrFlags).ramPhys a = s.ramPhys a := rfl
@[simp] theorem State.clrFlags_ramRead (a : Word) : (s.clrFlags).ramRead a = s.ramRead a := rfl
@[simp] theorem State.clrFlags_trackedBlock (q : Nat) : (s.clrFlags).trackedBlock q = s.trackedBlock q := rfl
@[simp] theorem State.clrFlags_scrPhys (o : Nat) : (s.clrFlags).scrPhys o = s.scrPhys o := rfl
@[simp] theorem State.clrFlags_scrRead (o : Nat) : (s.clrFlags).scrRead o = s.scrRead o := rfl

/-! ## trackCacheWrite -/

@[simp] theorem State.trackCacheWrite_regs (p : Nat) : (s.trackCacheWrite p).regs = s.regs := by unfold State.trackCacheWrite; split <;> rfl
@[simp] theorem State.trackCacheWrite_sreg (p : Nat) : (s.trackCacheWrite p).sreg = s.sreg := by unfold State.trackCacheWrite; split <;> rfl
@[simp] theorem State.trackCacheWrite_dreg (p : Nat) : (s.trackCacheWrite p).dreg = s.dreg := by unfold State.trackCacheWrite; split <;> rfl
@[simp] theorem State.trackCacheWrite_sfr (p : Nat) : (s.trackCacheWrite p).sfr = s.sfr := by unfold State.trackCacheWrite; split <;> rfl
@[simp] theorem State.trackCacheWrite_pbr (p : Nat) : (s.trackCacheWrite p).pbr = s.pbr := by unfold State.trackCacheWrite; split <;> rfl
@[simp] theorem State.trackCacheWrite_rombr (p : Nat) : (s.trackCacheWrite p).rombr = s.rombr := by unfold State.trackCacheWrite; split <;> rfl
@[simp] theorem State.trackCacheWrite_rambr (p : Nat) : (s.trackCacheWrite p).rambr = s.rambr := by unfold State.trackCacheWrite; split <;> rfl
@[simp] theorem State.trackCacheWrite_cbr (p : Nat) : (s.trackCacheWrite p).cbr = s.cbr := by unfold State.trackCacheWrite; split <;> rfl
@[simp] theorem State.trackCacheWrite_cacheActive (p : Nat) : (s.trackCacheWrite p).cacheActive = s.cacheActive := by unfold State.trackCacheWrite; split <;> rfl
@[simp] theorem State.trackCacheWrite_colr (p : Nat) : (s.trackCacheWrite p).colr = s.colr := by unfold State.trackCacheWrite; split <;> rfl
@[simp] theorem State.trackCacheWrite_por (p : Nat) : (s.trackCacheWrite p).por = s.por := by unfold State.trackCacheWrite; split <;> rfl
@[simp] theorem State.trackCacheWrite_scbr (p : Nat) : (s.trackCacheWrite p).scbr = s.scbr := by unfold State.trackCacheWrite; split <;> rfl
@[simp] theorem State.trackCacheWrite_scmr (p : Nat) : (s.trackCacheWrite p).scmr = s.scmr := by unfold State.trackCacheWrite; split <;> rfl
@[simp] theorem State.trackCacheWrite_cfgr (p : Nat) : (s.trackCacheWrite p).cfgr = s.cfgr := by unfold State.trackCacheWrite; split <;> rfl
@[simp] theorem State.trackCacheWrite_pipe (p : Nat) : (s.trackCacheWrite p).pipe = s.pipe := by unfold State.trackCacheWrite; split <;> rfl
@[simp] theorem State.trackCacheWrite_rombuf (p : Nat) : (s.trackCacheWrite p).rombuf = s.rombuf := by unfold State.trackCacheWrite; split <;> rfl
@[simp] theorem State.trackCacheWrite_lastRamAddr (p : Nat) : (s.trackCacheWrite p).lastRamAddr = s.lastRamAddr := by unfold State.trackCacheWrite; split <;> rfl
@[simp] theorem State.trackCacheWrite_budget (p : Nat) : (s.trackCacheWrite p).budget = s.budget := by unfold State.trackCacheWrite; split <;> rfl
@[simp] theorem State.trackCacheWrite_err (p : Nat) : (s.trackCacheWrite p).err = s.err := by unfold State.trackCacheWrite; split <;> rfl
@[simp] theorem State.trackCacheWrite_illegalAddr (p : Nat) : (s.trackCacheWrite p).illegalAddr = s.illegalAddr := by unfold State.trackCacheWrite; split <;> rfl
@[simp] theorem State.trackCacheWrite_bpActive (p : Nat) : (s.trackCacheWrite p).bpActive = s.bpActive := by unfold State.trackCacheWrite; split <;> rfl
@[simp] theorem State.trackCacheWrite_bpAddr (p : Nat) : (s.trackCacheWrite p).bpAddr = s.bpAddr := by unfold State.trackCacheWrite; split <;> rfl
@[simp] theorem State.trackCacheWrite_stepAddr (p : Nat) : (s.trackCacheWrite p).stepAddr = s.stepAddr := by unfold State.trackCacheWrite; split <;> rfl
@[simp] theorem State.trackCacheWrite_image (p : Nat) : (s.trackCacheWrite p).image = s.image := by unfold State.trackCacheWrite; split <;> rfl
@[simp] theorem State.trackCacheWrite_ram (p : Nat) : (s.trackCacheWrite p).ram = s.ram := by unfold State.trackCacheWrite; split <;> rfl
@[simp] theorem State.trackCacheWrite_rom (p : Nat) : (s.trackCacheWrite p).rom = s.rom := by unfold State.trackCacheWrite; split <;> rfl
@[simp] theorem State.trackCacheWrite_config (p : Nat) : (s.trackCacheWrite p).config = s.config := by unfold State.trackCacheWrite; split <;> rfl
@[simp] theorem State.trackCacheWrite_reg (p : Nat) (r : Reg) : (s.trackCacheWrite p).reg r = s.reg r := by unfold State.trackCacheWrite; split <;> rfl
@[simp] theorem State.trackCacheWrite_flag (p : Nat) (b : Nat) : (s.trackCacheWrite p).flag b = s.flag b := by unfold State.trackCacheWrite; split <;> rfl
@[simp] theorem State.trackCacheWrite_bankRead (p : Nat) (k : Byte) (a : Word) : (s.trackCacheWrite p).bankRead k a = s.bankRead k a := by unfold State.trackCacheWrite; split <;> rfl
@[simp] theorem State.trackCacheWrite_romRead (p : Nat) (a : Word) : (s.trackCacheWrite p).romRead a = s.romRead a := by unfold State.trackCacheWrite; split <;> rfl
@[simp] theorem State.trackCacheWrite_prgRead (p : Nat) (a : Word) : (s.trackCacheWrite p).prgRead a = s.prgRead a := by unfold State.trackCacheWrite; split <;> rfl
@[simp] theorem State.trackCacheWrite_ramPhys (p : Nat) (a : Word) : (s.trackCacheWrite p).ramPhys a = s.ramPhys a := by unfold State.trackCacheWrite; split <;> rfl
@[simp] theorem State.trackCacheWrite_ramRead (p : Nat) (a : Word) : (s.trackCacheWrite p).ramRead a = s.ramRead a := by unfold State.trackCacheWrite; split <;> rfl
@[simp] theorem State.trackCacheWrite_trackedBlock (p : Nat) (q : Nat) : (s.trackCacheWrite p).trackedBlock q = s.trackedBlock q := by unfold State.trackCacheWrite; split <;> rfl
@[simp] theorem State.trackCacheWrite_scrPhys (p : Nat) (o : Nat) : (s.trackCacheWrite p).scrPhys o = s.scrPhys o := by unfold State.trackCacheWrite; split <;> rfl
@[simp] theorem State.trackCacheWrite_scrRead (p : Nat) (o : Nat) : (s.trackCacheWrite p).scrRead o = s.scrRead o := by unfold State.trackCacheWrite; split <;> rfl

/-! ## storeRam -/

@[simp] theorem State.storeRam_regs (p : Nat) (v : Byte) : (s.storeRam p v).regs = s.regs := by unfold State.storeRam; simp
@[simp] theorem State.storeRam_sreg (p : Nat) (v : Byte) : (s.storeRam p v).sreg = s.sreg := by unfold State.storeRam; simp
@[simp] theorem State.storeRam_dreg (p : Nat) (v : Byte) : (s.storeRam p v).dreg = s.dreg := by unfold State.storeRam; simp
@[simp] theorem State.storeRam_sfr (p : Nat) (v : Byte) : (s.storeRam p v).sfr = s.sfr := by unfold State.storeRam; simp
@[simp] theorem State.storeRam_pbr (p : Nat) (v : Byte) : (s.storeRam p v).pbr = s.pbr := by unfold State.storeRam; simp
@[simp] theorem State.storeRam_rombr (p : Nat) (v : Byte) : (s.storeRam p v).rombr = s.rombr := by unfold State.storeRam; simp
@[simp] theorem State.storeRam_rambr (p : Nat) (v : Byte) : (s.storeRam p v).rambr = s.rambr := by unfold State.storeRam; simp
@[simp] theorem State.storeRam_cbr (p : Nat) (v : Byte) : (s.storeRam p v).cbr = s.cbr := by unfold State.storeRam; simp
@[simp] theorem State.storeRam_cacheActive (p : Nat) (v : Byte) : (s.storeRam p v).cacheActive = s.cacheActive := by unfold State.storeRam; simp
@[simp] theorem State.storeRam_colr (p : Nat) (v : Byte) : (s.storeRam p v).colr = s.colr := by unfold State.storeRam; simp
@[simp] theorem State.storeRam_por (p : Nat) (v : Byte) : (s.storeRam p v).por = s.por := by unfold State.storeRam; simp
@[simp] theorem State.storeRam_scbr (p : Nat) (v : Byte) : (s.storeRam p v).scbr = s.scbr := by unfold State.storeRam; simp
@[simp] theorem State.storeRam_scmr (p : Nat) (v : Byte) : (s.storeRam p v).scmr = s.scmr := by unfold State.storeRam; simp
@[simp] theorem State.storeRam_cfgr (p : Nat) (v : Byte) : (s.storeRam p v).cfgr = s.cfgr := by unfold State.storeRam; simp
@[simp] theorem State.storeRam_pipe (p : Nat) (v : Byte) : (s.storeRam p v).pipe = s.pipe := by unfold State.storeRam; simp
@[simp] theorem State.storeRam_rombuf (p : Nat) (v : Byte) : (s.storeRam p v).rombuf = s.rombuf := by unfold State.storeRam; simp
@[simp] theorem State.storeRam_lastRamAddr (p : Nat) (v : Byte) : (s.storeRam p v).lastRamAddr = s.lastRamAddr := by unfold State.storeRam; simp
@[simp] theorem State.storeRam_budget (p : Nat) (v : Byte) : (s.storeRam p v).budget = s.budget := by unfold State.storeRam; simp
@[simp] theorem State.storeRam_err (p : Nat) (v : Byte) : (s.storeRam p v).err = s.err := by unfold State.storeRam; simp
@[simp] theorem State.storeRam_illegalAddr (p : Nat) (v : Byte) : (s.storeRam p v).illegalAddr = s.illegalAddr := by unfold State.storeRam; simp
@[simp] theorem State.storeRam_bpActive (p : Nat) (v : Byte) : (s.storeRam p v).bpActive = s.bpActive := by unfold State.storeRam; simp
@[simp] theorem State.storeRam_bpAddr (p : Nat) (v : Byte) : (s.storeRam p v).bpAddr = s.bpAddr := by unfold State.storeRam; simp
@[simp] theorem State.storeRam_stepAddr (p : Nat) (v : Byte) : (s.storeRam p v).stepAddr = s.stepAddr := by unfold State.storeRam; simp
@[simp] theorem State.storeRam_image (p : Nat) (v : Byte) : (s.storeRam p v).image = s.image := by unfold State.storeRam; simp
@[simp] theorem State.storeRam_rom (p : Nat) (v : Byte) : (s.storeRam p v).rom = s.rom := by unfold State.storeRam; simp
@[simp] theorem State.storeRam_config (p : Nat) (v : Byte) : (s.storeRam p v).config = s.config := by unfold State.storeRam; simp
@[simp] theorem State.storeRam_reg (p : Nat) (v : Byte) (r : Reg) : (s.storeRam p v).reg r = s.reg r := by simp [State.reg]
@[simp] theorem State.storeRam_flag (p : Nat) (v : Byte) (b : Nat) : (s.storeRam p v).flag b = s.flag b := by simp [State.flag]
@[simp] theorem State.storeRam_ramPhys (p : Nat) (v : Byte) (a : Word) : (s.storeRam p v).ramPhys a = s.ramPhys a := by simp [State.ramPhys]
@[simp] theorem State.storeRam_trackedBlock (p : Nat) (v : Byte) (q : Nat) : (s.storeRam p v).trackedBlock q = s.trackedBlock q := by simp [State.trackedBlock, State.programRamBase]
@[simp] theorem State.storeRam_scrPhys (p : Nat) (v : Byte) (o : Nat) : (s.storeRam p v).scrPhys o = s.scrPhys o := by simp [State.scrPhys]

end Sys2Proof.Machine
end

