-- ==== Sys2Proof/Laws/Ops.lean ====
section
/-! SUPPORT. What each shared operation does to the fields it writes: with Laws/State.lean, everything a caller needs, so that
no later proof unfolds an operation. -/

namespace Sys2Proof.Machine

variable (s : State)

/-! ## Flags -/

@[simp] theorem State.setFlag_sfr (i : Nat) (v : Bool) : (s.setFlag i v).sfr = putBit s.sfr i v := rfl

@[simp] theorem State.setFlag_flag (i : Nat) (v : Bool) (j : Nat) :
    (s.setFlag i v).flag j = if i = j ∧ j < 16 then v else s.flag j := by simp [State.flag]

@[simp] theorem State.clrFlags_sreg : s.clrFlags.sreg = 0 := rfl
@[simp] theorem State.clrFlags_dreg : s.clrFlags.dreg = 0 := rfl

@[simp] theorem State.clrFlags_sfr :
    s.clrFlags.sfr = putBit (putBit (putBit s.sfr bitALT1 false) bitALT2 false) bitB false := rfl

@[simp] theorem State.clrFlags_flag (j : Nat) :
    s.clrFlags.flag j = if j = 8 ∨ j = 9 ∨ j = 12 then false else s.flag j := by
  have h : s.clrFlags.flag j = (((s.setFlag bitALT1 false).setFlag bitALT2 false).setFlag bitB false).flag j := rfl
  rw [h]
  simp only [State.setFlag_flag, bitALT1, bitALT2, bitB]
  split_ifs <;> first | rfl | omega

/-! ## Registers, pc, pipe -/

@[simp] theorem State.advance_reg (r : Reg) : s.advance.reg r = if r = 15 then s.reg 15 + 1 else s.reg r := by
  unfold State.advance State.reg State.pc State.reg
  by_cases h : r = 15
  · simp [h]
  · have : (15 : Nat) ≠ r.val := fun e => h (Fin.ext e.symm)
    simp [h, this]

@[simp] theorem State.writeReg_reg (i : Reg) (v : Word) (r : Reg) :
    (s.writeReg i v).reg r = if r = i then v else s.reg r := by
  have h : (s.writeReg i v).regs = s.regs.set i v := by unfold State.writeReg; split <;> rfl
  unfold State.reg
  by_cases hr : r = i
  · simp [h, hr]
  · have : i.val ≠ r.val := fun e => hr (Fin.ext e.symm)
    simp [h, hr, this]

/-- A write to R14 re-arms the ROM buffer; no other write does (10_state.md R14). -/
@[simp] theorem State.writeReg_rombuf (i : Reg) (v : Word) :
    (s.writeReg i v).rombuf = if i = 14 then s.romRead v else s.rombuf := by
  unfold State.writeReg
  split <;> rfl

@[simp] theorem State.imm8_reg (r : Reg) : s.imm8.reg r = if r = 15 then s.reg 15 + 1 else s.reg r :=
  s.advance_reg r

@[simp] theorem State.imm8_pipe : s.imm8.pipe = s.prgRead (s.reg 15 + 1) := by
  unfold State.imm8
  change s.advance.prgRead s.advance.pc = _
  simp [State.pc]

/-! ## Stores -/

/-- What write tracking does to the validity bits (20_memory.md R70). -/
@[simp] theorem State.trackCacheWrite_valid (p b : Nat) :
    (s.trackCacheWrite p).cvalid.getLsbD b = (s.cvalid.getLsbD b && decide (s.trackedBlock p ≠ some b)) := by
  unfold State.trackCacheWrite
  cases h : s.trackedBlock p with
  | none => simp
  | some k =>
    simp only [getLsbD_putBit, ne_eq, Option.some.injEq]
    by_cases hk : k = b
    · by_cases hb : b < 16
      · simp [hk, hb]
      · simp [hk, hb, BitVec.getLsbD_of_ge s.cvalid b (by omega)]
    · simp [hk]

@[simp] theorem State.storeRam_ram (p : Nat) (v : Byte) : (s.storeRam p v).ram = s.ram.write p v := by
  unfold State.storeRam
  simp

@[simp] theorem State.storeRam_valid (p : Nat) (v : Byte) (b : Nat) :
    (s.storeRam p v).cvalid.getLsbD b = (s.cvalid.getLsbD b && decide (s.trackedBlock p ≠ some b)) := by
  unfold State.storeRam
  rw [State.trackCacheWrite_valid]
  rfl

/-- The other byte of a word is another byte. -/
theorem partner_ne (a : Word) : partner a ≠ a := by
  intro h
  have h0 := congrArg (fun w : Word => w.getLsbD 0) h
  simp [partner] at h0

theorem State.ramPhys_inj (a b : Word) : s.ramPhys a = s.ramPhys b ↔ a = b := by
  unfold State.ramPhys
  constructor
  · intro h
    exact BitVec.eq_of_toNat_eq (by omega)
  · rintro rfl
    rfl

end Sys2Proof.Machine
end

