-- ==== Sys2Proof/Laws/Specs.lean ====
section
/-! SUPPORT. One lemma for each shared operation that says once everything it can do, in the terms statements use: the two usual
ends of an instruction, the flag writes, the branch, and the stores. A proof about an instruction cites these and unfolds only
its own meaning. -/

namespace Sys2Proof.Machine

/-! ## Frames compose -/

/-- Two words agree when their sixteen bits do. -/
theorem forall_lt_sixteen {P : Nat → Prop} (h : ∀ i, i < 16 → P i) (h' : ∀ i, 16 ≤ i → P i) (i : Nat) : P i :=
  (Nat.lt_or_ge i 16).elim (h i) (h' i)

theorem SameSpecial.refl (s : State) : SameSpecial s s := by simp [SameSpecial]

theorem SameSfrExcept.refl (mask : Word) (s : State) : SameSfrExcept mask s s := fun _ _ => rfl

/-! ## What each flag write and each end of an instruction leaves -/

variable (s : State)

/-- `ClrFlags` writes ALT1, ALT2, B and the two indices. -/
theorem State.clrFlags_cleared : Cleared s.clrFlags := by simp [Cleared]

/-- `SetSZ` makes Z and SG say what R17 says. -/
theorem State.setSZ_flag (v : Word) (j : Nat) :
    (s.setSZ v).flag j = if j = 1 then v == 0 else if j = 3 then v.getLsbD 15 else s.flag j := by
  simp only [State.setSZ, State.setFlag_flag, bitZ, bitSG]
  split_ifs <;> first | rfl | omega

/-- `SetSZ8` does so for the low byte. -/
theorem State.setSZ8_flag (v : Word) (j : Nat) :
    (s.setSZ8 v).flag j = if j = 1 then lowByte v == 0 else if j = 3 then v.getLsbD 7 else s.flag j := by
  simp only [State.setSZ8, State.setFlag_flag, bitZ, bitSG]
  split_ifs <;> first | rfl | omega

/-- The four condition flags. -/
theorem State.setCond_flag (f : Flagged) (j : Nat) :
    (s.setCond f).flag j =
      if j = 1 then f.z else if j = 2 then f.cy else if j = 3 then f.sg else if j = 4 then f.ov else s.flag j := by
  simp only [State.setCond, State.setFlag_flag, bitZ, bitCY, bitSG, bitOV]
  split_ifs <;> first | rfl | omega

/-- Two states agree on SFR outside a mask when they agree on the sixteen flags outside it. -/
theorem sameSfrExcept_of_flags {mask : Word} {s t : State}
    (h : ∀ i, i < 16 → mask.getLsbD i = false → t.flag i = s.flag i) : SameSfrExcept mask s t :=
  forall_lt_sixteen (fun i hi hm => h i hi hm) fun i hi _ => by
    rw [BitVec.getLsbD_of_ge _ _ hi, BitVec.getLsbD_of_ge _ _ hi]

/-- SG from a word is the sign of its 16 bits. -/
theorem getLsbD_15_eq (v : Word) : v.getLsbD 15 = decide (0x8000 ≤ v.toNat) := by
  rw [← BitVec.msb_eq_getLsbD_last v, BitVec.msb_eq_decide]

/-- Z and SG after a write of them from `v` that later operations keep. -/
theorem hasSZ_of_flags {v : Word} {t : State} (hz : t.flag 1 = (v == 0)) (hs : t.flag 3 = v.getLsbD 15) : HasSZ v t := by
  refine ⟨?_, ?_⟩
  · rw [hz]; rfl
  · rw [hs, getLsbD_15_eq]

/-- `ClrFlags` at the end adds the mode flags to what may have changed in SFR. -/
theorem sameSfr_clrFlags {mask : Word} {s w : State} (h : SameSfrExcept mask s w) (t : State)
    (ht : t.sfr = w.clrFlags.sfr) : SameSfrExcept (mask ||| modeMask) s t := by
  intro j hj
  have hj' : mask.getLsbD j = false ∧ modeMask.getLsbD j = false := by simpa [BitVec.getLsbD_or] using hj
  have hne : ¬(j = 8 ∨ j = 9 ∨ j = 12) := by
    rintro (rfl | rfl | rfl) <;> exact absurd hj'.2 (by decide)
  have hc := w.clrFlags_flag j
  rw [if_neg hne] at hc
  rw [ht]
  exact hc.trans (h j hj'.1)

/-! ## The two usual ends -/

/-- An instruction that ends in `finishReg d v`, from a state `w` that differs from `s` in what `u` and the mask allow. -/
theorem writesReg_of_finishReg {i : Instr} {s u w : State} {k : Nat} {d : Reg} {v mask : Word} {post : State → Prop}
    (hx : exec i s = .next (w.finishReg d v)) (hregs : ∀ r, r ≠ 15 → w.reg r = s.reg r)
    (hpc : w.reg 15 = s.reg 15 + BitVec.ofNat 16 k) (hsfr : SameSfrExcept mask s w) (hspecial : SameSpecial u w)
    (hram : SameRam s w) (hrom : SameRom s w) (hbuf : w.rombuf = s.rombuf) (hread : w.romRead v = s.romRead v)
    (hpipe : w.pipe = pipeAfter s k) (hpost : post (w.finishReg d v)) : WritesReg i s u k d v mask post := by
  refine ⟨_, hx, fun r hr => ?_, fun j hj => ?_, ?_, ?_, ?_, ?_, ?_, ?_, ?_, ?_, hpost⟩
  · simp only [List.mem_cons, List.not_mem_nil, or_false, not_or] at hr
    simp [State.finishReg, hr.1, hr.2, hregs r hr.2]
  · exact sameSfr_clrFlags hsfr _ (by simp [State.finishReg]) j hj
  · simpa [SameSpecial, State.finishReg] using hspecial
  · intro a; simpa [State.finishReg] using hram a
  · intro a; simpa [State.finishReg] using hrom a
  · simp [State.finishReg]
  · intro hd
    have : (15 : Reg) ≠ d := fun h => hd h.symm
    simp only [State.finishReg, State.pc, State.clrFlags_reg, State.writeReg_reg, this, if_false, State.advance_reg,
      if_true, hpc, pcAfter]
    rw [BitVec.add_assoc, BitVec.add_comm (BitVec.ofNat 16 k), ← BitVec.add_assoc]
  · simp [State.finishReg, hbuf, hread]
  · simp [State.finishReg, hpipe]
  · exact State.clrFlags_cleared _

/-- An instruction that ends in `finish`. -/
theorem writesNoReg_of_finish {i : Instr} {s u w : State} {k : Nat} {mask : Word} {post : State → Prop}
    (hx : exec i s = .next w.finish) (hregs : ∀ r, r ≠ 15 → w.reg r = s.reg r)
    (hpc : w.reg 15 = s.reg 15 + BitVec.ofNat 16 k) (hsfr : SameSfrExcept mask s w) (hspecial : SameSpecial u w)
    (hram : SameRam s w) (hrom : SameRom s w) (hbuf : w.rombuf = s.rombuf) (hpipe : w.pipe = pipeAfter s k)
    (hpost : post w.finish) : WritesNoReg i s u k mask post := by
  refine ⟨_, hx, fun r hr => ?_, fun j hj => ?_, ?_, ?_, ?_, ?_, ?_, ?_, ?_, hpost⟩
  · simp only [List.mem_cons, List.not_mem_nil, or_false] at hr
    simp [State.finish, hr, hregs r hr]
  · exact sameSfr_clrFlags hsfr _ (by simp [State.finish]) j hj
  · simpa [SameSpecial, State.finish] using hspecial
  · intro a; simpa [State.finish] using hram a
  · intro a; simpa [State.finish] using hrom a
  · simp only [State.finish, State.pc, State.clrFlags_reg, State.advance_reg, if_true, hpc, pcAfter]
    rw [BitVec.add_assoc, BitVec.add_comm (BitVec.ofNat 16 k), ← BitVec.add_assoc]
  · simp [State.finish, hbuf]
  · simp [State.finish, hpipe]
  · exact State.clrFlags_cleared _

/-! ## Transfers -/

/-- A transfer is a write of R15 (40_dispatch_prefix_control.md R129). -/
@[simp] theorem State.jump_eq (t : Word) : s.jump t = s.writeReg 15 t := rfl

/-- A branch writes R15 and the pipe, and nothing else (40_dispatch_prefix_control.md R132). -/
theorem State.branch_spec (taken : Bool) (e : Byte) :
    SameRegsExcept [15] s (s.branch taken e) ∧ (s.branch taken e).sfr = s.sfr ∧ (s.branch taken e).sreg = s.sreg ∧
    (s.branch taken e).dreg = s.dreg ∧ SameSpecial s (s.branch taken e) ∧ (s.branch taken e).ram = s.ram ∧
    (s.branch taken e).rom = s.rom ∧ (s.branch taken e).rombuf = s.rombuf ∧
    (s.branch taken e).pipe = s.prgRead (s.pc + 1) ∧
    (s.branch taken e).pc = if taken then s.pc + 1 + sext8 e else s.pc + 2 := by
  have h2 : s.pc + 1 + 1 = s.pc + 2 := by rw [BitVec.add_assoc]; rfl
  cases taken <;> simp [State.branch, SameRegsExcept, SameSpecial, State.pc] <;> first | (intro r hr; simp [hr]) | skip
  refine ⟨fun r hr => by simp [hr], ?_⟩
  exact h2

/-! ## Stores -/

/-- A 16-bit store: the two bytes, and every other byte as before (20_memory.md R59). -/
theorem State.ramWrite16_read (a v : Word) (p : Nat) : (s.ramWrite16 a v).ram.read p = ramAfterWord s a v p := by
  have hne : s.ramPhys (partner a) ≠ s.ramPhys a := fun h => partner_ne a ((s.ramPhys_inj _ _).mp h)
  simp only [State.ramWrite16, State.ramWrite, State.storeRam_ram, State.storeRam_ramPhys, Memory.read_write, ramAfterWord]
  change (if p = s.ramPhys (partner a) then _ else _) = if p = s.ramPhys a then _ else if p = s.ramPhys (partner a) then _ else _
  by_cases h : p = s.ramPhys a
  · simp [h, hne.symm]
  · simp [h]

/-- And the validity bits after it. -/
theorem State.ramWrite16_valid (a v : Word) (b : Nat) :
    (s.ramWrite16 a v).cvalid.getLsbD b =
      (s.cvalid.getLsbD b && decide (s.trackedBlock (s.ramPhys a) ≠ some b) &&
        decide (s.trackedBlock (s.ramPhys (partner a)) ≠ some b)) := by
  simp [State.ramWrite16, State.ramWrite]

end Sys2Proof.Machine
end

