-- ==== Sys2Proof/Laws/Plot.lean ====
section
/-! SUPPORT. What PLOT's loop over the planes and RPIX's assembly of a pixel do (43_plot.md R247, R248). -/

namespace Sys2Proof.Machine

/-- The bit of the pixel in its byte, counted from bit 7 (43_plot.md R246). -/
theorem getLsbD_pixMask (x : Byte) (b : Nat) : (pixMask x).getLsbD b = decide (b = 7 - x.toNat % 8) := by
  unfold pixMask
  have hx : x.toNat % 8 < 8 := Nat.mod_lt _ (by decide)
  generalize x.toNat % 8 = k at hx
  by_cases hb : b < 8
  · interval_cases k <;> interval_cases b <;> decide
  · rw [BitVec.getLsbD_of_ge _ _ (by omega)]
    simp
    omega

/-- A plane byte after the write: the pixel's bit is `on`, every other bit as before. -/
theorem getLsbD_planeByte (t x : Byte) (on : Bool) (b : Nat) :
    (planeByte t (pixMask x) on).getLsbD b = if b = 7 - x.toNat % 8 then on else t.getLsbD b := by
  have hx : x.toNat % 8 < 8 := Nat.mod_lt _ (by decide)
  unfold planeByte
  by_cases hb : b < 8
  · cases on
    · simp only [Bool.false_eq_true, if_false, BitVec.getLsbD_and, BitVec.getLsbD_not, getLsbD_pixMask, hb, decide_true,
        Bool.true_and]
      split_ifs with h <;> simp [h]
    · simp only [if_true, BitVec.getLsbD_or, getLsbD_pixMask]
      split_ifs with h <;> simp [h]
  · have hne : b ≠ 7 - x.toNat % 8 := by omega
    rw [if_neg hne, BitVec.getLsbD_of_ge _ _ (by omega), BitVec.getLsbD_of_ge _ _ (by omega)]

/-- Two planes of one pixel are two bytes. -/
theorem planeOff_inj {p q : Nat} (h : planeOff p = planeOff q) : p = q := by
  unfold planeOff at h
  omega

theorem planeOff_lt {p : Nat} (h : p < 8) : planeOff p < 50 := by
  unfold planeOff
  omega

/-- Offsets less than a bank apart stay apart in the RAM buffer (with no RAM bank nothing is reduced: log 14). -/
theorem State.scrPhys_inj (s : State) {o x y : Nat} (hx : x < bankSize) (hy : y < bankSize)
    (h : s.scrPhys (o + x) = s.scrPhys (o + y)) : x = y := by
  unfold State.scrPhys at h
  rcases Nat.eq_zero_or_pos s.config.nram with h0 | hram
  · simp only [h0, Nat.zero_mul, Nat.mod_zero] at h
    omega
  · have hm : s.scbr.toNat * 1024 + (o + x) ≡ s.scbr.toNat * 1024 + (o + y) [MOD s.config.nram * bankSize] := h
    rw [← Nat.add_assoc, ← Nat.add_assoc] at hm
    have hb : bankSize ≤ s.config.nram * bankSize := Nat.le_mul_of_pos_left _ hram
    exact Nat.ModEq.eq_of_lt_of_lt (Nat.ModEq.add_left_cancel' _ hm) (by omega) (by omega)

/-- PLOT's loop writes RAM and the validity bits only. -/
theorem State.plotPlanes_frame (o : Nat) (m c : Byte) (ps : List Nat) (s : State) :
    s.plotPlanes o m c ps =
      { s with ram := (s.plotPlanes o m c ps).ram, cvalid := (s.plotPlanes o m c ps).cvalid } := by
  induction ps generalizing s with
  | nil => rfl
  | cons p ps ih =>
    have hstore : ∀ (q : Nat) (v : Byte), s.storeRam q v =
        { s with ram := (s.storeRam q v).ram, cvalid := (s.storeRam q v).cvalid } := by
      intro q v
      unfold State.storeRam State.trackCacheWrite
      split <;> rfl
    have h := ih (s.plotPlane o m c p)
    change (s.plotPlane o m c p).plotPlanes o m c ps = _
    rw [h]
    change _ = { s with ram := ((s.plotPlane o m c p).plotPlanes o m c ps).ram,
                        cvalid := ((s.plotPlane o m c p).plotPlanes o m c ps).cvalid }
    unfold State.plotPlane State.scrWrite at h ⊢
    rw [hstore]

/-- What the loop leaves in RAM: the byte of each plane rewritten, every other byte as before. -/
theorem State.plotPlanes_read (o : Nat) (m c : Byte) (ps : List Nat) (s : State)
    (hinj : ∀ p ∈ ps, ∀ q ∈ ps, s.scrPhys (o + planeOff p) = s.scrPhys (o + planeOff q) → p = q) (hnd : ps.Nodup) :
    (∀ p ∈ ps, (s.plotPlanes o m c ps).ram.read (s.scrPhys (o + planeOff p)) =
      planeByte (s.ram.read (s.scrPhys (o + planeOff p))) m (c.getLsbD p)) ∧
    ∀ a, (∀ p ∈ ps, a ≠ s.scrPhys (o + planeOff p)) → (s.plotPlanes o m c ps).ram.read a = s.ram.read a := by
  induction ps generalizing s with
  | nil => exact ⟨fun p hp => by simp at hp, fun a _ => rfl⟩
  | cons p ps ih =>
    have hphys : ∀ off, (s.plotPlane o m c p).scrPhys off = s.scrPhys off := by
      intro off
      simp [State.plotPlane, State.scrWrite]
    have hram : ∀ a, (s.plotPlane o m c p).ram.read a =
        if a = s.scrPhys (o + planeOff p) then planeByte (s.ram.read (s.scrPhys (o + planeOff p))) m (c.getLsbD p)
        else s.ram.read a := by
      intro a
      simp [State.plotPlane, State.scrWrite, State.scrRead]
    obtain ⟨hp, hnd⟩ := List.nodup_cons.mp hnd
    obtain ⟨h1, h2⟩ := ih (s.plotPlane o m c p)
      (fun q hq r hr h => hinj q (List.mem_cons_of_mem _ hq) r (List.mem_cons_of_mem _ hr) (by simpa [hphys] using h)) hnd
    simp only [hphys] at h1 h2
    change (∀ q ∈ p :: ps, ((s.plotPlane o m c p).plotPlanes o m c ps).ram.read _ = _) ∧
      ∀ a, _ → ((s.plotPlane o m c p).plotPlanes o m c ps).ram.read a = _
    refine ⟨fun q hq => ?_, fun a ha => ?_⟩
    · rcases List.mem_cons.mp hq with rfl | hq
      · rw [h2 _ fun r hr h => hp (hinj q (by simp) r (List.mem_cons_of_mem _ hr) h ▸ hr), hram, if_pos rfl]
      · rw [h1 q hq, hram, if_neg fun h =>
          hp (hinj q (List.mem_cons_of_mem _ hq) p (by simp) h ▸ hq)]
    · rw [h2 a fun q hq => ha q (List.mem_cons_of_mem _ hq), hram, if_neg (ha p (by simp))]

/-- And in the validity bits (20_memory.md R70). -/
theorem State.plotPlanes_valid (o : Nat) (m c : Byte) (ps : List Nat) (s : State) (b : Nat) :
    (s.plotPlanes o m c ps).cvalid.getLsbD b = true ↔
      s.cvalid.getLsbD b = true ∧ ∀ p ∈ ps, s.trackedBlock (s.scrPhys (o + planeOff p)) ≠ some b := by
  induction ps generalizing s with
  | nil => simp [State.plotPlanes]
  | cons p ps ih =>
    change ((s.plotPlane o m c p).plotPlanes o m c ps).cvalid.getLsbD b = true ↔ _
    rw [ih]
    simp [State.plotPlane, State.scrWrite, and_assoc]

/-- Bits assembled one by one into a word. -/
theorem getLsbD_foldl_putBit (f : Nat → Bool) (n : Nat) (hn : n ≤ 16) (b : Nat) :
    ((List.range n).foldl (fun v p => putBit v p (f p)) (0 : Word)).getLsbD b = (decide (b < n) && f b) := by
  induction n with
  | zero => simp
  | succ n ih =>
    rw [List.range_succ, List.foldl_append]
    simp only [List.foldl_cons, List.foldl_nil, getLsbD_putBit, ih (by omega)]
    by_cases h : n = b
    · subst h
      have : n < 16 := by omega
      simp [this]
    · have : b < n + 1 ↔ b < n := by omega
      simp [h, this]

/-- Bit p of the pixel is the pixel's bit in plane p (43_plot.md R248). -/
theorem State.getLsbD_pixel (s : State) (hd : s.depth ≤ 16) (b : Nat) :
    s.pixel.getLsbD b = (decide (b < s.depth) && s.pixelBit b) := getLsbD_foldl_putBit _ _ hd b

/-- A byte masked by the pixel's mask is not zero when the pixel's bit is set. -/
theorem State.pixelBit_eq (s : State) (p : Nat) :
    s.pixelBit p = (s.scrRead (s.pixelOffset + planeOff p)).getLsbD (7 - s.plotX.toNat % 8) := by
  have hx : s.plotX.toNat % 8 < 8 := Nat.mod_lt _ (by decide)
  unfold State.pixelBit
  generalize s.scrRead _ = t
  generalize s.plotX = x at hx
  have hm : t &&& pixMask x = if t.getLsbD (7 - x.toNat % 8) then pixMask x else 0#8 := by
    apply BitVec.eq_of_getLsbD_eq
    intro i _
    by_cases h : i = 7 - x.toNat % 8
    · subst h
      split_ifs with ht <;> simp [BitVec.getLsbD_and, getLsbD_pixMask, ht]
    · split_ifs <;> simp [BitVec.getLsbD_and, getLsbD_pixMask, h]
  have hne : pixMask x ≠ 0#8 := by
    intro h
    have h7 := getLsbD_pixMask x (7 - x.toNat % 8)
    rw [h] at h7
    simp at h7
  rw [hm]
  split_ifs with ht
  · rw [ht]
    simpa using hne
  · simpa using ht

theorem State.depth_mem (s : State) : s.depth ∈ [2, 4, 8] := by
  unfold State.depth
  split <;> simp

end Sys2Proof.Machine
end

