-- ==== Sys2Proof/Laws/Inv.lean ====
section
/-! SUPPORT. How the shared operations keep the invariant of Safety.lean: the stores that write inside the RAM buffer, and the
updates that leave everything the invariant speaks of alone. -/

namespace Sys2Proof.Machine

/-- The invariant depends on the three buffers, the configuration and the cache base only. -/
theorem State.Inv.congr {s t : State} (h : s.Inv) (hram : t.ram = s.ram) (hrom : t.rom = s.rom) (himage : t.image = s.image)
    (hconfig : t.config = s.config) (hcbr : t.cbr.toNat % 16 = 0) : t.Inv :=
  ⟨hram ▸ h.ramWf, hrom ▸ h.romWf, himage ▸ h.imageWf, hram ▸ hconfig ▸ h.ramBelow, hrom ▸ hconfig ▸ h.romBelow,
    himage ▸ h.imageBelow, hconfig ▸ h.validConfig, hcbr⟩

/-- A configuration is valid exactly when the bank counts are at least 1 and the buffers as large as R53 requires. -/
theorem validConfig_iff (c : Config) :
    validConfig c = true ↔
      0 < c.nrom ∧ 0 < c.nram ∧ 0 < c.romBankMax ∧ requiredRomSize c ≤ c.romSize ∧ requiredRamSize c ≤ c.ramSize := by
  simp [validConfig, and_assoc]

theorem validContent_iff (m : Memory) (size : Nat) : validContent m size = true ↔ m.wf ∧ m.below size := by
  simp [validContent]

theorem State.Inv.hasRam {s : State} (h : s.Inv) : 0 < s.config.nram := ((validConfig_iff _).mp h.validConfig).2.1

/-- The RAM banks lie inside the RAM buffer. -/
theorem State.Inv.ramSize_le {s : State} (h : s.Inv) : s.config.nram * bankSize ≤ s.config.ramSize :=
  ((validConfig_iff _).mp h.validConfig).2.2.2.2

/-- A RAM bank lies inside the RAM buffer (20_memory.md R52). -/
theorem ramBase_add_lt (c : Config) (h : 0 < c.nram) (k : Nat) (a : Word) : ramBase c k + a.toNat < c.nram * bankSize := by
  have hk : k % c.nram < c.nram := Nat.mod_lt _ h
  have ha : a.toNat < bankSize := a.isLt
  have hm : (k % c.nram + 1) * bankSize ≤ c.nram * bankSize := Nat.mul_le_mul_right _ hk
  unfold ramBase
  rw [Nat.add_mul] at hm
  omega

/-- A screen offset lies inside the RAM buffer (20_memory.md R58, D28). -/
theorem State.scrPhys_lt (s : State) (h : 0 < s.config.nram) (off : Nat) : s.scrPhys off < s.config.nram * bankSize :=
  Nat.mod_lt _ (Nat.mul_pos h (by decide))

/-- Storing a byte inside the RAM buffer keeps the invariant. -/
theorem State.Inv.storeRam {s : State} (h : s.Inv) {p : Nat} (hp : p < s.config.nram * bankSize) (v : Byte) :
    (s.storeRam p v).Inv := by
  refine ⟨?_, ?_, ?_, ?_, ?_, ?_, ?_, ?_⟩
  · simpa using Memory.wf_write h.ramWf p v
  · simpa using h.romWf
  · simpa using h.imageWf
  · simpa using Memory.below_write h.ramBelow (lt_of_lt_of_le hp h.ramSize_le) v
  · simpa using h.romBelow
  · simpa using h.imageBelow
  · simpa using h.validConfig
  · simpa using h.cbrAligned

theorem State.Inv.ramWrite {s : State} (h : s.Inv) (a : Word) (v : Byte) : (s.ramWrite a v).Inv :=
  h.storeRam (ramBase_add_lt _ h.hasRam _ a) v

theorem State.Inv.ramWrite16 {s : State} (h : s.Inv) (a v : Word) : (s.ramWrite16 a v).Inv :=
  (h.ramWrite a _).ramWrite _ _

theorem State.Inv.plotPlanes {s : State} (h : s.Inv) (o : Nat) (m c : Byte) (ps : List Nat) :
    (s.plotPlanes o m c ps).Inv := by
  induction ps generalizing s with
  | nil => exact h
  | cons p ps ih => exact ih (h.storeRam (s.scrPhys_lt h.hasRam _) _)

/-- The host's writes keep the invariant (20_memory.md R74). -/
theorem State.Inv.hostWriteRam {s : State} (h : s.Inv) (p : Nat) (v : Byte) : (hostWriteRam p v s).Inv := by
  unfold Machine.hostWriteRam
  split
  · rename_i hp
    exact { h with ramWf := Memory.wf_write h.ramWf p v, ramBelow := Memory.below_write h.ramBelow hp v }
  · exact h

theorem State.Inv.hostWriteRom {s : State} (h : s.Inv) (p : Nat) (v : Byte) : (hostWriteRom p v s).Inv := by
  unfold Machine.hostWriteRom
  split
  · rename_i hp
    exact { h with romWf := Memory.wf_write h.romWf p v, romBelow := Memory.below_write h.romBelow hp v }
  · exact h

theorem State.Inv.hostWriteImage {s : State} (h : s.Inv) (off : Nat) (v : Byte) : (hostWriteImage off v s).Inv := by
  unfold Machine.hostWriteImage
  split
  · rename_i hp
    exact { h with imageWf := Memory.wf_write h.imageWf off v, imageBelow := Memory.below_write h.imageBelow hp v }
  · exact h

/-- `c <- a & 0xFFF0` is aligned to 16 bytes (10_state.md R24). -/
theorem cacheBaseOf_aligned (a : Word) : (cacheBaseOf a).toNat % 16 = 0 := by
  have h : ∀ i, i < 4 → (cacheBaseOf a).toNat.testBit i = false := by
    intro i hi
    change (a &&& 0xFFF0#16).getLsbD i = false
    rw [BitVec.getLsbD_and]
    interval_cases i <;> simp
  have h0 := h 0 (by decide)
  have h1 := h 1 (by decide)
  have h2 := h 2 (by decide)
  have h3 := h 3 (by decide)
  simp only [Nat.testBit_eq_decide_div_mod_eq, decide_eq_false_iff_not] at h0 h1 h2 h3
  omega

end Sys2Proof.Machine
end

