-- ==== Sys2Proof/Tests/Slice0.lean ====
section
/-! SUPPORT. Tests: the checks of WellFormed, the opcode table row by row, one step of each instruction on the spec's own vectors
(95_test_vectors.md), and for every obligation with hypotheses a concrete state and operands that meet them. Every expected
value is the spec's; the id of the vector stands beside it. -/

namespace Sys2Proof.Tests

open Sys2Proof.Machine

/-! ## Helpers -/

/-- The reset state with the given SFR and registers. -/
def start (sfr : Word) (rs : List (Reg × Word)) : State :=
  rs.foldl (fun s p => { s with regs := s.regs.set p.1 p.2 }) { State.reset with sfr := sfr }

/-- The state after one instruction (the state before it, were there a stop). -/
def after (i : Instr) (s : State) : State :=
  match exec i s with
  | .next t => t
  | .fault _ => s
  | .refused _ => s

/-- The state after one step. -/
def stepped (s : State) : State :=
  match step s with
  | .next t => t
  | .fault _ => s
  | .refused _ => s

/-- One register and SFR after one instruction. -/
def gives (i : Instr) (sfr : Word) (rs : List (Reg × Word)) (d : Reg) : Word × Word :=
  let t := after i (start sfr rs)
  (t.reg d, t.sfr)

/-- The number an entry point returns and the state after it. -/
def answered (o : Host.Outcome (Int × State) Fault Refusal) (s : State) : Int × State :=
  match o with
  | .next r => r
  | .fault _ => (0, s)
  | .refused _ => (0, s)

/-! ## WellFormed refuses an ill-formed term for each check (30_encoding.md R86) -/

theorem test_wf_stw : (Instr.stw 12).wellFormed = false := by decide
theorem test_wf_stb : (Instr.stb 12).wellFormed = false := by decide
theorem test_wf_ldw : (Instr.ldw 12).wellFormed = false := by decide
theorem test_wf_ldb : (Instr.ldb 15).wellFormed = false := by decide
theorem test_wf_and_bic : (Instr.and 0).wellFormed = false ∧ (Instr.bic 0).wellFormed = false := by decide
theorem test_wf_or_xor : (Instr.or 0).wellFormed = false ∧ (Instr.xor 0).wellFormed = false := by decide
theorem test_wf_andI_bicI : (Instr.andI 0).wellFormed = false ∧ (Instr.bicI 0).wellFormed = false := by decide
theorem test_wf_orI_xorI : (Instr.orI 0).wellFormed = false ∧ (Instr.xorI 0).wellFormed = false := by decide
theorem test_wf_inc_dec : (Instr.inc 15).wellFormed = false ∧ (Instr.dec 15).wellFormed = false := by decide
theorem test_wf_jmp : (Instr.jmp 7).wellFormed = false ∧ (Instr.jmp 14).wellFormed = false := by decide
theorem test_wf_ljmp : (Instr.ljmp 7).wellFormed = false ∧ (Instr.ljmp 14).wellFormed = false := by decide
theorem test_wf_link : (Instr.link 0).wellFormed = false ∧ (Instr.link 5).wellFormed = false := by decide

/-! ## Decoding: every row of spec/opcode_table.json

For each row two words, the row's `match` and the same with every free bit set, with the instruction the row's mnemonic and
field name. The words are the table's; the numbering is that of log 4. -/

/-- Each word of the list decodes to the instruction beside it. -/
def decodesAll (rows : List (Nat × Instr)) : Bool := rows.all fun p => decodeTableWord 16 p.1 == some p.2

theorem test_decode_0x :
    decodesAll [(0x000, .stop), (0x700, .stop), (0x001, .nop), (0x701, .nop), (0x002, .cache), (0x702, .cache), (0x003, .lsr),
      (0x703, .lsr), (0x004, .rol), (0x704, .rol), (0x005, .bra 0), (0x705, .bra 0)] ∧
    decodesAll [(0x006, .bge 0), (0x706, .bge 0), (0x007, .blt 0), (0x707, .blt 0), (0x008, .bne 0), (0x708, .bne 0),
      (0x009, .beq 0), (0x709, .beq 0), (0x00A, .bpl 0), (0x70A, .bpl 0), (0x00B, .bmi 0), (0x70B, .bmi 0)] ∧
    decodesAll [(0x00C, .bcc 0), (0x70C, .bcc 0), (0x00D, .bcs 0), (0x70D, .bcs 0), (0x00E, .bvc 0), (0x70E, .bvc 0),
      (0x00F, .bvs 0), (0x70F, .bvs 0)] := by decide

theorem test_decode_1x :
    decodesAll [(0x010, .toR 0), (0x31F, .toR 15), (0x410, .move 0), (0x71F, .move 15)] := by decide

theorem test_decode_2x :
    decodesAll [(0x020, .withR 0), (0x72F, .withR 15)] := by decide

theorem test_decode_3x :
    decodesAll [(0x030, .stw 0), (0x637, .stw 7), (0x130, .stb 0), (0x737, .stb 7), (0x038, .stw 8), (0x63B, .stw 11),
      (0x138, .stb 8), (0x73B, .stb 11), (0x03C, .loop), (0x73C, .loop), (0x03D, .alt1), (0x73D, .alt1)] ∧
    decodesAll [(0x03E, .alt2), (0x73E, .alt2), (0x03F, .alt3), (0x73F, .alt3)] := by decide

theorem test_decode_4x :
    decodesAll [(0x040, .ldw 0), (0x647, .ldw 7), (0x140, .ldb 0), (0x747, .ldb 7), (0x048, .ldw 8), (0x64B, .ldw 11),
      (0x148, .ldb 8), (0x74B, .ldb 11), (0x04C, .plot), (0x64C, .plot), (0x14C, .rpix), (0x74C, .rpix)] ∧
    decodesAll [(0x04D, .swap), (0x74D, .swap), (0x04E, .color), (0x64E, .color), (0x14E, .cmode), (0x74E, .cmode),
      (0x04F, .not), (0x74F, .not)] := by decide

theorem test_decode_5x :
    decodesAll [(0x050, .add 0), (0x450, .add 0), (0x150, .adc 0), (0x550, .adc 0), (0x250, .addI 0), (0x650, .addI 0),
      (0x350, .adcI 0), (0x750, .adcI 0), (0x051, .add 1), (0x451, .add 1), (0x151, .adc 1), (0x551, .adc 1)] ∧
    decodesAll [(0x251, .addI 1), (0x651, .addI 1), (0x351, .adcI 1), (0x751, .adcI 1), (0x052, .add 2), (0x453, .add 3),
      (0x152, .adc 2), (0x553, .adc 3), (0x252, .addI 2), (0x653, .addI 3), (0x352, .adcI 2), (0x753, .adcI 3)] ∧
    decodesAll [(0x054, .add 4), (0x457, .add 7), (0x154, .adc 4), (0x557, .adc 7), (0x254, .addI 4), (0x657, .addI 7),
      (0x354, .adcI 4), (0x757, .adcI 7), (0x058, .add 8), (0x45F, .add 15), (0x158, .adc 8), (0x55F, .adc 15)] ∧
    decodesAll [(0x258, .addI 8), (0x65F, .addI 15), (0x358, .adcI 8), (0x75F, .adcI 15)] := by decide

theorem test_decode_6x :
    decodesAll [(0x060, .sub 0), (0x46F, .sub 15), (0x160, .sbc 0), (0x56F, .sbc 15), (0x260, .subI 0), (0x66F, .subI 15),
      (0x360, .cmp 0), (0x76F, .cmp 15)] := by decide

theorem test_decode_7x :
    decodesAll [(0x070, .merge), (0x770, .merge), (0x071, .and 1), (0x471, .and 1), (0x171, .bic 1), (0x571, .bic 1),
      (0x271, .andI 1), (0x671, .andI 1), (0x371, .bicI 1), (0x771, .bicI 1), (0x072, .and 2), (0x473, .and 3)] ∧
    decodesAll [(0x172, .bic 2), (0x573, .bic 3), (0x272, .andI 2), (0x673, .andI 3), (0x372, .bicI 2), (0x773, .bicI 3),
      (0x074, .and 4), (0x477, .and 7), (0x174, .bic 4), (0x577, .bic 7), (0x274, .andI 4), (0x677, .andI 7)] ∧
    decodesAll [(0x374, .bicI 4), (0x777, .bicI 7), (0x078, .and 8), (0x47F, .and 15), (0x178, .bic 8), (0x57F, .bic 15),
      (0x278, .andI 8), (0x67F, .andI 15), (0x378, .bicI 8), (0x77F, .bicI 15)] := by decide

theorem test_decode_8x :
    decodesAll [(0x080, .mult 0), (0x48F, .mult 15), (0x180, .umult 0), (0x58F, .umult 15), (0x280, .multI 0),
      (0x68F, .multI 15), (0x380, .umultI 0), (0x78F, .umultI 15)] := by decide

theorem test_decode_9x :
    decodesAll [(0x090, .sbk), (0x790, .sbk), (0x091, .link 1), (0x791, .link 1), (0x092, .link 2), (0x793, .link 3),
      (0x094, .link 4), (0x794, .link 4), (0x095, .sex), (0x795, .sex), (0x096, .asr), (0x696, .asr)] ∧
    decodesAll [(0x196, .div2), (0x796, .div2), (0x097, .ror), (0x797, .ror), (0x098, .jmp 8), (0x69B, .jmp 11),
      (0x198, .ljmp 8), (0x79B, .ljmp 11), (0x09C, .jmp 12), (0x69D, .jmp 13), (0x19C, .ljmp 12), (0x79D, .ljmp 13)] ∧
    decodesAll [(0x09E, .lob), (0x79E, .lob), (0x09F, .fmult), (0x69F, .fmult), (0x19F, .lmult), (0x79F, .lmult)] := by decide

theorem test_decode_Ax :
    decodesAll [(0x0A0, .ibt 0 0), (0x4AF, .ibt 15 0), (0x1A0, .lms 0 0), (0x7AF, .lms 15 0), (0x2A0, .sms 0 0),
      (0x6AF, .sms 15 0)] := by decide

theorem test_decode_Bx :
    decodesAll [(0x0B0, .fromR 0), (0x3BF, .fromR 15), (0x4B0, .moves 0), (0x7BF, .moves 15)] := by decide

theorem test_decode_Cx :
    decodesAll [(0x0C0, .hib), (0x7C0, .hib), (0x0C1, .or 1), (0x4C1, .or 1), (0x1C1, .xor 1), (0x5C1, .xor 1), (0x2C1, .orI 1),
      (0x6C1, .orI 1), (0x3C1, .xorI 1), (0x7C1, .xorI 1), (0x0C2, .or 2), (0x4C3, .or 3)] ∧
    decodesAll [(0x1C2, .xor 2), (0x5C3, .xor 3), (0x2C2, .orI 2), (0x6C3, .orI 3), (0x3C2, .xorI 2), (0x7C3, .xorI 3),
      (0x0C4, .or 4), (0x4C7, .or 7), (0x1C4, .xor 4), (0x5C7, .xor 7), (0x2C4, .orI 4), (0x6C7, .orI 7)] ∧
    decodesAll [(0x3C4, .xorI 4), (0x7C7, .xorI 7), (0x0C8, .or 8), (0x4CF, .or 15), (0x1C8, .xor 8), (0x5CF, .xor 15),
      (0x2C8, .orI 8), (0x6CF, .orI 15), (0x3C8, .xorI 8), (0x7CF, .xorI 15)] := by decide

theorem test_decode_Dx :
    decodesAll [(0x0D0, .inc 0), (0x7D7, .inc 7), (0x0D8, .inc 8), (0x7DB, .inc 11), (0x0DC, .inc 12), (0x7DD, .inc 13),
      (0x0DE, .inc 14), (0x7DE, .inc 14), (0x0DF, .getc), (0x5DF, .getc), (0x2DF, .ramb), (0x6DF, .ramb)] ∧
    decodesAll [(0x3DF, .romb), (0x7DF, .romb)] := by decide

theorem test_decode_Ex :
    decodesAll [(0x0E0, .dec 0), (0x7E7, .dec 7), (0x0E8, .dec 8), (0x7EB, .dec 11), (0x0EC, .dec 12), (0x7ED, .dec 13),
      (0x0EE, .dec 14), (0x7EE, .dec 14), (0x0EF, .getb), (0x4EF, .getb), (0x1EF, .getbh), (0x5EF, .getbh)] ∧
    decodesAll [(0x2EF, .getbl), (0x6EF, .getbl), (0x3EF, .getbs), (0x7EF, .getbs)] := by decide

theorem test_decode_Fx :
    decodesAll [(0x0F0, .iwt 0 0), (0x4FF, .iwt 15 0), (0x1F0, .lm 0 0), (0x7FF, .lm 15 0), (0x2F0, .sm 0 0), (0x6FF, .sm 15 0)] := by decide

/-- F3 34 12 is IWT R3,#1234 (V-L3), 3D F3 35 12 is LM (V-L10), 3E F3 00 40 is SM (V-L11), A3 80 is IBT R3,#80 (V-L1). -/
theorem test_decode_immediates :
    decode specOpTable (Mode.ofPage 0) [0xF3, 0x34, 0x12, 0x01] = .ok (.iwt 3 0x1234, [0x01]) ∧
    decode specOpTable (Mode.ofPage 1) [0xF3, 0x35, 0x12] = .ok (.lm 3 0x1235, []) ∧
    decode specOpTable (Mode.ofPage 2) [0xF3, 0x00, 0x40] = .ok (.sm 3 0x4000, []) ∧
    decode specOpTable (Mode.ofPage 0) [0xA3, 0x80] = .ok (.ibt 3 0x80, []) := by decide

/-- Too few bytes are rejected by name. -/
theorem test_decode_short :
    decode specOpTable (Mode.ofPage 0) [] = .error .noOpcodeByte ∧ decode specOpTable (Mode.ofPage 0) [0x05] = .error (.missingImmediate 0x05) ∧
    decode specOpTable (Mode.ofPage 0) [0xF3, 0x34] = .error (.missingImmediate 0xF3) := by decide

/-- Bytes after the key in a table word: bits 23:16, then 31:24 (log 4). -/
theorem test_decode_table_immediates :
    decodeTableWord 32 0x123400F3 = some (.iwt 3 0x1234) ∧ decodeTableWord 24 0x8000A3 = some (.ibt 3 0x80) ∧
    decodeTableWord 16 0x123400F3 = some (.iwt 3 0x0000) := by decide

/-- A placed word is the next instruction: V-A13's SBC R1 and V-L3's IWT from the reset state. -/
theorem test_placed_word :
    (State.reset.withFetchWord 16 0x161).fetched = .sbc 1 ∧ (State.reset.withFetchWord 32 0x123400F3).fetched = .iwt 3 0x1234 ∧
    (stepped (State.reset.withFetchWord 32 0x123400F3)).reg 3 = 0x1234 := by decide

/-- 30_encoding.md R92: MOVE Rd,Rs is 2s 1d; MOVE Rd,#xx takes IBT when xx fits; the short form for an even address below 200. -/
theorem test_pseudo :
    (Pseudo.moveRR 5 3).expand = [0x23, 0x15] ∧ (Pseudo.movesRR 5 3).expand = [0x25, 0xB3] ∧
    (Pseudo.moveImm 3 0xFF80).expand = [0xA3, 0x80] ∧ (Pseudo.moveImm 3 0x0080).expand = [0xF3, 0x80, 0x00] ∧
    (Pseudo.moveLoad 3 0x0010).expand = [0x3D, 0xA3, 0x08] ∧ (Pseudo.moveStore 0x4000 3).expand = [0x3E, 0xF3, 0x00, 0x40] ∧
    (Pseudo.movebLoad 4 1).expand = [0x14, 0x3D, 0x41] ∧ (Pseudo.movewStore 1 5).expand = [0xB5, 0x31] := by decide

/-! ## One step of each instruction, on the vectors of 95_test_vectors.md part 2 -/

/-- V-C2, V-C3: CFGR bit 7 masks the request. -/
theorem test_stop : (after .stop (start 0x20 [])).sfr = 0x8000 ∧
    (after .stop { start 0x20 [] with cfgr := 0x80 }).sfr = 0 ∧ (after .stop { start 0x20 [] with pipe := 0x53 }).pipe = 0x01 := by
  decide
/-- V-C1, V-C4: NOP clears the page. -/
theorem test_nop : gives .nop 0x120 [(15, 0x8001)] 15 = (0x8002, 0x20) := by decide
/-- V-C6: CACHE at 8013, R15 one past it. -/
theorem test_cache : (after .cache (start 0x20 [(15, 0x8014)])).cbr = 0x8010 ∧
    (after .cache (start 0x20 [(15, 0x8014)])).cvalid = 0xFFFF := by decide
/-- A window already anchored there keeps its bits (20_memory.md R68). -/
theorem test_cache_same : (after .cache { start 0x20 [(15, 0x8014)] with cbr := 0x8010, cacheActive := true, cvalid := 1 }).cvalid = 1 := by
  decide
/-- V-A30, V-A31. -/
theorem test_lsr : gives .lsr 0 [(0, 1)] 0 = (0, 0x06) ∧ gives .lsr 0 [(0, 0x8000)] 0 = (0x4000, 0) := by decide
/-- V-A32, V-A33. -/
theorem test_rol : gives .rol 0 [(0, 0x8000)] 0 = (0, 0x06) ∧ gives .rol 4 [(0, 0x4000)] 0 = (0x8001, 0x08) := by decide
/-- V-A34, V-A35. -/
theorem test_asr : gives .asr 0 [(0, 0x8001)] 0 = (0xC000, 0x0C) ∧ gives .asr 0 [(0, 0xFFFF)] 0 = (0xFFFF, 0x0C) := by decide
/-- V-A36, V-A37. -/
theorem test_div2 : gives .div2 0x100 [(0, 0xFFFF)] 0 = (0, 0x06) ∧ gives .div2 0x100 [(0, 0xFFFD)] 0 = (0xFFFE, 0x0C) := by decide
/-- V-A39, V-A40. -/
theorem test_ror : gives .ror 0 [(0, 1)] 0 = (0, 0x06) ∧ gives .ror 4 [(0, 0)] 0 = (0x8000, 0x08) := by decide
/-- The branch table: R15 is 8001 when the branch runs, taken gives 8006 and not taken 8003. The delay slot's byte is in the pipe. -/
theorem test_bra : gives (.bra 4) 0x20 [(15, 0x8001)] 15 = (0x8006, 0x20) := by decide
theorem test_bra_back : gives (.bra 0xF8) 0x20 [(15, 0x800C)] 15 = (0x8005, 0x20) := by decide
theorem test_bge : gives (.bge 4) 0x38 [(15, 0x8001)] 15 = (0x8006, 0x38) ∧ gives (.bge 4) 0x28 [(15, 0x8001)] 15 = (0x8003, 0x28) := by decide
theorem test_blt : gives (.blt 4) 0x28 [(15, 0x8001)] 15 = (0x8006, 0x28) ∧ gives (.blt 4) 0x38 [(15, 0x8001)] 15 = (0x8003, 0x38) := by decide
theorem test_bne : gives (.bne 4) 0x20 [(15, 0x8001)] 15 = (0x8006, 0x20) ∧ gives (.bne 4) 0x22 [(15, 0x8001)] 15 = (0x8003, 0x22) := by decide
theorem test_beq : gives (.beq 4) 0x22 [(15, 0x8001)] 15 = (0x8006, 0x22) ∧ gives (.beq 4) 0x20 [(15, 0x8001)] 15 = (0x8003, 0x20) := by decide
theorem test_bpl : gives (.bpl 4) 0x20 [(15, 0x8001)] 15 = (0x8006, 0x20) ∧ gives (.bpl 4) 0x28 [(15, 0x8001)] 15 = (0x8003, 0x28) := by decide
theorem test_bmi : gives (.bmi 4) 0x28 [(15, 0x8001)] 15 = (0x8006, 0x28) ∧ gives (.bmi 4) 0x20 [(15, 0x8001)] 15 = (0x8003, 0x20) := by decide
theorem test_bcc : gives (.bcc 4) 0x20 [(15, 0x8001)] 15 = (0x8006, 0x20) ∧ gives (.bcc 4) 0x24 [(15, 0x8001)] 15 = (0x8003, 0x24) := by decide
theorem test_bcs : gives (.bcs 4) 0x24 [(15, 0x8001)] 15 = (0x8006, 0x24) ∧ gives (.bcs 4) 0x20 [(15, 0x8001)] 15 = (0x8003, 0x20) := by decide
theorem test_bvc : gives (.bvc 4) 0x20 [(15, 0x8001)] 15 = (0x8006, 0x20) ∧ gives (.bvc 4) 0x30 [(15, 0x8001)] 15 = (0x8003, 0x30) := by decide
theorem test_bvs : gives (.bvs 4) 0x30 [(15, 0x8001)] 15 = (0x8006, 0x30) ∧ gives (.bvs 4) 0x20 [(15, 0x8001)] 15 = (0x8003, 0x20) := by decide
/-- V-C7 to V-C10. -/
theorem test_to : (after (.toR 5) (start 0x20 [])).dreg = 5 ∧ (after (.toR 5) (start 0x20 [])).sreg = 0 := by decide
theorem test_with : (after (.withR 3) (start 0x20 [])).sreg = 3 ∧ (after (.withR 3) (start 0x20 [])).dreg = 3 ∧
    (after (.withR 3) (start 0x20 [])).sfr = 0x1020 := by decide
theorem test_from : (after (.fromR 7) (start 0x20 [])).sreg = 7 ∧ (after (.fromR 7) (start 0x20 [])).dreg = 0 := by decide
theorem test_alt1 : (after .alt1 { start 0x1020 [] with sreg := 3 }).sfr = 0x120 ∧ (after .alt1 { start 0x1020 [] with sreg := 3 }).sreg = 3 := by
  decide
theorem test_alt2 : (after .alt2 (start 0x20 [])).sfr = 0x220 := by decide
theorem test_alt3 : (after .alt3 (start 0x20 [])).sfr = 0x320 := by decide
/-- V-C11, V-C23: MOVE R3,R15 reads the address after the opcode. -/
theorem test_move : (after (.move 5) { start 0x1020 [(3, 0xBEEF)] with sreg := 3 }).reg 5 = 0xBEEF ∧
    (after (.move 3) { start 0x1020 [(15, 0x8002)] with sreg := 15 }).reg 3 = 0x8002 := by decide
/-- V-C12, V-C14. -/
theorem test_moves : (after (.moves 3) { start 0x1020 [(3, 0x80)] with dreg := 5 }).sfr = 0x30 ∧
    (after (.moves 3) { start 0x1020 [(5, 7)] with dreg := 5 }).sfr = 0x22 := by decide
/-- V-C16, V-C17. -/
theorem test_loop : gives .loop 0x20 [(12, 1), (13, 0x9000), (15, 0x8001)] 15 = (0x8002, 0x22) ∧
    gives .loop 0x20 [(12, 0), (13, 0x9000), (15, 0x8001)] 15 = (0x9000, 0x28) := by decide
/-- V-C19, V-C20. -/
theorem test_link : gives (.link 4) 0x20 [(15, 0x8001)] 11 = (0x8005, 0x20) ∧ gives (.link 1) 0x20 [(15, 0x8001)] 11 = (0x8002, 0x20) := by decide
/-- V-C21. -/
theorem test_jmp : gives (.jmp 8) 0x20 [(8, 0x9000), (15, 0x8001)] 15 = (0x9000, 0x20) := by decide
/-- V-C22. -/
theorem test_ljmp : (after (.ljmp 9) (start 0x120 [(0, 0x4321), (9, 0x145)])).pbr = 0x45 ∧
    (after (.ljmp 9) (start 0x120 [(0, 0x4321), (9, 0x145)])).cbr = 0x4320 ∧
    (after (.ljmp 9) (start 0x120 [(0, 0x4321), (9, 0x145)])).pc = 0x4321 := by decide
/-- V-A1, V-A3. -/
theorem test_add : gives (.add 1) 0 [(0, 0x7FFF), (1, 1)] 0 = (0x8000, 0x18) ∧ gives (.add 1) 0 [(0, 0x8000), (1, 0x8000)] 0 = (0, 0x16) := by
  decide
/-- V-C15: S and D by TO and FROM. -/
theorem test_add_prefixed : (after (.add 3) { start 0 [(1, 9), (2, 0x100), (3, 0x23)] with sreg := 2, dreg := 1 }).reg 1 = 0x123 := by decide
/-- V-A5, V-A6. -/
theorem test_adc : gives (.adc 1) 0x104 [(0, 0xFFFF)] 0 = (0, 0x06) ∧ gives (.adc 1) 0x104 [(0, 0x7FFF)] 0 = (0x8000, 0x18) := by decide
/-- V-A7. -/
theorem test_addI : gives (.addI 15) 0x200 [(0, 1)] 0 = (0x10, 0) := by decide
/-- V-A8. -/
theorem test_adcI : gives (.adcI 0) 0x304 [(0, 0xFFFF)] 0 = (0, 0x06) := by decide
/-- V-A9, V-A10. -/
theorem test_sub : gives (.sub 1) 0 [(1, 1)] 0 = (0xFFFF, 0x08) ∧ gives (.sub 1) 0 [(0, 0x8000), (1, 1)] 0 = (0x7FFF, 0x14) := by decide
/-- V-A13, V-A15. -/
theorem test_sbc : gives (.sbc 1) 0x100 [(0, 5), (1, 3)] 0 = (1, 0x04) ∧ gives (.sbc 1) 0x100 [] 0 = (0xFFFF, 0x08) := by decide
/-- V-A16. -/
theorem test_subI : gives (.subI 1) 0x200 [] 0 = (0xFFFF, 0x08) := by decide
/-- V-A17, V-A19. -/
theorem test_cmp : gives (.cmp 1) 0x300 [(0, 0x1234), (1, 0x1234)] 0 = (0x1234, 0x06) ∧
    gives (.cmp 1) 0x300 [(0, 0x8000), (1, 1)] 0 = (0x8000, 0x14) := by decide
/-- V-A66, V-A67. -/
theorem test_inc : gives (.inc 3) 0 [(3, 0xFFFF)] 3 = (0, 0x02) ∧ gives (.inc 3) 0 [(3, 0x7FFF)] 3 = (0x8000, 0x08) := by decide
/-- V-A68, V-A69. -/
theorem test_dec : gives (.dec 3) 0 [] 3 = (0xFFFF, 0x08) ∧ gives (.dec 3) 0 [(3, 1)] 3 = (0, 0x02) := by decide
/-- V-L18: INC R14 re-arms the ROM buffer; ROM buffer offset 209001 is bank 00, address 9001. -/
theorem test_inc_r14 : (after (.inc 14) { start 0 [(14, 0x9000)] with rom := [(0x209000, 0x85), (0x209001, 0x7F)] }).rombuf = 0x7F := by
  decide
/-- V-A20 to V-A29. -/
theorem test_and : gives (.and 1) 0x14 [(0, 0xF0F0), (1, 0x3C3C)] 0 = (0x3030, 0x14) := by decide
theorem test_bic : gives (.bic 1) 0x100 [(0, 0xF0F0), (1, 0x3C3C)] 0 = (0xC0C0, 0x08) := by decide
theorem test_andI : gives (.andI 1) 0x200 [(0, 0xFFFE)] 0 = (0, 0x02) := by decide
theorem test_bicI : gives (.bicI 15) 0x300 [(0, 0xFFFF)] 0 = (0xFFF0, 0x08) := by decide
theorem test_or : gives (.or 1) 0 [(0, 0x8000), (1, 1)] 0 = (0x8001, 0x08) := by decide
theorem test_xor : gives (.xor 1) 0x100 [(0, 0xFFFF), (1, 0xFFFF)] 0 = (0, 0x02) := by decide
theorem test_orI : gives (.orI 8) 0x200 [] 0 = (8, 0) := by decide
theorem test_xorI : gives (.xorI 15) 0x300 [(0, 15)] 0 = (0, 0x02) := by decide
theorem test_not : gives .not 0 [] 0 = (0xFFFF, 0x08) ∧ gives .not 0 [(0, 0xFFFF)] 0 = (0, 0x02) := by decide
/-- V-A41 to V-A51. -/
theorem test_swap : gives .swap 0 [(0, 0x12FF)] 0 = (0xFF12, 0x08) := by decide
theorem test_sex : gives .sex 0 [(0, 0x80)] 0 = (0xFF80, 0x08) ∧ gives .sex 0 [(0, 0x127F)] 0 = (0x7F, 0) := by decide
theorem test_lob : gives .lob 0 [(0, 0x1280)] 0 = (0x80, 0x08) ∧ gives .lob 0 [(0, 0xFF00)] 0 = (0, 0x02) := by decide
theorem test_hib : gives .hib 0 [(0, 0x8012)] 0 = (0x80, 0x08) ∧ gives .hib 0 [(0, 0xFF)] 0 = (0, 0x02) := by decide
theorem test_merge : gives .merge 0 [(7, 0x12FF), (8, 0x34FF)] 0 = (0x1234, 0x06) ∧ gives .merge 0x1E [] 0 = (0, 0) := by decide
/-- V-A52 to V-A65. -/
theorem test_mult : gives (.mult 1) 0 [(0, 0xFF), (1, 0xFF)] 0 = (1, 0) ∧ gives (.mult 1) 0 [(0, 0x1280), (1, 2)] 0 = (0xFF00, 0x08) := by decide
theorem test_umult : gives (.umult 1) 0x100 [(0, 0xFF), (1, 0xFF)] 0 = (0xFE01, 0x08) := by decide
theorem test_multI : gives (.multI 15) 0x200 [(0, 0xFF)] 0 = (0xFFF1, 0x08) := by decide
theorem test_umultI : gives (.umultI 15) 0x300 [(0, 0xFF)] 0 = (0x0EF1, 0) := by decide
theorem test_fmult : gives .fmult 0 [(0, 1), (6, 0x8000)] 0 = (0xFFFF, 0x0C) ∧ gives .fmult 0 [(0, 0x8000), (6, 0x8000)] 0 = (0x4000, 0) := by decide
theorem test_lmult : gives .lmult 0x100 [(0, 0x1234), (6, 0x5678)] 4 = (0x0060, 0) ∧ gives .lmult 0x100 [(0, 0x1234), (6, 0x5678)] 0 = (0x0626, 0) := by
  decide
theorem test_lmult_r4 : (after .lmult { start 0x100 [(0, 2), (6, 3)] with dreg := 4 }).reg 4 = 0 := by decide
/-- V-L1, V-L3. -/
theorem test_ibt : gives (.ibt 3 0x80) 0x20 [] 3 = (0xFF80, 0x20) := by decide
theorem test_iwt : gives (.iwt 3 0x1234) 0x20 [] 3 = (0x1234, 0x20) ∧ gives (.iwt 3 0x1234) 0x20 [(15, 0x8001)] 15 = (0x8004, 0x20) := by decide
/-- V-C24: IWT to R15 transfers. -/
theorem test_iwt_r15 : gives (.iwt 15 0x9000) 0x20 [(15, 0x8001)] 15 = (0x9000, 0x20) := by decide
/-- V-M1, V-M2, V-M6. -/
theorem test_stw : (after (.stw 1) (start 0x20 [(0, 0xABCD), (1, 0x101)])).ram = [(0x100, 0xAB), (0x101, 0xCD)] := by decide
theorem test_stw_bank : (after (.stw 1) { start 0x20 [(0, 0xABCD), (1, 0x100)] with rambr := 1 }).ram = [(0x10100, 0xCD), (0x10101, 0xAB)] := by
  decide
/-- V-L4. -/
theorem test_stb : (after (.stb 1) (start 0x120 [(0, 0xABCD), (1, 0x101)])).ram = [(0x101, 0xCD)] := by decide
/-- V-M4, V-M5. -/
theorem test_ldw : (after (.ldw 1) { start 0x20 [(1, 0x101)] with ram := [(0x100, 0x34), (0x101, 0x12)] }).reg 0 = 0x3412 := by decide
theorem test_ldw_top : (after (.ldw 1) { start 0x20 [(1, 0xFFFF)] with ram := [(0xFFFE, 0x34), (0xFFFF, 0x12)] }).reg 0 = 0x3412 := by decide
/-- V-L6. -/
theorem test_ldb : (after (.ldb 1) { start 0x120 [(1, 0x101), (4, 0xFFFF)] with dreg := 4, ram := [(0x101, 0x80)] }).reg 4 = 0x80 := by decide
/-- V-L7, its SBK. -/
theorem test_sbk : (after .sbk { start 0x20 [(0, 0x1235)] with lastRamAddr := 0x100 }).ram = [(0x100, 0x35), (0x101, 0x12)] := by decide
/-- V-L8 to V-L11. -/
theorem test_lms : (after (.lms 3 0x08) { start 0x120 [] with ram := [(0x10, 0x78), (0x11, 0x56)] }).reg 3 = 0x5678 := by decide
theorem test_sms : (after (.sms 3 0xFF) (start 0x220 [(3, 0xCAFE)])).ram = [(0x1FE, 0xFE), (0x1FF, 0xCA)] := by decide
theorem test_lm : (after (.lm 3 0x1235) { start 0x120 [] with ram := [(0x1234, 0x78), (0x1235, 0x56)] }).reg 3 = 0x7856 := by decide
theorem test_sm : (after (.sm 3 0x4000) (start 0x220 [(3, 0xCAFE)])).ram = [(0x4000, 0xFE), (0x4001, 0xCA)] := by decide
/-- V-L12, V-L13. -/
theorem test_ramb : (after .ramb (start 0x220 [(0, 7)])).rambr = 3 := by decide
theorem test_romb : (after .romb (start 0x320 [(0, 0xC5)])).rombr = 0x45 := by decide
/-- V-L14 to V-L17, from a ROM buffer that holds 85. -/
theorem test_getb : (after .getb { start 0x20 [] with rombuf := 0x85 }).reg 0 = 0x85 := by decide
theorem test_getbh : (after .getbh { start 0x120 [(0, 0x1234)] with rombuf := 0x85 }).reg 0 = 0x8534 := by decide
theorem test_getbl : (after .getbl { start 0x220 [(0, 0x1234)] with rombuf := 0x85 }).reg 0 = 0x1285 := by decide
theorem test_getbs : (after .getbs { start 0x320 [] with rombuf := 0x85 }).reg 0 = 0xFF85 := by decide
/-- V-P18, V-P19, V-P21. -/
theorem test_color : (after .color { start 0x20 [(0, 0xFFA5)] with por := 0x04 }).colr = 0xAA ∧
    (after .color { start 0x20 [(0, 0xFFA5)] with por := 0x08, colr := 0x12 }).colr = 0x15 := by decide
theorem test_getc : (after .getc { start 0x20 [] with rombuf := 0x3C }).colr = 0x3C := by decide
/-- V-P9, its CMODE. -/
theorem test_cmode : (after .cmode (start 0x120 [(0, 0x10)])).por = 0x10 ∧ (after .cmode (start 0x120 [(0, 0x10)])).height = 256 := by decide
/-- V-P1, V-P4. -/
theorem test_plot : (after .plot { start 0x20 [(1, 9), (2, 10)] with colr := 3, scmr := 0x10 }).ram = [(0x114, 0x40), (0x115, 0x40)] := by decide
theorem test_plot_eight : (after .plot { start 0x20 [(1, 7), (2, 1)] with colr := 0xA5, scmr := 0x13 }).ram =
    [(2, 1), (0x12, 1), (0x23, 1), (0x33, 1)] := by decide
/-- V-P14, V-P7: dither takes the high nibble on odd parity; y = 128 is outside a screen of 128. -/
theorem test_plot_dither : (after .plot { start 0x20 [(1, 9), (2, 10)] with colr := 0x21, por := 2 }).ram = [(0x115, 0x40)] := by decide
theorem test_plot_outside : (after .plot { start 0x20 [(1, 9), (2, 0x80)] with colr := 3 }).ram = [] ∧
    (after .plot { start 0x20 [(1, 9), (2, 0x80)] with colr := 3 }).reg 1 = 10 := by decide
/-- V-P11, V-P12. -/
theorem test_rpix : (after .rpix { start 0x120 [(1, 7), (2, 1)] with
      dreg := 3, scmr := 0x13, ram := [(2, 1), (0x12, 1), (0x23, 1), (0x33, 1)] }).reg 3 = 0xA5 := by decide
theorem test_rpix_outside : gives .rpix 0x120 [(0, 0x55), (1, 9), (2, 0x80)] 0 = (0x55, 0x20) := by decide

/-! ## The machine around the instructions -/

/-- The bank table of 95_test_vectors.md part 2 section 2, NROM = 8, 1, 3 and 64 (capped). -/
theorem test_bank_table :
    (bankTable (specConfig 8 2) 0x48).2 = 0 ∧ (bankTable (specConfig 8 2) 0x3F).2 = 0x2F0000 ∧
    (bankTable (specConfig 1 2) 0x7F).2 = 0x10000 ∧ (bankTable (specConfig 3 2) 0x3F).2 = 0x230000 ∧
    (bankTable (specConfig 3 2) 0x10).2 = 0x240000 ∧ (bankTable (specConfig 64 2) 0x3F).2 = 0x5F0000 ∧
    (bankTable (specConfig 64 2) 0xF0) = (.rom, 0x100000) ∧ bankTable (specConfig 8 2) 0x73 = (.ram, 0x10000) := by decide

/-- Geometry: SCMR 24, 23 and the sprite layout of part 2 section 6. -/
theorem test_geometry : pixOff 2 128 9 10 = 276 ∧ pixOff 8 192 255 191 = 49102 ∧ pixOff 8 256 255 255 = 65486 ∧
    screenSize 2 160 = 10240 ∧ colptr 2 256 31 = 12032 ∧ xoff 8 256 31 = 17344 := by decide

/-- T3: the first step after reset is the NOP in the pipe, and it loads the pipe from 8000. -/
theorem test_first_step : (stepped { start 0x20 [(15, 0x8000)] with rom := [(0x208000, 0xD1)] }).pipe = 0xD1 ∧
    (stepped { start 0x20 [(15, 0x8000)] with rom := [(0x208000, 0xD1)] }).pc = 0x8001 := by decide

/-- V-H4: the byte stored over is the one after the pipe's; the pipe keeps the old one. -/
theorem test_pipe_is_stale : (stepped { start 0x120 [(0, 0xD2), (1, 0x407), (15, 0x407)] with
    pbr := 0x70, pipe := 0x31, ram := [(0x407, 0xD3)] }).pipe = 0xD3 := by decide

/-- The start check table: PBR 5F runs under RON, 60 does not, 70 needs RAN. -/
theorem test_start_check :
    ({ start 0x20 [(15, 0x1234)] with pbr := 0x5F, scmr := 0x10 }).startAllowed = true ∧
    ({ start 0x20 [] with pbr := 0x60, scmr := 0x18 }).startAllowed = false ∧
    ({ start 0x20 [] with pbr := 0x70, scmr := 0x10 }).startAllowed = false ∧
    ({ start 0x20 [(15, 5)] with pbr := 0x60, cacheActive := true, cbr := 0xFFF0 }).startAllowed = true := by decide

/-- V-S2: `emulate(0)` loads R15 from the image and runs nothing. -/
theorem test_emulate_zero :
    (answered (emulate 0 { State.reset with image := [(0x1E, 0x34), (0x1F, 0x92), (0x30, 0x20), (0x3A, 0x10)] }) State.reset).2.pc = 0x9234 := by
  decide

/-- The start check's second row: returns 0 with err = -2 and GO = 0. -/
theorem test_illegal_start :
    (answered (emulate 0 { State.reset with image := [(0x30, 0x20), (0x3A, 0x08)] }) State.reset).2.err = -2 ∧
    (answered (emulate 0 { State.reset with image := [(0x30, 0x20), (0x3A, 0x08)] }) State.reset).2.running = false := by decide

/-- V-S3: RAMBR keeps two bits. -/
theorem test_image_rambr : ({ State.reset with image := [(0x3C, 0xFF)] }).loadImage.rambr = 3 := by decide

/-- A bank count of 0, a ROM or a RAM buffer one byte short, and content outside its buffer are refused at reset
(70_reset_and_hazards.md R301); NROM = 8 needs 300000 bytes of ROM, NRAM = 2 20000 of RAM (20_memory.md R53). -/
theorem test_bad_configuration : (resetWith (specConfig 0 2) [] [] matches .refused .badConfiguration) = true ∧
    (resetWith { specConfig 8 2 with romSize := 0x2FFFFF } [] [] matches .refused .badConfiguration) = true ∧
    (resetWith { specConfig 8 2 with ramSize := 0x1FFFF } [] [] matches .refused .badConfiguration) = true ∧
    (resetWith (specConfig 8 2) [] [(0x300000, 1)] matches .refused .badConfiguration) = true ∧
    (resetWith { specConfig 8 2 with romSize := 0x300000, ramSize := 0x20000 } [(0x1FFFF, 1)] [(0x2FFFFF, 1)] matches .next _) = true := by
  decide

/-- A host write to ROM lands in the buffer and nowhere past it (log 17). -/
theorem test_host_rom : (hostWriteRom 0x2FFFFF 7 State.reset).rom = [(0x2FFFFF, 7)] ∧ (hostWriteRom 0x300000 7 State.reset).rom = [] := by
  decide

/-! ## Witnesses: every obligation with hypotheses has a state and operands that meet them all -/

/-- The reset state about to run the byte `op` with the ROM byte 0 after it. -/
def poised (op : Byte) : State := { start 0x20 [(15, 0x8001)] with pipe := op }

theorem witness_decodeOfEncode : (Instr.stw 11).wellFormed ∧ (Instr.inc 14).wellFormed ∧ (Instr.link 4).wellFormed ∧
    (Instr.jmp 8).wellFormed ∧ (Instr.ljmp 13).wellFormed ∧ (Instr.xorI 1).wellFormed ∧ (Instr.sm 15 0xFFFF).wellFormed := by decide

theorem witness_pageAndB : pageSensitive 0x3C = false ∧ pageSensitive 0x70 = false ∧ (Mode.ofPage 0).b = (Mode.ofPage 3).b ∧
    readsB 0x0F = false ∧ readsB 0x20 = false ∧ readsB 0xAF = false ∧ readsB 0xC0 = false := by decide

theorem witness_stepRuns : (poised 0x53).flag bitGO = true ∧
    decode (poised 0x53).config.opTable (poised 0x53).mode [(poised 0x53).pipe, (poised 0x53).prgRead (poised 0x53).pc, (poised 0x53).prgRead ((poised 0x53).pc + 1)]
      = .ok (.add 3, [0, 0]) := by decide

theorem witness_stopped : (start 0 []).flag bitGO = false := by decide

theorem witness_placedWord : decodeTableWord 32 0x123401F3 = some (.lm 3 0x1234) ∧ State.reset.config.opTable = specOpTable :=
  ⟨by decide, rfl⟩

/-- Another opcode map is another machine (00_scope.md R5): with a map of one entry every byte is a NOP. -/
theorem test_other_map :
    ({ poised 0x53 with config := { (poised 0x53).config with opTable := .entry .nop } }).fetched = .nop := by decide

theorem witness_pipeHolds : (poised 0xF3).flag bitGO = true ∧ (poised 0xF3).fetched ≠ .stop := by decide

theorem witness_keepsPrefix : keepsPrefix .nop = false ∧ keepsPrefix (.inc 14) = false := by decide

/-- Each branch condition holds of some state and fails of some state. -/
theorem witness_branches :
    (start 0 []).flag bitSG = (start 0 []).flag bitOV ∧ (start 0x08 []).flag bitSG ≠ (start 0x08 []).flag bitOV ∧
    (start 0 []).flag bitZ = false ∧ (start 0x02 []).flag bitZ = true ∧ (start 0 []).flag bitSG = false ∧
    (start 0x08 []).flag bitSG = true ∧ (start 0 []).flag bitCY = false ∧ (start 0x04 []).flag bitCY = true ∧
    (start 0 []).flag bitOV = false ∧ (start 0x10 []).flag bitOV = true := by decide

/-- Both ends of LOOP are reached. -/
theorem witness_loop : (after .loop (start 0x20 [(12, 1)])).reg 12 = 0 ∧ (after .loop (start 0x20 [(12, 2)])).reg 12 ≠ 0 := by decide

theorem witness_linkJump : (Instr.link 1).wellFormed ∧ (Instr.link 4).wellFormed ∧ (Instr.jmp 8).wellFormed ∧ (Instr.jmp 13).wellFormed ∧
    (Instr.ljmp 8).wellFormed ∧ (Instr.ljmp 13).wellFormed := by decide

theorem witness_logic : (1 : Reg) ≠ 0 ∧ (15 : Reg) ≠ 0 ∧ (1 : Imm4) ≠ 0 ∧ (15 : Imm4) ≠ 0 := by decide

theorem witness_ranges : (14 : Reg).val ≤ 14 ∧ (0 : Reg).val ≤ 14 ∧ (11 : Reg).val ≤ 11 ∧ (0 : Reg).val ≤ 11 := by decide

/-- The destination clauses: D = R0 leaves R15 and R4 to their own clauses, D = R4 and D = R15 do not. -/
theorem witness_wordMultiplies : (start 0 []).dreg ≠ 4 ∧ (start 0 []).dreg ≠ 15 ∧
    (after .lmult { start 0x100 [(0, 0xFFFF), (6, 1), (15, 7)] with dreg := 15 }).pc = 0xFFFF := by decide

theorem witness_pages : (Mode.ofPage 1).page ∈ [1, 3] ∧ (Mode.ofPage 3).page ∈ [1, 3] ∧ (Mode.ofPage 2).page = 2 ∧ (Mode.ofPage 0).page = 0 := by
  decide

theorem witness_wordAccess : (0xFFFF : Word).toNat % 2 = 1 ∧ (1 : Word).toNat % 2 = 1 := by decide

/-- The clauses of the bank table at the ends of their ranges: 70 and 73 in RAM; 6F, 74, 40, 7F and the folded F0 in the primary
region; 3F and the folded 80 in the extended one. -/
theorem witness_banks : 0 < (specConfig 1 1).nrom ∧ 0 < (specConfig 1 1).nram ∧ 0 < (specConfig 1 1).romBankMax ∧
    (bankTable (specConfig 1 1) 0x70).1 = .ram ∧ (bankTable (specConfig 1 1) 0x73).1 = .ram ∧
    [0x6F, 0x74, 0x40, 0x7F, 0xF0].all (fun i : Byte => decide (¬(0x70 ≤ i.toNat ∧ i.toNat ≤ 0x73) ∧ 0x40 ≤ i.toNat % 128)) ∧
    [0x00, 0x3F, 0x80, 0xBF].all (fun i : Byte => decide (i.toNat % 128 < 0x40)) ∧
    bankTable (specConfig 8 2) 0x80 = (.rom, 0x200000) ∧ Memory.wf [(5, 7)] ∧ Memory.below [(5, 7)] (specConfig 1 1).ramSize := by
  decide

theorem witness_changingR14 : (∃ t, exec (.inc 14) (start 0x20 []) = .next t) ∧
    (after (.inc 14) (start 0x20 [])).reg 14 ≠ (start 0x20 []).reg 14 := ⟨⟨_, rfl⟩, by decide⟩

/-- The tracking clause holds of a byte of sub-block 15 and of no byte past the window's end. -/
theorem witness_tracking :
    ({ start 0x20 [] with pbr := 0x70, cbr := 0x100, cacheActive := true, cvalid := 0xFFFF }).trackedBlock 0x2FF = some 15 ∧
    ({ start 0x20 [] with pbr := 0x70, cbr := 0x100, cacheActive := true, cvalid := 0xFFFF }).trackedBlock 0x300 = none := by decide

/-- PLOT writes, at the last line of the screen; does not, past it; does not, when the colour is transparent. -/
theorem witness_plot : PlotWrites { start 0x20 [(2, 127)] with colr := 3 } ∧ ¬PlotWrites { start 0x20 [(2, 128)] with colr := 3 } ∧
    ¬PlotWrites (start 0x20 []) := by
  unfold PlotWrites finalColor
  decide

theorem witness_readPixel : ((start 0 [(2, 127)]).reg 2).toNat % 256 < (start 0 [(2, 127)]).height ∧
    (start 0 [(2, 128)]).height ≤ ((start 0 [(2, 128)]).reg 2).toNat % 256 ∧ (start 0 []).config.rpixSetsFlags = true := by decide

theorem witness_plotThenRead :
    let s := { start 0x20 [(1, 255), (2, 127)] with colr := 3 }
    (s.reg 2).toNat % 256 < s.height ∧ s.por.getLsbD 1 = false ∧ s.colr &&& s.config.transparentMask ≠ 0 ∧
    ∃ t, exec .plot s = .next t := by
  refine ⟨by decide, by decide, by decide, _, rfl⟩

/-- The same with FORCE, a transparent colour, and the dither option set at a depth it does not act on. -/
theorem witness_plotThenRead_forced :
    let s := { start 0x20 [] with por := 0x03, scmr := 0x01 }
    (s.reg 2).toNat % 256 < s.height ∧ s.depth ∉ s.config.ditherDepths ∧ s.por.getLsbD 0 = true ∧
    ∃ t, exec .plot s = .next t := by
  refine ⟨by decide, by decide, by decide, _, rfl⟩

theorem witness_pixels : 8 ∈ [2, 4, 8] ∧ 256 ∈ [128, 160, 192, 256] ∧ (255 : Byte).toNat < 256 ∧ 7 < 8 ∧
    2 ∈ [2, 4, 8] ∧ 128 ∈ [128, 160, 192, 256] ∧ (127 : Byte).toNat < 128 ∧ 1 < 2 := by decide

/-- A state with a byte in RAM that meets the invariant and steps. -/
theorem witness_inv : ({ start 0x20 [(1, 1)] with ram := [(5, 7)], cbr := 0x10 }).Inv ∧
    ∃ t, step { start 0x20 [(1, 1)] with ram := [(5, 7)], cbr := 0x10 } = .next t :=
  ⟨⟨by decide, by decide, by decide, by decide, by decide, by decide, by decide, by decide⟩, _, rfl⟩

theorem witness_reset : ∃ s, resetWith (specConfig 8 2) [(5, 7)] [(0x208000, 0xD1)] = .next s := ⟨_, rfl⟩

theorem witness_onlyStop : Instr.nop ≠ .stop ∧ Instr.stop = .stop := by decide

theorem witness_image : storedByStoreImage 0x37 = false ∧ storedByStoreImage 0x3F = true := by decide

/-- A session whose image holds the given SFR, PBR, SCMR and R15. -/
def session (sfr pbr scmr pcLow : Byte) : State :=
  { State.reset with image := [(0x1E, pcLow), (0x30, sfr), (0x34, pbr), (0x3A, scmr)] }

/-- A start that is not allowed, and one allowed by each clause: the window, RAM banks 70 and 73 under RAN, ROM bank 5F under RON. -/
theorem witness_illegalStart : State.reset.loadImage.startAllowed = false ∧
    ({ session 0x20 0x60 0x10 5 with cacheActive := true }).loadImage.startAllowed = true ∧
    (session 0x20 0x70 0x08 0).loadImage.startAllowed = true ∧ (session 0x20 0x73 0x08 0).loadImage.startAllowed = true ∧
    (session 0x20 0x5F 0x10 0).loadImage.startAllowed = true := by decide

/-- A session that may start, without and with a breakpoint. -/
def startable : State := { State.reset with image := [(0x30, 0x20), (0x3A, 0x10)] }

theorem witness_batch : startable.loadImage.startAllowed = true ∧ startable.bpActive = false ∧
    (setBreakpoint 0x8003 startable).loadImage.startAllowed = true ∧ (setBreakpoint 0x8003 startable).bpActive = true ∧
    (setBreakpoint 0x8003 startable).config.errBreakpoint ≠ 0 := by decide

/-- A batch of three steps over the NOP of the pipe and STOPs from memory counts one (60_exceptions.md R277). -/
theorem witness_batch_count : (answered (emulate 3 startable) State.reset).1 = 1 := by decide

/-- A batch that reaches its breakpoint answers its code, one that does not its count (60_exceptions.md R282). -/
theorem witness_breakpoint : (answered (emulate 3 (setBreakpoint 2 startable)) State.reset).1 = -1 ∧
    (answered (emulate 1 (setBreakpoint 2 startable)) State.reset).1 = 1 := by decide

/-- `stepOver` from address 0 with a NOP in the pipe: it stops at 1, its target, after one step; at 1 with the breakpoint's code
when the breakpoint is there too (60_exceptions.md R283). -/
theorem witness_stepOver : (answered (stepOver 5 startable) State.reset).1 = 1 ∧
    (answered (stepOver 5 startable) State.reset).2.pc = 1 ∧
    (answered (stepOver 5 (setBreakpoint 1 startable)) State.reset).1 = -1 := by decide

/-- The ROM buffer is re-armed before the first step, also by a batch that runs none (60_exceptions.md R276): byte 9000 of ROM bank 0. -/
theorem witness_rearm : (answered (emulate 0
    { startable with image := [(0x1D, 0x90), (0x30, 0x20), (0x3A, 0x10)], rom := [(0x209000, 0x85)] }) State.reset).2.rombuf = 0x85 := by
  decide

end Sys2Proof.Tests
end

section
/-! The register image (10_state.md R38 to R40): what a byte of the image reads as after `StoreImage`, the fields that `LoadImage` then
gives back, and the round trip. -/

namespace Sys2Proof.Machine

/-! ## A 16-bit field of the image -/

theorem read_writeImageWord (m : Memory) (off : Nat) (v : Word) (b : Nat) :
    (writeImageWord m off v).read b = if b = off + 1 then highByte v else if b = off then lowByte v else m.read b := by
  simp [writeImageWord]

@[simp] theorem imageWord_writeImageWord (m : Memory) (off : Nat) (v : Word) : imageWord (writeImageWord m off v) off = v := by
  simp [imageWord, read_writeImageWord]

/-! ## The registers in the image -/

/-- `State.imageRegs` over any list of registers and any image, the form its proofs go by induction on. -/
def State.storeRegs (s : State) (l : List Reg) (m : Memory) : Memory :=
  l.foldl (fun m i => writeImageWord m (2 * i.val) (s.reg i)) m

theorem State.imageRegs_eq_storeRegs (s : State) : s.imageRegs = s.storeRegs (List.finRange 16) s.image := rfl

theorem State.storeRegs_cons (s : State) (j : Reg) (l : List Reg) (m : Memory) :
    s.storeRegs (j :: l) m = s.storeRegs l (writeImageWord m (2 * j.val) (s.reg j)) := rfl

theorem State.read_storeRegs_of_ne (s : State) {off : Nat} (l : List Reg) (m : Memory)
    (h : ∀ j ∈ l, off ≠ 2 * j.val ∧ off ≠ 2 * j.val + 1) : (s.storeRegs l m).read off = m.read off := by
  induction l generalizing m with
  | nil => rfl
  | cons j l ih =>
    obtain ⟨hlow, hhigh⟩ := h j List.mem_cons_self
    rw [s.storeRegs_cons, ih _ fun i hi => h i (List.mem_cons_of_mem j hi), read_writeImageWord, if_neg hhigh, if_neg hlow]

/-- The last store of a register stands: the fields of two registers have no byte in common. -/
theorem State.imageWord_storeRegs (s : State) {i : Reg} (l : List Reg) (m : Memory) (hi : i ∈ l) :
    imageWord (s.storeRegs l m) (2 * i.val) = s.reg i := by
  induction l generalizing m with
  | nil => cases hi
  | cons j l ih =>
    rw [s.storeRegs_cons]
    by_cases hl : i ∈ l
    · exact ih _ hl
    · obtain rfl : i = j := (List.mem_cons.mp hi).resolve_right hl
      have other (b : Nat) (hb : b = 2 * i.val ∨ b = 2 * i.val + 1) :
          ∀ k ∈ l, b ≠ 2 * k.val ∧ b ≠ 2 * k.val + 1 := fun k hk => by
        have hne : i.val ≠ k.val := fun e => hl (Fin.ext e ▸ hk)
        omega
      rw [imageWord, s.read_storeRegs_of_ne l _ (other _ (.inl rfl)), s.read_storeRegs_of_ne l _ (other _ (.inr rfl))]
      exact imageWord_writeImageWord m (2 * i.val) (s.reg i)

theorem State.imageWord_imageRegs (s : State) (i : Reg) : imageWord s.imageRegs (2 * i.val) = s.reg i :=
  s.imageWord_storeRegs _ _ (List.mem_finRange i)

theorem State.read_imageRegs_of_ge (s : State) {off : Nat} (h : 0x20 ≤ off) : s.imageRegs.read off = s.image.read off :=
  s.read_storeRegs_of_ne _ _ fun j _ => by omega

/-! ## What StoreImage leaves in each byte -/

theorem State.read_storeImage (s : State) (off : Nat) :
    s.storeImage.image.read off =
      if off = 0x3F then highByte s.cbr else if off = 0x3E then lowByte s.cbr
      else if off = 0x3C then s.rambr.setWidth 8 else if off = 0x36 then s.rombr else if off = 0x34 then s.pbr
      else if off = 0x31 then highByte s.sfr else if off = 0x30 then lowByte s.sfr else s.imageRegs.read off := by
  simp [State.storeImage, read_writeImageWord]

theorem State.read_storeImage_of_lt (s : State) {off : Nat} (h : off < 0x20) :
    s.storeImage.image.read off = s.imageRegs.read off := by
  rw [s.read_storeImage, if_neg, if_neg, if_neg, if_neg, if_neg, if_neg, if_neg] <;> omega

theorem State.read_storeImage_of_not_stored (s : State) {off : Nat} (h : storedByStoreImage off = false) :
    s.storeImage.image.read off = s.image.read off := by
  simp only [storedByStoreImage, Bool.or_eq_false_iff, decide_eq_false_iff_not, beq_eq_false_iff_ne] at h
  rw [s.read_storeImage, if_neg, if_neg, if_neg, if_neg, if_neg, if_neg, if_neg, s.read_imageRegs_of_ge] <;> omega

/-! ## What LoadImage gives back of a stored image -/

theorem State.imageWord_storeImage_reg (s : State) (i : Reg) : imageWord s.storeImage.image (2 * i.val) = s.reg i := by
  rw [imageWord, s.read_storeImage_of_lt (by omega), s.read_storeImage_of_lt (by omega)]
  exact s.imageWord_imageRegs i

@[simp] theorem State.storeImage_loadImage_regs (s : State) : s.storeImage.loadImage.regs = s.regs := by
  ext i hi : 1
  simpa [State.loadImage, State.reg] using s.imageWord_storeImage_reg ⟨i, hi⟩

@[simp] theorem State.storeImage_loadImage_sfr (s : State) : s.storeImage.loadImage.sfr = s.sfr := by
  simp [State.loadImage, imageWord, State.read_storeImage]

@[simp] theorem State.storeImage_loadImage_pbr (s : State) : s.storeImage.loadImage.pbr = s.pbr := by
  simp [State.loadImage, State.read_storeImage]

@[simp] theorem State.storeImage_loadImage_rombr (s : State) : s.storeImage.loadImage.rombr = s.rombr := by
  simp [State.loadImage, State.read_storeImage]

/-- RAMBR has 2 bits, so it is stored zero-extended and comes back whole. -/
@[simp] theorem State.storeImage_loadImage_rambr (s : State) : s.storeImage.loadImage.rambr = s.rambr := by
  simp [State.loadImage, State.read_storeImage]

@[simp] theorem State.storeImage_loadImage_cbr (s : State) : s.storeImage.loadImage.cbr = s.cbr := by
  simp [State.loadImage, imageWord, State.read_storeImage]

/-- Settles O57: the stored fields come back through the image byte by byte, the three that the host alone writes come from bytes
`StoreImage` leaves alone, and neither call writes a field that is not in the image. -/
theorem imageRoundTrip : Obligations.ImageRoundTrip := by
  unfold Obligations.ImageRoundTrip
  intro s
  have hostByte (off : Nat) (h : storedByStoreImage off = false) : s.storeImage.image.read off = s.image.read off :=
    s.read_storeImage_of_not_stored h
  have hcfgr : s.storeImage.loadImage.cfgr = s.image.read 0x37 := hostByte 0x37 rfl
  have hscbr : s.storeImage.loadImage.scbr = s.image.read 0x38 := hostByte 0x38 rfl
  have hscmr : s.storeImage.loadImage.scmr = s.image.read 0x3A := hostByte 0x3A rfl
  simpa [hcfgr, hscbr, hscmr] using hostByte

end Sys2Proof.Machine
end

section
/-! The address spaces (20_memory.md sections 1 and 2): the entry of the bank table in each of its three ranges, the bytes that the
reads through it give, that every entry lies inside the buffers R53 requires, and which buffers reset accepts. -/

namespace Sys2Proof.Machine

/-! ## The bank table, range by range (R51) -/

theorem bankTable_of_ramBank (c : Config) {i : Byte} (h : 0x70 ≤ i.toNat ∧ i.toNat ≤ 0x73) :
    bankTable c i = (.ram, ((i.toNat - 0x70) % c.nram) * 65536) := if_pos h

/-- The primary ROM region. -/
theorem bankTable_of_primary (c : Config) {i : Byte} (h : ¬(0x70 ≤ i.toNat ∧ i.toNat ≤ 0x73)) (hb : 0x40 ≤ i.toNat % 128) :
    bankTable c i = (.rom, (if 1 < cappedRomBanks c then i.toNat % 128 % cappedRomBanks c else i.toNat % 128 % 2) * 65536) :=
  (if_neg h).trans (if_pos hb)

/-- The extended ROM region, which no RAM bank's index folds into. -/
theorem bankTable_of_extended (c : Config) {i : Byte} (hb : i.toNat % 128 < 0x40) :
    bankTable c i = (.rom, c.romExtBase + i.toNat % 128 % (2 * cappedRomBanks c) * 65536) :=
  (if_neg (by omega)).trans (if_neg (by omega))

/-- A read through the bank table reaches the byte that `BankByteIs` names. -/
theorem State.bankByteIs_bankRead (s : State) (i : Byte) (a : Word) : BankByteIs s i a (s.bankRead i a) := by
  refine ⟨fun h => ?_, fun ⟨h, hb⟩ => ?_, fun hb => ?_⟩
  · rw [State.bankRead, bankTable_of_ramBank _ h]
    rfl
  · rw [State.bankRead, bankTable_of_primary _ h hb]
    rfl
  · rw [State.bankRead, bankTable_of_extended _ hb]
    rfl

/-! ## Every entry lies inside the required buffers (R52, R53) -/

theorem bankTable_add_lt (c : Config) (i : Byte) (a : Word) (hram : 0 < c.nram) (hn : 0 < cappedRomBanks c) :
    ((bankTable c i).1 = .ram → (bankTable c i).2 + a.toNat < requiredRamSize c) ∧
    ((bankTable c i).1 = .rom → (bankTable c i).2 + a.toNat < requiredRomSize c) := by
  have ha := a.isLt
  by_cases h : 0x70 ≤ i.toNat ∧ i.toNat ≤ 0x73
  · rw [bankTable_of_ramBank c h]
    exact ⟨fun _ => ramBase_add_lt c hram _ a, nofun⟩
  by_cases hb : 0x40 ≤ i.toNat % 128
  · rw [bankTable_of_primary c h hb]
    refine ⟨nofun, fun _ => lt_max_iff.mpr ?_⟩
    have hbank := Nat.mod_lt (i.toNat % 128) hn
    dsimp only [bankSize]
    split_ifs <;> omega
  · rw [bankTable_of_extended c (Nat.lt_of_not_le hb)]
    refine ⟨nofun, fun _ => lt_max_iff.mpr (.inr ?_)⟩
    have hbank := Nat.mod_lt (i.toNat % 128) (Nat.mul_pos Nat.two_pos hn)
    dsimp only [bankSize]
    omega

/-! ## What reset accepts (R301, G11) -/

theorem resetWith_of_valid {c : Config} {ram rom : Memory} (hram : ram.wf ∧ ram.below c.ramSize) (hrom : rom.wf ∧ rom.below c.romSize)
    (h : validConfig c = true) : resetWith c ram rom = .next (State.afterReset c ram rom) := by
  simp [resetWith, h, (validContent_iff _ _).mpr hram, (validContent_iff _ _).mpr hrom]

theorem resetWith_of_invalid {c : Config} {ram rom : Memory} (h : validConfig c = false) :
    resetWith c ram rom = .refused .badConfiguration := by
  simp [resetWith, h]

/-- Settles O43: the table is read off by its three ranges, each bound is that of a remainder, and reset checks the two sizes. -/
theorem addressSpacesReachTheStatedBytes : Obligations.AddressSpacesReachTheStatedBytes := by
  unfold Obligations.AddressSpacesReachTheStatedBytes
  refine ⟨fun s a => ⟨s.bankByteIs_bankRead _ a, s.bankByteIs_bankRead _ a, rfl, fun _ => rfl⟩, ?_⟩
  intro c i a hnrom hnram hmax b n
  have hn : 0 < cappedRomBanks c := Nat.lt_min.mpr ⟨hnrom, hmax⟩
  obtain ⟨hramLt, hromLt⟩ := bankTable_add_lt c i a hnram hn
  refine ⟨bankTable_of_ramBank c, fun ⟨h, hb⟩ => bankTable_of_primary c h hb, bankTable_of_extended c,
    hramLt, hromLt, fun k => ⟨rfl, ramBase_add_lt c hnram k a⟩, ?_⟩
  intro ram rom hramWf hramBelow hromWf hromBelow
  refine ⟨fun ⟨hrom, hram⟩ => ?_, fun hshort => ?_⟩
  · exact resetWith_of_valid ⟨hramWf, hramBelow⟩ ⟨hromWf, hromBelow⟩
      ((validConfig_iff c).mpr ⟨hnrom, hnram, hmax, hrom, hram⟩)
  · refine resetWith_of_invalid (Bool.eq_false_iff.mpr fun hvalid => ?_)
    obtain ⟨-, -, -, hrom, hram⟩ := (validConfig_iff c).mp hvalid
    exact hshort.elim (Nat.not_lt.mpr hrom) (Nat.not_lt.mpr hram)

end Sys2Proof.Machine
end

section
/-! Write tracking (20_memory.md R70): when a byte of the RAM buffer lies in the active cache window, and in which sub-block. -/

namespace Sys2Proof.Machine

/-- The offset from CBR of byte `p` of the bank at `w`, as a number. -/
theorem toNat_windowOffset {p w : Nat} (h : w ≤ p) (c : Word) :
    ((BitVec.ofNat 16 (p - w) - c).toNat : Int) = ((p : Int) - w - c.toNat) % 65536 := by
  have hc := c.isLt
  rw [BitVec.toNat_sub, BitVec.toNat_ofNat]
  omega

/-- R70 as a condition: the cache is active, the program bank is a RAM bank, the byte lies in that bank and less than 512 bytes from
CBR, and `b` is its sub-block. -/
theorem State.trackedBlock_eq_some_iff (s : State) (p b : Nat) :
    s.trackedBlock p = some b ↔
      s.cacheActive = true ∧ 0x70 ≤ s.pbr.toNat ∧ s.pbr.toNat ≤ 0x73 ∧
        (let w := ramBase s.config (s.pbr.toNat - 0x70)
         w ≤ p ∧ p < w + bankSize ∧
         (let d := ((p : Int) - w - s.cbr.toNat) % 65536
          d < 512 ∧ d / s.config.subBlock = b)) := by
  unfold State.trackedBlock State.programRamBase
  by_cases hbank : 0x70 ≤ s.pbr.toNat ∧ s.pbr.toNat ≤ 0x73
  · rw [if_pos hbank]
    generalize ramBase s.config (s.pbr.toNat - 0x70) = w
    by_cases hw : w ≤ p
    · simp only [← toNat_windowOffset hw s.cbr, hbank.1, hbank.2, hw]
      norm_cast
      simp [and_assoc]
    · simp [hw]
  · rw [if_neg hbank]
    simpa using fun _ h h' => absurd ⟨h, h'⟩ hbank

/-- Settles O45: the bit cleared is the tracked block's, and R70 says which block is tracked. -/
theorem writesInTheWindowClearTheirValidityBit : Obligations.WritesInTheWindowClearTheirValidityBit := by
  unfold Obligations.WritesInTheWindowClearTheirValidityBit
  intro s p b
  rw [s.trackCacheWrite_valid p b, Bool.and_eq_true, decide_eq_true_iff]
  exact and_congr_right' (not_congr (s.trackedBlock_eq_some_iff p b))

end Sys2Proof.Machine
end

section
/-! PLOT, then RPIX (43_plot.md section 4, property (a)): the state a PLOT that writes leaves, and the pixel read back from it. -/

namespace Sys2Proof.Machine

/-! ## What PLOT's loop leaves alone -/

section
variable (s : State) (o : Nat) (m c : Byte) (ps : List Nat)

@[simp] theorem State.plotPlanes_reg (r : Reg) : (s.plotPlanes o m c ps).reg r = s.reg r := by rw [s.plotPlanes_frame]; rfl

@[simp] theorem State.plotPlanes_dreg : (s.plotPlanes o m c ps).dreg = s.dreg := by rw [s.plotPlanes_frame]

@[simp] theorem State.plotPlanes_por : (s.plotPlanes o m c ps).por = s.por := by rw [s.plotPlanes_frame]

@[simp] theorem State.plotPlanes_scmr : (s.plotPlanes o m c ps).scmr = s.scmr := by rw [s.plotPlanes_frame]

@[simp] theorem State.plotPlanes_scrPhys (off : Nat) : (s.plotPlanes o m c ps).scrPhys off = s.scrPhys off := by rw [s.plotPlanes_frame]; rfl

/-- A plane's byte read back through the screen: no two planes of a pixel share one, whatever the wrap of the RAM (R58). -/
theorem State.scrRead_plotPlanes {d p : Nat} (hd : d ≤ 8) (hp : p < d) :
    (s.plotPlanes o m c (List.range d)).scrRead (o + planeOff p) =
      planeByte (s.scrRead (o + planeOff p)) m (c.getLsbD p) := by
  have hlt (q : Nat) (hq : q ∈ List.range d) : planeOff q < bankSize :=
    (planeOff_lt (lt_of_lt_of_le (List.mem_range.mp hq) hd)).trans (by decide)
  have hapart : ∀ q ∈ List.range d, ∀ r ∈ List.range d,
      s.scrPhys (o + planeOff q) = s.scrPhys (o + planeOff r) → q = r :=
    fun q hq r hr h => planeOff_inj (s.scrPhys_inj (hlt q hq) (hlt r hr) h)
  rw [State.scrRead, s.plotPlanes_scrPhys]
  exact (s.plotPlanes_read o m c _ hapart List.nodup_range).1 p (List.mem_range.mpr hp)

end

/-! ## The pixel that R1, R2, SCMR and POR address -/

section
variable {s t : State}

theorem State.depth_congr (hscmr : t.scmr = s.scmr) : t.depth = s.depth := by
  unfold State.depth
  rw [hscmr]

theorem State.height_congr (hscmr : t.scmr = s.scmr) (hpor : t.por = s.por) : t.height = s.height := by
  unfold State.height State.realHeight State.porSprite
  rw [hscmr, hpor]

end

theorem State.inScreen_iff (s : State) : s.inScreen = true ↔ (s.reg 2).toNat % 256 < s.height := by
  simp [State.inScreen, State.plotY, toNat_lowByte]

theorem State.plotColor_of_no_dither {s : State} (h : s.por.getLsbD 1 = false ∨ s.depth ∉ s.config.ditherDepths) :
    s.plotColor = s.colr := by
  refine if_neg fun hdither => ?_
  simp only [Bool.and_eq_true, List.contains_iff_mem] at hdither
  obtain ⟨⟨hdepth, hoption⟩, -⟩ := hdither
  exact h.elim (fun hoff => Bool.false_ne_true (hoff.symm.trans hoption)) (· hdepth)

theorem State.transparent_eq_false_iff (s : State) :
    s.transparent = false ↔ s.por.getLsbD 0 = true ∨ s.plotColor &&& s.config.transparentMask ≠ 0 := by
  change _ ↔ s.porForce = true ∨ _
  cases h : s.porForce <;> simp [State.transparent, h]

theorem State.depth_le (s : State) : s.depth ≤ 8 := by
  have h := s.depth_mem
  simp only [List.mem_cons, List.not_mem_nil, or_false] at h
  omega

/-- A pixel whose bits are those of `c` is `c` masked to the depth. -/
theorem State.pixel_eq_of_bits {s : State} {c : Byte} (h : ∀ p, p < s.depth → s.pixelBit p = c.getLsbD p) :
    s.pixel = BitVec.ofNat 16 (c.toNat % 2 ^ s.depth) := by
  apply BitVec.eq_of_getLsbD_eq
  intro p hp
  rw [s.getLsbD_pixel (s.depth_le.trans (by decide)), BitVec.getLsbD_ofNat, Nat.testBit_mod_two_pow]
  by_cases hd : p < s.depth
  · simp [hp, hd, h p hd, BitVec.getLsbD]
  · simp [hd]

/-! ## PLOT and RPIX -/

/-- The state that a PLOT that writes leaves (43_plot.md R247). -/
def State.plotted (s : State) : State :=
  (s.finish.writeReg 1 (s.reg 1 + 1)).plotPlanes s.pixelOffset (pixMask s.plotX) s.plotColor (List.range s.depth)

theorem exec_plot (s : State) : exec .plot s = execPlot s := rfl

theorem exec_rpix (s : State) : exec .rpix s = execRpix s := rfl

theorem exec_plot_of_writes {s : State} (hin : s.inScreen = true) (hvisible : s.transparent = false) :
    exec .plot s = .next s.plotted := by
  simp [exec_plot, execPlot, State.plotted, hin, hvisible]

/-- RPIX in range writes the pixel to D (43_plot.md R248). -/
theorem exec_rpix_of_inScreen {s : State} (hin : s.inScreen = true) :
    ∃ u, exec .rpix s = .next u ∧ u.reg s.dreg = s.pixel := by
  have hd : (s.rpixFlags s.pixel).dreg = s.dreg := by
    unfold State.rpixFlags
    split <;> rfl
  exact ⟨(s.rpixFlags s.pixel).finishD s.pixel, by simp [exec_rpix, execRpix, hin],
    by simp [State.finishD, State.finishReg, hd]⟩

/-! ## PLOT, then RPIX at the same place -/

/-- The state after a PLOT that writes and R1 set back to x. -/
def State.plottedBack (s : State) : State := s.plotted.writeReg 1 (s.reg 1)

section
variable (s : State)

@[simp] theorem State.plottedBack_dreg : s.plottedBack.dreg = 0 := by simp [State.plottedBack, State.plotted, State.finish]

@[simp] theorem State.plottedBack_depth : s.plottedBack.depth = s.depth :=
  State.depth_congr (by simp [State.plottedBack, State.plotted, State.finish])

@[simp] theorem State.plottedBack_height : s.plottedBack.height = s.height := by
  apply State.height_congr <;> simp [State.plottedBack, State.plotted, State.finish]

@[simp] theorem State.plottedBack_plotX : s.plottedBack.plotX = s.plotX := by simp [State.plottedBack, State.plotX]

@[simp] theorem State.plottedBack_plotY : s.plottedBack.plotY = s.plotY := by
  simp [State.plottedBack, State.plotY, State.plotted, State.finish]

theorem State.plottedBack_inScreen : s.plottedBack.inScreen = s.inScreen := by simp [State.inScreen]

theorem State.plottedBack_pixelOffset : s.plottedBack.pixelOffset = s.pixelOffset := by simp [State.pixelOffset]

theorem State.pixelBit_plottedBack {p : Nat} (hp : p < s.depth) : s.plottedBack.pixelBit p = s.plotColor.getLsbD p := by
  rw [State.pixelBit_eq, s.plottedBack_plotX, s.plottedBack_pixelOffset, State.plottedBack, State.writeReg_scrRead,
    State.plotted, State.scrRead_plotPlanes _ _ _ _ s.depth_le hp, getLsbD_planeByte, if_pos rfl]

theorem State.pixel_plottedBack : s.plottedBack.pixel = BitVec.ofNat 16 (s.plotColor.toNat % 2 ^ s.depth) := by
  rw [← s.plottedBack_depth]
  exact State.pixel_eq_of_bits fun p hp => s.pixelBit_plottedBack (s.plottedBack_depth ▸ hp)

end

/-- Settles O50: PLOT writes each plane's bit of the colour, and RPIX reads the same bits, since with R1 set back nothing that
addresses the pixel has changed. -/
theorem plotThenReadPixelGivesTheColour : Obligations.PlotThenReadPixelGivesTheColour := by
  unfold Obligations.PlotThenReadPixelGivesTheColour
  intro s t hy hdither hvisible hplot
  have hcolor : s.plotColor = s.colr := State.plotColor_of_no_dither hdither
  have hin : s.inScreen = true := s.inScreen_iff.mpr hy
  have hplotted := exec_plot_of_writes hin (s.transparent_eq_false_iff.mpr (hcolor ▸ hvisible))
  obtain rfl : s.plotted = t := Host.Outcome.next.inj (hplotted.symm.trans hplot)
  obtain ⟨u, hu, hpixel⟩ := exec_rpix_of_inScreen (s.plottedBack_inScreen.trans hin)
  rw [s.plottedBack_dreg, s.pixel_plottedBack, hcolor] at hpixel
  exact ⟨u, hu, hpixel⟩

end Sys2Proof.Machine
end

section
/-! The length of an instruction and its immediate bytes (30_encoding.md R84; 40_dispatch_prefix_control.md R103): an instruction is its
opcode byte and its immediate bytes, and the pipe goes through the latter in order. -/

namespace Sys2Proof.Machine

/-! ## The length rule (R84) -/

theorem opLength_pos (op : Byte) : 0 < opLength op := by
  unfold opLength
  split_ifs <;> decide

theorem opLength_le (op : Byte) : opLength op ≤ 3 := by
  unfold opLength
  split_ifs <;> decide

theorem immCount_specOpTable_add_one (m : Mode) (op : Byte) : (specOpTable.select m op).immCount + 1 = opLength op := by
  rw [immCount_specOpTable, Nat.sub_add_cancel (opLength_pos op)]

/-- Every encoding is one opcode byte, then the immediate bytes. -/
theorem length_encode_bytes (i : Instr) : (encode i).bytes.length = (immBytes i).length + 1 := by
  cases i <;> rfl

theorem length_immBytes_decodeOp (t : OpTable) (m : Mode) (op b1 b2 : Byte) :
    (immBytes (decodeOp t m op b1 b2)).length = min (t.select m op).immCount 2 := by
  rw [decodeOp, immBytes_instr, List.length_take]
  rfl

/-- The length of what the spec's map decodes is the one the opcode byte gives. -/
theorem length_encode_decodeOp (m : Mode) (op b1 b2 : Byte) :
    (encode (decodeOp specOpTable m op b1 b2)).bytes.length = opLength op := by
  have hcount := immCount_specOpTable_add_one m op
  have hle := opLength_le op
  rw [length_encode_bytes, length_immBytes_decodeOp, Nat.min_eq_left (by omega), hcount]

/-- Settles O4: the length is one more than the number of immediate bytes, and in the spec's map that number is a function of the
opcode byte. -/
theorem instructionLengthComesFromTheOpcodeByte : Obligations.InstructionLengthComesFromTheOpcodeByte := by
  unfold Obligations.InstructionLengthComesFromTheOpcodeByte
  exact length_encode_decodeOp

/-! ## The pipe's bytes (R103) -/

@[simp] theorem State.prologue_pipe (s : State) : s.prologue.pipe = s.prgRead s.pc := rfl

@[simp] theorem State.prologue_imm8_pipe (s : State) : s.prologue.imm8.pipe = s.prgRead (s.pc + 1) :=
  s.prologue.imm8_pipe

/-- The operands a step dispatches are the bytes the prologue and the first `Imm8()` leave in the pipe, in every opcode map. -/
theorem State.immBytes_fetched (s : State) :
    immBytes s.fetched =
      [s.prologue.pipe, s.prologue.imm8.pipe].take (s.config.opTable.select s.mode s.pipe).immCount := by
  rw [s.prologue_pipe, s.prologue_imm8_pipe, State.fetched, decodeOp, immBytes_instr]

/-- Settles O9: the fetch takes its operands from the bytes the pipe goes through, and the spec's map counts them by the length
rule. -/
theorem immediateBytesComeFromThePipe : Obligations.ImmediateBytesComeFromThePipe := by
  unfold Obligations.ImmediateBytesComeFromThePipe
  intro s
  refine ⟨s.immBytes_fetched, fun hmap => ?_⟩
  rw [hmap]
  exact immCount_specOpTable_add_one s.mode s.pipe

end Sys2Proof.Machine
end

section
/-! Where the spec's map holds an instruction (30_encoding.md R80, R83, R87): an opcode byte from its two nibbles, its operand fields, and
the instruction that a mode and the nibbles select. -/

namespace Sys2Proof

open Sys2Proof.Machine

/-! ## The opcode byte and its operand fields -/

theorem toNat_opByte {hi lo : Nat} (hhi : hi < 16) (hlo : lo < 16) : (opByte hi lo).toNat = 16 * hi + lo := by
  rw [opByte, BitVec.toNat_ofNat]
  omega

theorem lowNibble_opByte {hi lo : Nat} (hhi : hi < 16) (hlo : lo < 16) : lowNibble (opByte hi lo) = lo := by
  rw [lowNibble, toNat_opByte hhi hlo]
  omega

theorem regField_opByte {hi : Nat} (hhi : hi < 16) (n : Reg) : regField (opByte hi n.val) = n := by
  apply Fin.ext
  rw [regField, lowNibble_opByte hhi n.isLt]
  exact Nat.mod_eq_of_lt n.isLt

theorem immField_opByte {hi : Nat} (hhi : hi < 16) (n : Imm4) : immField (opByte hi n.toNat) = n := by
  rw [immField, lowNibble_opByte hhi n.isLt, BitVec.ofNat_toNat, BitVec.setWidth_eq]

/-- The spec's map on an opcode byte given by its nibbles. -/
theorem decodeOp_opByte {hi lo : Nat} (hhi : hi < 16) (hlo : lo < 16) (m : Mode) (b1 b2 : Byte) :
    decodeOp specOpTable m (opByte hi lo) b1 b2 = (keyOpcode m hi lo).instr (opByte hi lo) b1 b2 := by
  have hhigh : (16 * hi + lo) / 16 = hi := by omega
  have hlow : (16 * hi + lo) % 16 = lo := by omega
  rw [decodeOp, select_specOpTable, toNat_opByte hhi hlo, hhigh, hlow]

/-! ## The four pages -/

theorem Mode.pick_of_page_even {α : Type} {m : Mode} (h : m.page ∈ [0, 2]) (x y : α) : m.pick x y x y = x := by
  obtain ⟨b, _ | _, _ | _⟩ := m
  · rfl
  · exact absurd h (by simp [Mode.page])
  · rfl
  · exact absurd h (by simp [Mode.page])

theorem Mode.pick_of_page_odd {α : Type} {m : Mode} (h : m.page ∈ [1, 3]) (x y : α) : m.pick x y x y = y := by
  obtain ⟨b, _ | _, _ | _⟩ := m
  · exact absurd h (by simp [Mode.page])
  · rfl
  · exact absurd h (by simp [Mode.page])
  · rfl

/-! ## The rows 1, 2 and B: TO and MOVE, WITH, FROM and MOVES -/

section
variable (m : Mode) (n : Reg) (b1 b2 : Byte)

theorem decodeOp_row1 : decodeOp specOpTable m (opByte 0x1 n.val) b1 b2 = if m.b then .move n else .toR n := by
  rw [decodeOp_opByte (by decide) n.isLt, keyOpcode]
  split <;> rw [Opcode.instr, regField_opByte (by decide)]

theorem decodeOp_row2 : decodeOp specOpTable m (opByte 0x2 n.val) b1 b2 = .withR n := by
  rw [decodeOp_opByte (by decide) n.isLt, keyOpcode, Opcode.instr, regField_opByte (by decide)]

theorem decodeOp_rowB : decodeOp specOpTable m (opByte 0xB n.val) b1 b2 = if m.b then .moves n else .fromR n := by
  rw [decodeOp_opByte (by decide) n.isLt, keyOpcode]
  split <;> rw [Opcode.instr, regField_opByte (by decide)]

end

/-! ## The bytes 91 to 94 and 98 to 9D -/

theorem keyOpcode_link (m : Mode) {lo : Nat} (h : 1 ≤ lo ∧ lo ≤ 4) : keyOpcode m 0x9 lo = .link := by
  obtain ⟨h1, h4⟩ := h
  interval_cases lo <;> rfl

theorem keyOpcode_jump (m : Mode) {lo : Nat} (h : 8 ≤ lo ∧ lo ≤ 13) : keyOpcode m 0x9 lo = m.pick .jmp .ljmp .jmp .ljmp := by
  obtain ⟨h8, h13⟩ := h
  interval_cases lo <;> rfl

theorem standsAt_link {n : Imm4} (h : (Instr.link n).wellFormed = true) :
    StandsAt allPages (opByte 0x9 n.toNat) (fun _ _ => .link n) := fun m b1 b2 _ => by
  have hn : 1 ≤ n.toNat ∧ n.toNat ≤ 4 := by simpa [Instr.wellFormed] using h
  rw [decodeOp_opByte (by decide) n.isLt, keyOpcode_link m hn, Opcode.instr, immField_opByte (by decide)]

theorem standsAt_jmp {n : Reg} (h : (Instr.jmp n).wellFormed = true) :
    StandsAt [0, 2] (opByte 0x9 n.val) (fun _ _ => .jmp n) := fun m b1 b2 hm => by
  have hn : 8 ≤ n.val ∧ n.val ≤ 13 := by simpa [Instr.wellFormed] using h
  rw [decodeOp_opByte (by decide) n.isLt, keyOpcode_jump m hn, Mode.pick_of_page_even hm, Opcode.instr, regField_opByte (by decide)]

theorem standsAt_ljmp {n : Reg} (h : (Instr.ljmp n).wellFormed = true) :
    StandsAt [1, 3] (opByte 0x9 n.val) (fun _ _ => .ljmp n) := fun m b1 b2 hm => by
  have hn : 8 ≤ n.val ∧ n.val ≤ 13 := by simpa [Instr.wellFormed] using h
  rw [decodeOp_opByte (by decide) n.isLt, keyOpcode_jump m hn, Mode.pick_of_page_odd hm, Opcode.instr, regField_opByte (by decide)]

end Sys2Proof
end

section
/-! The eleven branches (40_dispatch_prefix_control.md R115 to R125, R132): each is `Branch(c)` for its condition. -/

namespace Sys2Proof.Machine

/-- The target, in the word arithmetic of the model and as a number modulo 65536. -/
theorem branchTarget_eq_ofInt (pc : Word) (e : Byte) : pc + 1 + sext8 e = BitVec.ofInt 16 ((pc.toNat : Int) + 1 + e.toInt) := by
  rw [sext8_eq_ofInt, BitVec.ofInt_add, BitVec.ofInt_add, BitVec.ofInt_natCast, BitVec.ofNat_toNat, BitVec.setWidth_eq]
  rfl

/-- An instruction whose meaning is `Branch` of a condition that decides `c` is a branch on `c`. -/
theorem branchesWhen_of_branch {op : Byte} {i : Instr} {e : Byte} {s : State} {c : Prop} (taken : Bool)
    (hmap : ∀ (m : Mode) (b2 : Byte), decodeOp specOpTable m op e b2 = i) (hx : exec i s = .next (s.branch taken e))
    (hc : taken = true ↔ c) : BranchesWhen op i e s c := by
  obtain ⟨hregs, hsfr, hsreg, hdreg, hspecial, hram, hrom, hbuf, hpipe, hpc⟩ := s.branch_spec taken e
  refine ⟨hmap, _, hx, hregs, fun j _ => congrArg (·.getLsbD j) hsfr, hspecial, fun a => congrArg (·.read a) hram,
    fun a => congrArg (·.read a) hrom, hsreg, hdreg, hbuf, hpipe, fun hyes => ?_, fun hno => ?_⟩
  · rw [hpc, if_pos (hc.mpr hyes), branchTarget_eq_ofInt]
  · rw [hpc, if_neg (mt hc.mp hno)]

/-- Settles O20: each branch is `Branch` of its own condition, read from the flags before it. -/
theorem branchesFollowTheirConditions : Obligations.BranchesFollowTheirConditions := by
  unfold Obligations.BranchesFollowTheirConditions
  intro e s
  refine ⟨branchesWhen_of_branch true (fun _ _ => rfl) rfl (by simp),
    branchesWhen_of_branch (s.flag bitSG == s.flag bitOV) (fun _ _ => rfl) rfl (by simp),
    branchesWhen_of_branch (s.flag bitSG != s.flag bitOV) (fun _ _ => rfl) rfl (by simp),
    branchesWhen_of_branch (!s.flag bitZ) (fun _ _ => rfl) rfl (by simp),
    branchesWhen_of_branch (s.flag bitZ) (fun _ _ => rfl) rfl .rfl,
    branchesWhen_of_branch (!s.flag bitSG) (fun _ _ => rfl) rfl (by simp),
    branchesWhen_of_branch (s.flag bitSG) (fun _ _ => rfl) rfl .rfl,
    branchesWhen_of_branch (!s.flag bitCY) (fun _ _ => rfl) rfl (by simp),
    branchesWhen_of_branch (s.flag bitCY) (fun _ _ => rfl) rfl .rfl,
    branchesWhen_of_branch (!s.flag bitOV) (fun _ _ => rfl) rfl (by simp),
    branchesWhen_of_branch (s.flag bitOV) (fun _ _ => rfl) rfl .rfl⟩

end Sys2Proof.Machine
end

section
/-! Frames of the control instructions and prefixes: how flag writes keep the SFR frame, and the two ends they have, a write of R15 with
`ClrFlags()` and, for the prefixes, `Advance()` alone (10_state.md R19). -/

namespace Sys2Proof.Machine

variable {i : Instr} {s u w : State} {regs : List Reg} {mask : Word} {post : State → Prop}

/-! ## Flag writes inside a mask -/

theorem SameSfrExcept.setFlag (h : SameSfrExcept mask s w) {b : Nat} (hb : mask.getLsbD b = true) (v : Bool) :
    SameSfrExcept mask s (w.setFlag b v) := fun j hj => by
  have hne : b ≠ j := by
    rintro rfl
    exact Bool.false_ne_true (hj.symm.trans hb)
  simpa [hne] using h j hj

theorem SameSfrExcept.setSZ (h : SameSfrExcept mask s w) (hz : mask.getLsbD bitZ = true) (hs : mask.getLsbD bitSG = true) (v : Word) :
    SameSfrExcept mask s (w.setSZ v) := (h.setFlag hs _).setFlag hz _

/-! ## The end with a transfer -/

/-- `Advance()` is the write of R15 that a transfer is too. -/
theorem State.advance_eq_writeReg (s : State) : s.advance = s.writeReg 15 (s.pc + 1) := rfl

theorem State.writeReg_pc (s : State) (v : Word) : (s.writeReg 15 v).pc = v := by simp [State.pc]

/-- An instruction that ends in a write of R15 and `ClrFlags`, from a state `w` that differs from `s` in what the frame allows. -/
theorem runsTo_of_transfer {target : Word} (hx : exec i s = .next (w.writeReg 15 target).clrFlags) (hpc : 15 ∈ regs)
    (hregs : SameRegsExcept regs s w) (hsfr : SameSfrExcept mask s w) (hspecial : SameSpecial u w) (hram : w.ram = s.ram)
    (hrom : w.rom = s.rom) (hpost : post (w.writeReg 15 target).clrFlags) : RunsTo i s u regs (mask ||| modeMask) post := by
  refine ⟨_, hx, fun r hr => ?_, sameSfr_clrFlags (w := w) hsfr _ rfl, hspecial, fun a => congrArg (·.read a) hram,
    fun a => congrArg (·.read a) hrom, hpost⟩
  have hne : r ≠ 15 := ne_of_mem_of_not_mem hpc hr |>.symm
  simpa [hne] using hregs r hr

/-! ## The end of the prefixes -/

/-- What each of the prefixes leaves: SFR and the indices as it sets them, R15 advanced. -/
def State.prefixed (s : State) (f : Word) (src dst : Reg) : State := { s with sfr := f, sreg := src, dreg := dst }.advance

@[simp] theorem State.prefixed_flag (s : State) (f : Word) (src dst : Reg) (j : Nat) : (s.prefixed f src dst).flag j = f.getLsbD j := rfl
@[simp] theorem State.prefixed_sreg (s : State) (f : Word) (src dst : Reg) : (s.prefixed f src dst).sreg = src := rfl
@[simp] theorem State.prefixed_dreg (s : State) (f : Word) (src dst : Reg) : (s.prefixed f src dst).dreg = dst := rfl
@[simp] theorem State.prefixed_pipe (s : State) (f : Word) (src dst : Reg) : (s.prefixed f src dst).pipe = s.pipe := rfl
@[simp] theorem State.prefixed_rombuf (s : State) (f : Word) (src dst : Reg) : (s.prefixed f src dst).rombuf = s.rombuf := rfl
@[simp] theorem State.prefixed_pc (s : State) (f : Word) (src dst : Reg) : (s.prefixed f src dst).pc = s.pc + 1 := State.writeReg_pc _ _

/-- The prefixes write SFR and the indices, advance R15 and do not call `ClrFlags` (10_state.md R19). -/
theorem runsTo_of_prefixed {f : Word} {src dst : Reg} (hx : exec i s = .next (s.prefixed f src dst))
    (hsfr : SameSfrExcept mask s (s.prefixed f src dst)) (hpost : post (s.prefixed f src dst)) : RunsTo i s s [15] mask post :=
  ⟨_, hx, fun r hr => (State.advance_reg _ r).trans (if_neg (by simpa using hr)), hsfr, SameSpecial.refl s, fun _ => rfl,
    fun _ => rfl, hpost⟩

end Sys2Proof.Machine
end

section
/-! STOP, NOP and CACHE (40_dispatch_prefix_control.md R105 to R107). -/

namespace Sys2Proof.Machine

/-! ## What STOP and CACHE do before the usual end -/

section
variable (s : State)

theorem State.requestInterrupt_eq : s.requestInterrupt = { s with sfr := s.requestInterrupt.sfr } := by
  unfold State.requestInterrupt
  split <;> rfl

/-- IRQMASK is CFGR bit 7 (10_state.md R27). -/
@[simp] theorem State.requestInterrupt_flag (j : Nat) :
    s.requestInterrupt.flag j = if j = 15 then s.flag bitIRQ || !s.cfgr.getLsbD 7 else s.flag j := by
  change _ = if j = 15 then s.flag 15 || !s.irqMasked else s.flag j
  by_cases hj : j = 15
  · cases hmask : s.irqMasked <;> simp [State.requestInterrupt, hmask, hj, bitIRQ]
  · have hne : bitIRQ ≠ j := fun h => hj h.symm
    cases hmask : s.irqMasked <;> simp [State.requestInterrupt, hmask, hj, hne]

theorem State.stopPor_eq : s.stopPor = { s with por := if s.config.stopClearsPor then 0 else s.por } := by
  unfold State.stopPor
  cases s.config.stopClearsPor <;> rfl

/-- What STOP leaves before the usual end. -/
def State.halted : State :=
  { s with
    sfr := (s.setFlag bitGO false).requestInterrupt.sfr
    por := if s.config.stopClearsPor then 0 else s.por
    pipe := 0x01 }

theorem State.halted_flag (j : Nat) :
    s.halted.flag j = if j = 15 then s.flag bitIRQ || !s.cfgr.getLsbD 7 else if j = 5 then false else s.flag j := by
  have h : s.halted.flag j = (s.setFlag bitGO false).requestInterrupt.flag j := rfl
  rw [h, State.requestInterrupt_flag, State.setFlag_flag, State.setFlag_flag]
  by_cases hj : j = 5
  · simp [hj, bitGO]
  · have hne : bitGO ≠ j := fun h => hj h.symm
    simp [hj, hne, bitGO, bitIRQ]

theorem exec_stop : exec .stop s = .next s.halted.finish := by
  change Host.Outcome.next (State.finish { ((s.setFlag bitGO false).requestInterrupt).stopPor with pipe := 0x01 }) = _
  rw [State.stopPor_eq, State.requestInterrupt_eq]
  rfl

/-- CACHE writes the window and nothing else. -/
theorem State.cacheInstruction_eq : ∃ base active valid,
    s.cacheInstruction = { s with cbr := base, cacheActive := active, cvalid := valid } := by
  unfold State.cacheInstruction
  split
  · exact ⟨_, _, _, rfl⟩
  · exact ⟨_, _, _, rfl⟩

end

/-- Settles O14: STOP's writes lie in the two bits, POR and the pipe, and the usual end follows. -/
theorem stopClearsGoAndRequestsTheInterrupt : Obligations.StopClearsGoAndRequestsTheInterrupt := by
  unfold Obligations.StopClearsGoAndRequestsTheInterrupt
  refine ⟨fun _ _ _ _ => rfl, fun s => ?_⟩
  have hsfr : SameSfrExcept 0x8020 s s.halted := fun j hj => by
    have hgo : j ≠ 5 := by rintro rfl; exact absurd hj (by decide)
    have hirq : j ≠ 15 := by rintro rfl; exact absurd hj (by decide)
    exact (s.halted_flag j).trans ((if_neg hirq).trans (if_neg hgo))
  refine runsTo_of_transfer (exec_stop s) (by simp) (fun _ _ => rfl) hsfr (SameSpecial.refl s.halted) rfl rfl
    ⟨?_, ?_, rfl, State.writeReg_pc _ _, rfl, State.clrFlags_cleared _⟩
  · simp [s.halted_flag]
  · simp [s.halted_flag]

/-- Settles O15: NOP is the usual end and nothing before it. -/
theorem nopOnlyClearsThePrefixes : Obligations.NopOnlyClearsThePrefixes := by
  unfold Obligations.NopOnlyClearsThePrefixes
  refine ⟨fun _ _ _ _ => rfl, fun s => ?_⟩
  exact writesNoReg_of_finish (w := s) rfl (fun _ _ => rfl) (BitVec.add_zero _).symm (SameSfrExcept.refl 0 s) (SameSpecial.refl s)
    (fun _ => rfl) (fun _ => rfl) rfl rfl trivial

/-- Settles O16: the special registers after CACHE are those of `CacheInstruction()`, which writes the window only. -/
theorem cacheReanchorsTheWindowWhenItMoves : Obligations.CacheReanchorsTheWindowWhenItMoves := by
  unfold Obligations.CacheReanchorsTheWindowWhenItMoves
  refine ⟨fun _ _ _ _ => rfl, fun s => ?_⟩
  change WritesNoReg .cache s s.cacheInstruction 0 0 anyPost
  have hx : exec .cache s = .next s.cacheInstruction.finish := rfl
  obtain ⟨base, active, valid, hw⟩ := s.cacheInstruction_eq
  rw [hw] at hx ⊢
  exact writesNoReg_of_finish hx (fun _ _ => rfl) (BitVec.add_zero _).symm (SameSfrExcept.refl 0 s) (SameSpecial.refl _)
    (fun _ => rfl) (fun _ => rfl) rfl rfl trivial

end Sys2Proof.Machine
end

section
/-! The prefixes and the moves (40_dispatch_prefix_control.md R108 to R114, R131). -/

namespace Sys2Proof.Machine

/-- Settles O17: of the three only WITH writes SFR, the bit of B. -/
theorem registerPrefixesSetTheIndices : Obligations.RegisterPrefixesSetTheIndices := by
  unfold Obligations.RegisterPrefixesSetTheIndices
  intro n s
  have hsfr (mask : Word) : SameSfrExcept mask s s := SameSfrExcept.refl mask s
  refine ⟨fun m _ _ hb => ?_, runsTo_of_prefixed rfl (hsfr _) ?_, fun m _ _ _ => decodeOp_row2 m n _ _,
    runsTo_of_prefixed rfl ((hsfr _).setFlag (b := bitB) rfl true) ?_, fun m _ _ hb => ?_, runsTo_of_prefixed rfl (hsfr _) ?_⟩
  · simp [decodeOp_row1, hb]
  · simp
  · simp [bitB]
  · simp [decodeOp_rowB, hb]
  · simp

/-- Settles O18: each sets its page bits and clears B, inside its mask. -/
theorem altPrefixesSetThePageAndClearB : Obligations.AltPrefixesSetThePageAndClearB := by
  unfold Obligations.AltPrefixesSetThePageAndClearB
  intro s keeps
  have hsfr (mask : Word) : SameSfrExcept mask s s := SameSfrExcept.refl mask s
  refine ⟨fun _ _ _ _ => rfl, runsTo_of_prefixed rfl (((hsfr _).setFlag (b := bitALT1) rfl true).setFlag (b := bitB) rfl false) ?_,
    fun _ _ _ _ => rfl, runsTo_of_prefixed rfl (((hsfr _).setFlag (b := bitALT2) rfl true).setFlag (b := bitB) rfl false) ?_,
    fun _ _ _ _ => rfl, runsTo_of_prefixed rfl
      ((((hsfr _).setFlag (b := bitALT1) rfl true).setFlag (b := bitALT2) rfl true).setFlag (b := bitB) rfl false) ?_⟩
  · simp [keeps, bitALT1, bitB]
  · simp [keeps, bitALT2, bitB]
  · simp [keeps, bitALT1, bitALT2, bitB]

/-- Settles O19: both are the usual end with a register's value; MOVES writes OV, Z and SG before it. -/
theorem movesCopyARegister : Obligations.MovesCopyARegister := by
  unfold Obligations.MovesCopyARegister
  intro n s
  have hsfr (mask : Word) : SameSfrExcept mask s s := SameSfrExcept.refl mask s
  refine ⟨fun m _ _ hb => ?_, ?_, fun m _ _ hb => ?_, ?_⟩
  · simp [decodeOp_row1, hb]
  · exact writesReg_of_finishReg (w := s) rfl (fun _ _ => rfl) (BitVec.add_zero _).symm (hsfr 0) (SameSpecial.refl s)
      (fun _ => rfl) (fun _ => rfl) rfl rfl rfl trivial
  · simp [decodeOp_rowB, hb]
  · refine writesReg_of_finishReg (w := (s.setFlag bitOV ((s.reg n).getLsbD 7)).setSZ (s.reg n)) rfl (fun _ _ => rfl)
      (BitVec.add_zero _).symm (((hsfr _).setFlag rfl _).setSZ rfl rfl _) (SameSpecial.refl s)
      (fun _ => rfl) (fun _ => rfl) rfl rfl rfl ⟨hasSZ_of_flags ?_ ?_, ?_⟩
    · simp [State.finishReg, State.setSZ_flag]
    · simp [State.finishReg, State.setSZ_flag]
    · simp [State.finishReg, State.setSZ_flag, bitOV]

end Sys2Proof.Machine
end

section
/-! LOOP, LINK and the jumps (40_dispatch_prefix_control.md R126 to R130). -/

namespace Sys2Proof.Machine

/-! ## What each leaves before its transfer -/

section
variable (s : State)

/-- LOOP's count of R12, before its transfer. -/
def State.counted : State := (s.writeReg 12 (s.reg 12 - 1)).setSZ (s.reg 12 - 1)

@[simp] theorem State.counted_reg (r : Reg) : s.counted.reg r = if r = 12 then s.reg 12 - 1 else s.reg r := by
  simp [State.counted, State.setSZ]

theorem State.counted_flag (j : Nat) :
    s.counted.flag j = if j = 1 then s.reg 12 - 1 == 0 else if j = 3 then (s.reg 12 - 1).getLsbD 15 else s.flag j := by
  rw [State.counted, State.setSZ_flag, State.writeReg_flag]

/-- The count as a number modulo 65536. -/
theorem sub_one_eq_ofInt (v : Word) : v - 1 = BitVec.ofInt 16 (v.toNat - 1) := by
  apply BitVec.eq_of_toNat_eq
  rw [BitVec.toNat_sub, BitVec.toNat_ofInt]
  change (65536 - 1 + v.toNat) % 65536 = (((v.toNat : Int) - 1) % 65536).toNat
  omega

theorem exec_loop :
    exec .loop s = .next (s.counted.writeReg 15 (if s.reg 12 - 1 = 0 then s.pc + 1 else s.reg 13)).clrFlags := by
  change Host.Outcome.next (if s.reg 12 - 1 = 0 then s.counted.advance else s.counted.jump (s.counted.reg 13)).clrFlags = _
  by_cases h : s.reg 12 - 1 = 0
  · have hpc : s.counted.pc = s.pc := by simp [State.pc]
    rw [if_pos h, if_pos h, State.advance_eq_writeReg, hpc]
  · rw [if_neg h, if_neg h]
    simp

/-- LJMP's writes of the bank and the window, before its transfer. -/
def State.rebased (n : Reg) : State :=
  { s with pbr := BitVec.ofNat 8 ((s.reg n).toNat % 128), cbr := s.src &&& 0xFFF0#16, cacheActive := true, cvalid := 0xFFFF#16 }

theorem lowByte_and_7F (v : Word) : lowByte v &&& 0x7F#8 = BitVec.ofNat 8 (v.toNat % 128) := by
  apply BitVec.eq_of_toNat_eq
  rw [BitVec.toNat_and, toNat_lowByte, BitVec.toNat_ofNat (v.toNat % 128)]
  change _ &&& 2 ^ 7 - 1 = _
  rw [Nat.and_two_pow_sub_one_eq_mod]
  omega

theorem exec_ljmp (n : Reg) : exec (.ljmp n) s = .next ((s.rebased n).writeReg 15 s.src).clrFlags := by
  rw [State.rebased, ← lowByte_and_7F]
  change Host.Outcome.next ((State.jump { s with pbr := lowByte (s.reg n) &&& 0x7F#8 } s.src).cacheFlush.cacheAnchor
    (cacheBaseOf (State.jump { s with pbr := lowByte (s.reg n) &&& 0x7F#8 } s.src).pc)).clrFlags = _
  rw [State.jump_eq, State.writeReg_pc]
  rfl

end

/-- Settles O21: the count is written first, and the transfer is to R13 or to the next byte by its value. -/
theorem loopCountsDownR12 : Obligations.LoopCountsDownR12 := by
  unfold Obligations.LoopCountsDownR12
  refine ⟨fun _ _ _ _ => rfl, fun s => ?_⟩
  have h12 (target : Word) : (s.counted.writeReg 15 target).clrFlags.reg 12 = s.reg 12 - 1 := by simp
  have hsfr : SameSfrExcept szMask s s.counted := (SameSfrExcept.refl _ s).setSZ rfl rfl _
  refine runsTo_of_transfer (exec_loop s) (by simp) (fun r hr => ?_) hsfr (SameSpecial.refl s) rfl rfl ?_
  · have hne : r ≠ 12 := fun h => hr (by simp [h])
    simp [hne]
  · rw [h12]
    refine ⟨sub_one_eq_ofInt _, hasSZ_of_flags ?_ ?_, fun h => ?_, fun h => ?_, rfl, rfl, State.clrFlags_cleared _⟩
    · simp [s.counted_flag]
    · simp [s.counted_flag]
    · exact (State.writeReg_pc _ _).trans (if_neg h)
    · exact (State.writeReg_pc _ _).trans (if_pos h)

/-- Settles O22: LINK writes R11 and advances, JMP is a transfer alone. -/
theorem linkAndJumpTransferInTheBank : Obligations.LinkAndJumpTransferInTheBank := by
  unfold Obligations.LinkAndJumpTransferInTheBank
  refine ⟨fun n s => ⟨standsAt_link, ?_⟩, fun n s => ⟨standsAt_jmp, ?_⟩⟩
  · refine runsTo_of_transfer (w := s.writeReg 11 (s.pc + zext4 n)) (mask := 0) rfl (by simp) (fun r hr => ?_)
      (SameSfrExcept.refl 0 s) (SameSpecial.refl s) rfl rfl ⟨?_, ?_, rfl, rfl, State.clrFlags_cleared _⟩
    · have hne : r ≠ 11 := fun h => hr (by simp [h])
      simp [hne]
    · simp [zext4_eq_ofNat]
    · simp [State.pc]
  · exact runsTo_of_transfer (w := s) (mask := 0) rfl (by simp) (fun _ _ => rfl)
      (SameSfrExcept.refl 0 s) (SameSpecial.refl s) rfl rfl ⟨State.writeReg_pc _ _, rfl, rfl, State.clrFlags_cleared _⟩

/-- Settles O23: the bank and the window are written beside the transfer. -/
theorem longJumpSelectsTheBankAndRebasesTheCache : Obligations.LongJumpSelectsTheBankAndRebasesTheCache := by
  unfold Obligations.LongJumpSelectsTheBankAndRebasesTheCache
  intro n s
  exact ⟨standsAt_ljmp, runsTo_of_transfer (mask := 0) (exec_ljmp s n) (by simp) (fun _ _ => rfl)
    (SameSfrExcept.refl 0 s) (SameSpecial.refl (s.rebased n)) rfl rfl
    ⟨State.writeReg_pc _ _, rfl, rfl, State.clrFlags_cleared _⟩⟩

end Sys2Proof.Machine
end

section
/-! Where the spec's map holds the instructions of 41_alu.md (30_encoding.md R80, R87): rows that mean another instruction on each of the
four pages, and rows whose last byte is another group's. -/

namespace Sys2Proof

open Sys2Proof.Machine

/-! ## One page of four -/

section
variable {α : Type} {m : Mode} {x0 x1 x2 x3 : α}

theorem Mode.pick_eq_getD (m : Mode) (x0 x1 x2 x3 : α) : m.pick x0 x1 x2 x3 = [x0, x1, x2, x3].getD m.page x3 := by
  obtain ⟨b, _ | _, _ | _⟩ := m <;> rfl

theorem Mode.pick_of_page_zero (h : m.page ∈ [0]) : m.pick x0 x1 x2 x3 = x0 := by
  rw [m.pick_eq_getD, List.mem_singleton.mp h]; rfl

theorem Mode.pick_of_page_one (h : m.page ∈ [1]) : m.pick x0 x1 x2 x3 = x1 := by
  rw [m.pick_eq_getD, List.mem_singleton.mp h]; rfl

theorem Mode.pick_of_page_two (h : m.page ∈ [2]) : m.pick x0 x1 x2 x3 = x2 := by
  rw [m.pick_eq_getD, List.mem_singleton.mp h]; rfl

theorem Mode.pick_of_page_three (h : m.page ∈ [3]) : m.pick x0 x1 x2 x3 = x3 := by
  rw [m.pick_eq_getD, List.mem_singleton.mp h]; rfl

end

/-! ## An opcode byte by its nibbles -/

section
variable {pages : List Nat} {hi lo : Nat} {o : Opcode}

theorem standsAt_opByte {f : Byte → Byte → Instr} (hkey : ∀ m : Mode, m.page ∈ pages → keyOpcode m hi lo = o)
    (hf : ∀ b1 b2, o.instr (opByte hi lo) b1 b2 = f b1 b2) (hhi : hi < 16 := by decide) (hlo : lo < 16 := by decide) :
    StandsAt pages (opByte hi lo) f := fun m b1 b2 hm => by
  rw [decodeOp_opByte hhi hlo, hkey m hm, hf]

/-- A row of instructions with a register in the low nibble. -/
theorem standsAt_reg {n : Reg} {g : Reg → Instr} (hkey : ∀ m : Mode, m.page ∈ pages → keyOpcode m hi n.val = o)
    (hg : ∀ op b1 b2, o.instr op b1 b2 = g (regField op)) (hhi : hi < 16 := by decide) :
    StandsAt pages (opByte hi n.val) (fun _ _ => g n) :=
  standsAt_opByte hkey (fun _ _ => by rw [hg, regField_opByte hhi]) hhi n.isLt

/-- A row of instructions with a 4-bit immediate in the low nibble. -/
theorem standsAt_imm {n : Imm4} {g : Imm4 → Instr} (hkey : ∀ m : Mode, m.page ∈ pages → keyOpcode m hi n.toNat = o)
    (hg : ∀ op b1 b2, o.instr op b1 b2 = g (immField op)) (hhi : hi < 16 := by decide) :
    StandsAt pages (opByte hi n.toNat) (fun _ _ => g n) :=
  standsAt_opByte hkey (fun _ _ => by rw [hg, immField_opByte hhi]) hhi n.isLt

end

/-! ## The rows with a byte of another group: 70, C0, DF and EF -/

section
variable (m : Mode) {lo : Nat}

theorem keyOpcode_row7 (h : lo ≠ 0) : keyOpcode m 0x7 lo = m.pick .and .bic .andI .bicI := by
  obtain ⟨k, rfl⟩ := Nat.exists_eq_succ_of_ne_zero h
  rfl

theorem keyOpcode_rowC (h : lo ≠ 0) : keyOpcode m 0xC lo = m.pick .or .xor .orI .xorI := by
  obtain ⟨k, rfl⟩ := Nat.exists_eq_succ_of_ne_zero h
  rfl

theorem keyOpcode_rowD (h : lo ≤ 14) : keyOpcode m 0xD lo = .inc := by
  interval_cases lo <;> rfl

theorem keyOpcode_rowE (h : lo ≤ 14) : keyOpcode m 0xE lo = .dec := by
  interval_cases lo <;> rfl

end

end Sys2Proof
end

section
/-! The ends that the instructions of 41_alu.md share (R150): which flags each leaves, over the usual end with a value for a register. -/

namespace Sys2Proof.Machine

variable {i : Instr} {s : State} {d : Reg} {v : Word} {mask : Word} {post : State → Prop}

/-! ## Flags through the usual ends -/

@[simp] theorem State.finish_flag (s : State) (j : Nat) : s.finish.flag j = if j = 8 ∨ j = 9 ∨ j = 12 then false else s.flag j := by
  simp [State.finish]

@[simp] theorem State.finishReg_flag (s : State) (d : Reg) (v : Word) (j : Nat) :
    (s.finishReg d v).flag j = if j = 8 ∨ j = 9 ∨ j = 12 then false else s.flag j := by
  simp [State.finishReg]

/-- The state with another SFR, which is all an instruction of 41_alu.md changes before its end. -/
def State.withSfr (s : State) (f : Word) : State := { s with sfr := f }

@[simp] theorem State.withSfr_flag (s : State) (f : Word) (j : Nat) : (s.withSfr f).flag j = f.getLsbD j := rfl

/-- An instruction that writes SFR, then takes the usual end with `v` for register `d`. -/
theorem writesReg_of_flags {f : Word} (hx : exec i s = .next ((s.withSfr f).finishReg d v)) (hsfr : SameSfrExcept mask s (s.withSfr f))
    (hpost : post ((s.withSfr f).finishReg d v)) : WritesReg i s s 0 d v mask post :=
  writesReg_of_finishReg hx (fun _ _ => rfl) (BitVec.add_zero _).symm hsfr (SameSpecial.refl s) (fun _ => rfl) (fun _ => rfl) rfl
    rfl rfl hpost

/-! ## SetSZ (10_state.md R17) -/

theorem hasSZ_setSZ_finishReg (s : State) (d : Reg) (v w : Word) : HasSZ v ((s.setSZ v).finishReg d w) :=
  hasSZ_of_flags (by simp [State.setSZ_flag]) (by simp [State.setSZ_flag])

/-- `SetSZ(v); Advance(); R[d] <- v; ClrFlags()`. -/
theorem writesReg_of_setSZ (hx : exec i s = .next ((s.setSZ v).finishReg d v)) : WritesReg i s s 0 d v szMask (HasSZ v) :=
  writesReg_of_flags hx ((SameSfrExcept.refl _ s).setSZ rfl rfl v) (hasSZ_setSZ_finishReg s d v v)

theorem givesSZ_of_result (hx : exec i s = .next (s.result v)) : GivesSZ i s v := writesReg_of_setSZ hx

/-- The shifts write CY first (41_alu.md R170 to R174). -/
theorem shifts_of_shifted {c : Bool} (hx : exec i s = .next (s.shifted v c)) : Shifts i s v c :=
  writesReg_of_flags hx (((SameSfrExcept.refl _ s).setFlag (b := bitCY) rfl c).setSZ rfl rfl v)
    ⟨hasSZ_setSZ_finishReg (s.setFlag bitCY c) s.dreg v v, by simp [bitCY]⟩

/-! ## The four condition flags (41_alu.md R151, R152, R180) -/

/-- The state's condition flags are those of `f`. -/
def HasFlags (f : Flagged) (t : State) : Prop :=
  t.flag bitZ = f.z ∧ t.flag bitCY = f.cy ∧ t.flag bitSG = f.sg ∧ t.flag bitOV = f.ov

theorem SameSfrExcept.setCond (s : State) (f : Flagged) : SameSfrExcept condMask s (s.setCond f) :=
  ((((SameSfrExcept.refl _ s).setFlag (b := bitZ) rfl _).setFlag (b := bitCY) rfl _).setFlag (b := bitSG) rfl _).setFlag
    (b := bitOV) rfl _

/-- The adds, the subtracts and MERGE write the four flags of a `Flagged` and its value. -/
theorem writesReg_of_arith {f : Flagged} (hx : exec i s = .next (s.arith f)) (hpost : ∀ t, HasFlags f t → post t) :
    WritesReg i s s 0 s.dreg f.value condMask post :=
  writesReg_of_flags hx (SameSfrExcept.setCond s f) (hpost _ (by simp [HasFlags, bitCY, bitSG, bitOV]))

/-- CMP writes the four flags and discards the value. -/
theorem writesNoReg_of_setCond {f : Flagged} (hx : exec i s = .next (s.setCond f).finish) (hpost : ∀ t, HasFlags f t → post t) :
    WritesNoReg i s s 0 condMask post :=
  writesNoReg_of_finish hx (fun _ _ => rfl) (BitVec.add_zero _).symm (SameSfrExcept.setCond s f) (SameSpecial.refl s) (fun _ => rfl)
    (fun _ => rfl) rfl rfl (hpost _ (by simp [HasFlags, State.setCond_flag]))

end Sys2Proof.Machine
end

section
/-! Add, subtract and compare (41_alu.md R151 to R160): the flags of `AddFlags` and `SubFlags` as facts about the unbounded results. -/

namespace Sys2Proof.Machine

/-! ## The formulas (R151, R152) -/

theorem and_0x8000_eq_bitAt (w : Word) : w &&& 0x8000#16 = bitAt 15 (w.getLsbD 15) := BitVec.and_twoPow w 15

theorem and_0x8000_ne_zero (w : Word) : (w &&& 0x8000#16 != 0#16) = w.getLsbD 15 := by
  rw [and_0x8000_eq_bitAt]
  cases w.getLsbD 15 <;> rfl

section
variable (a b : Word) (c : Bool)

theorem toNat_addFlags_value : (addFlags a b c).value.toNat = (a.toNat + b.toNat + c.toNat) % 65536 := BitVec.toNat_ofNat _ _

theorem toNat_subFlags_value :
    ((subFlags a b c).value.toNat : Int) = ((a.toNat : Int) - b.toNat - c.toNat) % 65536 := by
  rw [subFlags, BitVec.toNat_ofInt]
  omega

theorem addFlags_ov : (addFlags a b c).ov =
    ((!(a.getLsbD 15 ^^ b.getLsbD 15)) && (b.getLsbD 15 ^^ (addFlags a b c).value.getLsbD 15)) := by
  rw [addFlags, and_0x8000_ne_zero]
  simp

theorem subFlags_ov : (subFlags a b c).ov =
    ((a.getLsbD 15 ^^ b.getLsbD 15) && (a.getLsbD 15 ^^ (subFlags a b c).value.getLsbD 15)) := by
  rw [subFlags, and_0x8000_ne_zero]
  simp

/-- The xor formula is signed overflow (R195 (c)), with the carry too: each sign bit is a bound on a number. -/
theorem addFlags_ov_eq_decide : (addFlags a b c).ov =
    decide (a.toInt + b.toInt + c.toNat < -32768 ∨ 32767 < a.toInt + b.toInt + c.toNat) := by
  have hv := toNat_addFlags_value a b c
  rw [addFlags_ov, Bool.eq_iff_iff]
  simp only [getLsbD_15_eq, BitVec.toInt_eq_toNat_cond, Bool.and_eq_true, Bool.not_eq_true', Bool.eq_false_iff, Bool.xor_iff_ne,
    decide_eq_true_iff, decide_eq_decide, ne_eq]
  have hc := c.toNat_le
  split_ifs <;> omega

/-- The same for the difference. -/
theorem subFlags_ov_eq_decide : (subFlags a b c).ov =
    decide (a.toInt - b.toInt - c.toNat < -32768 ∨ 32767 < a.toInt - b.toInt - c.toNat) := by
  have hv := toNat_subFlags_value a b c
  rw [subFlags_ov, Bool.eq_iff_iff]
  simp only [getLsbD_15_eq, BitVec.toInt_eq_toNat_cond, Bool.and_eq_true, Bool.xor_iff_ne, decide_eq_true_iff, decide_eq_decide,
    ne_eq]
  have hc := c.toNat_le
  split_ifs <;> omega

end

/-! ## From the flags of a formula to what they say -/

theorem hasCond_of_hasFlags {f : Flagged} {cy ov : Bool} {t : State} (hz : f.z = (f.value == 0)) (hs : f.sg = f.value.getLsbD 15)
    (hc : f.cy = cy) (ho : f.ov = ov) (h : HasFlags f t) : HasCond f.value cy ov t := by
  obtain ⟨hzt, hct, hst, hot⟩ := h
  exact ⟨⟨hasSZ_of_flags (hzt.trans hz) (hst.trans hs), hct.trans hc⟩, hot.trans ho⟩

section
variable {i : Instr} {s : State} {b : Word} {c : Bool}

theorem adds_of_arith (hx : exec i s = .next (s.arith (addFlags s.src b c))) : Adds i s b c :=
  writesReg_of_arith hx fun _ => hasCond_of_hasFlags rfl rfl rfl (addFlags_ov_eq_decide _ _ _)

theorem subtractFlags_of_hasFlags {t : State} (h : HasFlags (subFlags s.src b c) t) : SubtractFlags s b c t := by
  refine hasCond_of_hasFlags rfl rfl ?_ (subFlags_ov_eq_decide _ _ _) h
  exact decide_eq_decide.mpr (by omega)

end

/-- Settles O24: the value is the unbounded result modulo 65536, and the mask of bit 15 picks the xor formula's sign bits. -/
theorem addAndSubtractFlagFormulas : Obligations.AddAndSubtractFlagFormulas := by
  unfold Obligations.AddAndSubtractFlagFormulas
  intro a b c
  refine ⟨⟨toNat_addFlags_value a b c, decide_eq_true_iff, ?_, rfl, addFlags_ov a b c⟩,
    toNat_subFlags_value a b c, decide_eq_true_iff, ?_, rfl, subFlags_ov a b c⟩
  · rw [← toNat_addFlags_value]
    exact beq_iff_eq.trans BitVec.toNat_eq
  · rw [← toNat_subFlags_value, Int.natCast_eq_zero]
    exact beq_iff_eq.trans BitVec.toNat_eq

/-- Settles O25: the four are `AddFlags` of their operand, and its formulas say carry and signed overflow. -/
theorem addInstructions : Obligations.AddInstructions := by
  unfold Obligations.AddInstructions
  refine fun s => ⟨fun n => ⟨?_, adds_of_arith rfl⟩, fun n => ⟨?_, adds_of_arith rfl⟩, fun n => ⟨?_, ?_⟩, fun n => ⟨?_, ?_⟩⟩
  · exact standsAt_reg (fun _ => Mode.pick_of_page_zero) fun _ _ _ => rfl
  · exact standsAt_reg (fun _ => Mode.pick_of_page_one) fun _ _ _ => rfl
  · exact standsAt_imm (fun _ => Mode.pick_of_page_two) fun _ _ _ => rfl
  · exact zext4_eq_ofNat n ▸ adds_of_arith rfl
  · exact standsAt_imm (fun _ => Mode.pick_of_page_three) fun _ _ _ => rfl
  · exact zext4_eq_ofNat n ▸ adds_of_arith rfl

/-- Settles O26: the four are `SubFlags` of their operand; CMP keeps the flags alone. -/
theorem subtractAndCompareInstructions : Obligations.SubtractAndCompareInstructions := by
  unfold Obligations.SubtractAndCompareInstructions
  refine fun s => ⟨fun n => ⟨?_, ?_⟩, fun n => ⟨?_, ?_⟩, fun n => ⟨?_, ?_⟩, fun n => ⟨?_, ?_⟩⟩
  · exact standsAt_reg (fun _ => Mode.pick_of_page_zero) fun _ _ _ => rfl
  · exact writesReg_of_arith rfl fun _ => subtractFlags_of_hasFlags
  · exact standsAt_reg (fun _ => Mode.pick_of_page_one) fun _ _ _ => rfl
  · exact writesReg_of_arith rfl fun _ => subtractFlags_of_hasFlags
  · exact standsAt_imm (fun _ => Mode.pick_of_page_two) fun _ _ _ => rfl
  · exact zext4_eq_ofNat n ▸ writesReg_of_arith rfl fun _ => subtractFlags_of_hasFlags
  · exact standsAt_reg (fun _ => Mode.pick_of_page_three) fun _ _ _ => rfl
  · exact writesNoReg_of_setCond rfl fun _ => subtractFlags_of_hasFlags

end Sys2Proof.Machine
end

section
/-! Logic and shifts (41_alu.md R161 to R174): the shifted words, which the model writes with bit operations, as numbers. -/

namespace Sys2Proof.Machine

/-- Settles O28: each is `SetSZ` of a bitwise result and the usual end. -/
theorem logicInstructions : Obligations.LogicInstructions := by
  unfold Obligations.LogicInstructions
  have hreg {n : Reg} (h : n ≠ 0) : n.val ≠ 0 := fun e => h (Fin.ext e)
  have himm {n : Imm4} (h : n ≠ 0) : n.toNat ≠ 0 := fun e => h (BitVec.eq_of_toNat_eq e)
  refine fun s => ⟨fun n hn => ⟨?_, ?_, ?_, ?_⟩, fun n hn => ⟨?_, ?_, ?_, ?_⟩,
    fun n => ⟨givesSZ_of_result rfl, givesSZ_of_result rfl, givesSZ_of_result rfl, givesSZ_of_result rfl⟩, fun n => ?_,
    fun _ _ _ _ => rfl, givesSZ_of_result rfl⟩
  · exact standsAt_reg (fun m h => (keyOpcode_row7 m (hreg hn)).trans (Mode.pick_of_page_zero h)) fun _ _ _ => rfl
  · exact standsAt_reg (fun m h => (keyOpcode_row7 m (hreg hn)).trans (Mode.pick_of_page_one h)) fun _ _ _ => rfl
  · exact standsAt_reg (fun m h => (keyOpcode_rowC m (hreg hn)).trans (Mode.pick_of_page_zero h)) fun _ _ _ => rfl
  · exact standsAt_reg (fun m h => (keyOpcode_rowC m (hreg hn)).trans (Mode.pick_of_page_one h)) fun _ _ _ => rfl
  · exact standsAt_imm (fun m h => (keyOpcode_row7 m (himm hn)).trans (Mode.pick_of_page_two h)) fun _ _ _ => rfl
  · exact standsAt_imm (fun m h => (keyOpcode_row7 m (himm hn)).trans (Mode.pick_of_page_three h)) fun _ _ _ => rfl
  · exact standsAt_imm (fun m h => (keyOpcode_rowC m (himm hn)).trans (Mode.pick_of_page_two h)) fun _ _ _ => rfl
  · exact standsAt_imm (fun m h => (keyOpcode_rowC m (himm hn)).trans (Mode.pick_of_page_three h)) fun _ _ _ => rfl
  · intro k
    have hk : zext4 n = k := zext4_eq_ofNat n
    exact hk ▸ ⟨givesSZ_of_result rfl, givesSZ_of_result rfl, givesSZ_of_result rfl, givesSZ_of_result rfl⟩

/-! ## Shifts as numbers -/

section
variable (v : Word) (c : Bool)

theorem getLsbD_zero_eq_decide : v.getLsbD 0 = decide (v.toNat % 2 = 1) := by
  simp [BitVec.getLsbD]

theorem ushiftRight_one_eq_ofNat : v >>> 1 = BitVec.ofNat 16 (v.toNat / 2) := by
  apply BitVec.eq_of_toNat_eq
  rw [BitVec.toNat_ushiftRight, BitVec.toNat_ofNat, Nat.shiftRight_eq_div_pow]
  omega

/-- A carry that comes in at a clear bit adds to the word. -/
theorem or_bitAt_eq_add {w : Word} {i : Nat} (h : w.getLsbD i = false) : w ||| bitAt i c = w + bitAt i c := by
  refine (BitVec.add_eq_or_of_and_eq_zero w _ ?_).symm
  cases c with
  | false => exact BitVec.and_zero
  | true => exact (BitVec.and_twoPow w i).trans (by simp [h])

theorem shiftLeft_or_bitAt_zero : (v <<< 1) ||| bitAt 0 c = BitVec.ofNat 16 (2 * v.toNat + c.toNat) := by
  have hc : (bitAt 0 c).toNat = c.toNat := by cases c <;> rfl
  rw [or_bitAt_eq_add c (by simp)]
  apply BitVec.eq_of_toNat_eq
  rw [BitVec.toNat_add, hc, BitVec.toNat_shiftLeft, BitVec.toNat_ofNat, Nat.shiftLeft_eq]
  omega

theorem ushiftRight_or_bitAt_fifteen : (v >>> 1) ||| bitAt 15 c = BitVec.ofNat 16 (v.toNat / 2 + 0x8000 * c.toNat) := by
  have hc : (bitAt 15 c).toNat = 0x8000 * c.toNat := by cases c <;> rfl
  rw [or_bitAt_eq_add c (by simp)]
  apply BitVec.eq_of_toNat_eq
  rw [BitVec.toNat_add, hc, BitVec.toNat_ushiftRight, BitVec.toNat_ofNat, Nat.shiftRight_eq_div_pow]

/-- The sign bit that stays halves the signed value, rounding down (R172). -/
theorem asrWord_eq_ofInt : asrWord v = BitVec.ofInt 16 (v.toInt / 2) := by
  rw [asrWord, and_0x8000_eq_bitAt, ushiftRight_or_bitAt_fifteen, getLsbD_15_eq, Bool.toNat, Bool.cond_decide]
  apply BitVec.eq_of_toNat_eq
  rw [BitVec.toNat_ofNat, BitVec.toNat_ofInt, BitVec.toInt_eq_toNat_cond]
  split_ifs <;> omega

end

/-- Settles O29: the shifts are those of the numbers, and CY is the bit that leaves. -/
theorem shiftInstructions : Obligations.ShiftInstructions := by
  unfold Obligations.ShiftInstructions
  intro s a cy half
  have hlow : s.src.getLsbD 0 = decide (a % 2 = 1) := getLsbD_zero_eq_decide s.src
  have hhigh : s.src.getLsbD 15 = decide (0x8000 ≤ a) := getLsbD_15_eq s.src
  have hhalf : asrWord s.src = half := asrWord_eq_ofInt s.src
  rw [← hlow, ← hhigh, ← hhalf]
  refine ⟨fun _ _ _ _ => rfl, ?_, fun _ _ _ _ => rfl, ?_, ?_, shifts_of_shifted rfl, ?_, shifts_of_shifted rfl,
    fun _ _ _ _ => rfl, ?_⟩
  · exact ushiftRight_one_eq_ofNat s.src ▸ shifts_of_shifted rfl
  · exact shiftLeft_or_bitAt_zero s.src cy ▸ shifts_of_shifted rfl
  · exact standsAt_opByte (hi := 9) (lo := 6) (fun _ h => Mode.pick_of_page_even h _ _) fun _ _ => rfl
  · exact standsAt_opByte (hi := 9) (lo := 6) (fun _ h => Mode.pick_of_page_odd h _ _) fun _ _ => rfl
  · exact ushiftRight_or_bitAt_fifteen s.src cy ▸ shifts_of_shifted rfl

end Sys2Proof.Machine
end

section
/-! The byte instructions and MERGE (41_alu.md R176 to R180): bytes moved in a word, as numbers. -/

namespace Sys2Proof.Machine

/-! ## Bytes as numbers -/

theorem swapBytes_eq_ofNat (v : Word) :
    wordOfBytes (highByte v) (lowByte v) = BitVec.ofNat 16 (256 * (v.toNat % 256) + v.toNat / 256) := by
  rw [wordOfBytes_eq_ofNat, toNat_lowByte, toNat_highByte, Nat.add_comm]

theorem sext8_lowByte_eq_ofNat (v : Word) :
    sext8 (lowByte v) = BitVec.ofNat 16 (if v.toNat % 256 < 0x80 then v.toNat % 256 else 0xFF00 + v.toNat % 256) := by
  apply BitVec.eq_of_toNat_eq
  rw [sext8_eq_ofInt, BitVec.toNat_ofInt, BitVec.toInt_eq_toNat_cond, toNat_lowByte, BitVec.toNat_ofNat]
  split_ifs <;> omega

@[simp] theorem lowByte_zext8 (b : Byte) : lowByte (zext8 b) = b := by simp [lowByte, zext8]

theorem getLsbD_7_zext8 (b : Byte) : (zext8 b).getLsbD 7 = decide (0x80 ≤ b.toNat) := by
  rw [zext8, BitVec.getLsbD_setWidth, ← BitVec.msb_eq_getLsbD_last b, BitVec.msb_eq_decide]
  rfl

/-- A byte written to D by the end of LOB and HIB (R178, R179). -/
theorem writesReg_of_result8 {i : Instr} {s : State} {b : Byte} (hx : exec i s = .next (s.result8 b)) :
    WritesReg i s s 0 s.dreg (BitVec.ofNat 16 b.toNat) szMask
      (fun t => t.flag bitZ = decide (b.toNat = 0) ∧ t.flag bitSG = decide (0x80 ≤ b.toNat)) := by
  rw [← zext8_eq_ofNat]
  refine writesReg_of_flags hx (((SameSfrExcept.refl _ s).setFlag (b := bitSG) rfl _).setFlag (b := bitZ) rfl _) ⟨?_, ?_⟩
  · change ((s.setSZ8 (zext8 b)).finishReg s.dreg (zext8 b)).flag bitZ = _
    simp [State.setSZ8_flag, beq_eq_decide, BitVec.toNat_eq]
  · change ((s.setSZ8 (zext8 b)).finishReg s.dreg (zext8 b)).flag bitSG = _
    rw [State.finishReg_flag, State.setSZ8_flag]
    exact getLsbD_7_zext8 b

/-- Settles O30: each value is its two bytes rearranged. -/
theorem byteInstructions : Obligations.ByteInstructions := by
  unfold Obligations.ByteInstructions
  intro s lo hi gives8
  have hlo : (lowByte s.src).toNat = lo := toNat_lowByte s.src
  have hhi : (highByte s.src).toNat = hi := toNat_highByte s.src
  refine ⟨fun _ _ _ _ => rfl, ?_, fun _ _ _ _ => rfl, ?_, fun _ _ _ _ => rfl, ?_, fun _ _ _ _ => rfl, ?_⟩
  · exact swapBytes_eq_ofNat s.src ▸ givesSZ_of_result rfl
  · exact sext8_lowByte_eq_ofNat s.src ▸ givesSZ_of_result rfl
  · exact hlo ▸ writesReg_of_result8 rfl
  · exact hhi ▸ writesReg_of_result8 rfl

/-! ## MERGE -/

/-- R7's high byte above R8's (R180), bit by bit. -/
theorem mergeFlags_value_eq_wordOfBytes (r7 r8 : Word) : (mergeFlags r7 r8).value = wordOfBytes (highByte r8) (highByte r7) := by
  have hmask : ∀ j < 16, (0xFF00#16).getLsbD j = decide (8 ≤ j) := by decide
  apply BitVec.eq_of_getLsbD_eq
  intro j hj
  rw [mergeFlags, wordOfBytes, BitVec.getLsbD_append, BitVec.getLsbD_or, BitVec.getLsbD_and, hmask j hj, BitVec.getLsbD_ushiftRight]
  by_cases hlow : j < 8
  · simp [highByte, hlow]
  · have hhigh : 8 ≤ j := by omega
    have hbound : j - 8 < 8 := by omega
    have hin : 8 + (j - 8) = j := by omega
    have hout : r8.getLsbD (8 + j) = false := BitVec.getLsbD_of_ge r8 _ (by omega)
    simp [highByte, hj, hlow, hhigh, hbound, hin, hout]

theorem mergeFlags_value_eq_ofNat (r7 r8 : Word) :
    (mergeFlags r7 r8).value = BitVec.ofNat 16 (256 * (r7.toNat / 256) + r8.toNat / 256) := by
  rw [mergeFlags_value_eq_wordOfBytes, wordOfBytes_eq_ofNat, toNat_highByte, toNat_highByte, Nat.add_comm]

/-- Settles O31: the four flags are the model's masks of the merged word. -/
theorem mergeSetsFlagsByMasks : Obligations.MergeSetsFlagsByMasks := by
  unfold Obligations.MergeSetsFlagsByMasks
  refine ⟨fun _ _ _ _ => rfl, fun s => ?_⟩
  intro v
  have hv : (mergeFlags (s.reg 7) (s.reg 8)).value = v := mergeFlags_value_eq_ofNat _ _
  rw [← hv]
  refine writesReg_of_arith rfl fun t ⟨hz, hc, hs, ho⟩ => ?_
  rw [hz, hc, hs, ho]
  exact ⟨bne_iff_ne, bne_iff_ne, bne_iff_ne, bne_iff_ne⟩

end Sys2Proof.Machine
end

section
/-! The multiplies (41_alu.md R181 to R188): the products of the bytes and the words as numbers, and LMULT's two register writes. -/

namespace Sys2Proof.Machine

/-! ## The byte multiplies -/

theorem toInt_lowByte (w : Word) : (lowByte w).toInt = signedLow w := by
  rw [BitVec.toInt_eq_toNat_cond, toNat_lowByte, signedLow]
  split_ifs <;> omega

/-- Settles O32: each is `SetSZ` of a product of the low bytes' numbers and the usual end. -/
theorem byteMultiplies : Obligations.ByteMultiplies := by
  unfold Obligations.ByteMultiplies
  intro s
  rw [← toInt_lowByte, ← toNat_lowByte]
  refine ⟨fun n => ⟨?_, ?_⟩, fun n => ⟨?_, ?_⟩, fun n => ⟨?_, givesSZ_of_result rfl⟩, fun n => ⟨?_, givesSZ_of_result rfl⟩⟩
  · exact standsAt_reg (fun _ => Mode.pick_of_page_zero) fun _ _ _ => rfl
  · exact toInt_lowByte (s.reg n) ▸ givesSZ_of_result rfl
  · exact standsAt_reg (fun _ => Mode.pick_of_page_one) fun _ _ _ => rfl
  · exact toNat_lowByte (s.reg n) ▸ givesSZ_of_result rfl
  · exact standsAt_imm (fun _ => Mode.pick_of_page_two) fun _ _ _ => rfl
  · exact standsAt_imm (fun _ => Mode.pick_of_page_three) fun _ _ _ => rfl

/-! ## The two words of a product -/

theorem productHigh_ofInt (c : Int) : productHigh (BitVec.ofInt 32 c) = BitVec.ofInt 16 (c / 65536) := by
  apply BitVec.eq_of_toNat_eq
  rw [productHigh, BitVec.extractLsb'_toNat, BitVec.toNat_ofInt, BitVec.toNat_ofInt, Nat.shiftRight_eq_div_pow]
  omega

theorem productLow_ofInt (c : Int) : productLow (BitVec.ofInt 32 c) = BitVec.ofInt 16 c := by
  apply BitVec.eq_of_toNat_eq
  rw [productLow, BitVec.toNat_setWidth, BitVec.toNat_ofInt, BitVec.toNat_ofInt]
  omega

/-! ## FMULT and LMULT -/

section
variable (s : State)

theorem sameSfrExcept_productFlags : SameSfrExcept shiftMask s s.productFlags :=
  ((SameSfrExcept.refl _ s).setSZ rfl rfl _).setFlag (b := bitCY) rfl _

/-- Z, SG and CY as FMULT and LMULT leave them (R187). -/
def HasProductFlags (s t : State) : Prop := HasSZC (productHigh s.product) (s.product.getLsbD s.config.mult16CarryBit) t

theorem hasProductFlags_of_flags {t : State} (h : ∀ j < 8, t.flag j = s.productFlags.flag j) : HasProductFlags s t := by
  refine ⟨hasSZ_of_flags ((h 1 (by decide)).trans ?_) ((h 3 (by decide)).trans ?_), (h 2 (by decide)).trans ?_⟩
  · simp [State.productFlags, State.setSZ_flag, bitCY]
  · simp [State.productFlags, State.setSZ_flag, bitCY]
  · simp [State.productFlags, bitCY]

theorem writesReg_fmult : WritesReg .fmult s s 0 s.dreg (productHigh s.product) shiftMask (HasProductFlags s) := by
  refine writesReg_of_flags rfl (sameSfrExcept_productFlags s) (hasProductFlags_of_flags s fun j hj => ?_)
  rw [State.finishReg_flag, if_neg (by omega)]
  rfl

/-- What LMULT leaves before its write of D: R4 is written first (R188). -/
def State.lowWritten : State := s.productFlags.advance.writeReg 4 (productLow s.product)

theorem State.lowWritten_reg (r : Reg) :
    s.lowWritten.reg r = if r = 4 then productLow s.product else if r = 15 then s.pc + 1 else s.reg r := by
  rw [State.lowWritten, State.writeReg_reg, State.advance_reg]
  rfl

/-- The state after LMULT. -/
def State.lmulted : State := (s.lowWritten.writeReg s.dreg (productHigh s.product)).clrFlags

theorem State.lmulted_reg (r : Reg) :
    s.lmulted.reg r = if r = s.dreg then productHigh s.product else s.lowWritten.reg r := by
  rw [State.lmulted, State.clrFlags_reg, State.writeReg_reg]

theorem hasProductFlags_lmulted : HasProductFlags s s.lmulted := by
  refine hasProductFlags_of_flags s fun j hj => ?_
  rw [State.lmulted, State.clrFlags_flag, if_neg (by omega), State.writeReg_flag]
  rfl

/-- The frame of LMULT: R4, D, R15 and the flags of FMULT. -/
theorem runsTo_lmult {post : State → Prop} (hpost : post s.lmulted) :
    RunsTo .lmult s s [4, s.dreg, 15] (shiftMask ||| modeMask) post := by
  have hsfr : SameSfrExcept shiftMask s (s.lowWritten.writeReg s.dreg (productHigh s.product)) := fun j hj => by
    rw [State.writeReg_sfr]
    exact sameSfrExcept_productFlags s j hj
  have hspecial : SameSpecial s s.lowWritten := SameSpecial.refl s
  refine ⟨s.lmulted, rfl, fun r hr => ?_, sameSfr_clrFlags hsfr _ rfl, ?_, fun a => ?_, fun a => ?_, hpost⟩
  · simp only [List.mem_cons, List.not_mem_nil, or_false, not_or] at hr
    obtain ⟨h4, hd, h15⟩ := hr
    rw [s.lmulted_reg, if_neg hd, s.lowWritten_reg, if_neg h4, if_neg h15]
  · simpa [SameSpecial, State.lmulted] using hspecial
  · exact congrArg (·.read a) (State.writeReg_ram s.lowWritten _ _)
  · exact congrArg (·.read a) (State.writeReg_rom s.lowWritten _ _)

end

/-- Settles O33: the 32-bit product holds the two words of the exact one; LMULT's write of R4 stands when D is another register. -/
theorem wordMultiplies : Obligations.WordMultiplies := by
  unfold Obligations.WordMultiplies
  intro s c high low carry
  have hhigh : productHigh s.product = high := productHigh_ofInt c
  have hlow : productLow s.product = low := productLow_ofInt c
  rw [← hhigh, ← hlow]
  refine ⟨?_, writesReg_fmult s, ?_, runsTo_lmult s ⟨?_, fun h4 => ?_, fun h15 => ?_, State.writeReg_rombuf s.lowWritten _ _,
    State.writeReg_pipe s.lowWritten _ _, hasProductFlags_lmulted s, State.clrFlags_cleared _⟩⟩
  · exact standsAt_opByte (hi := 9) (lo := 15) (fun _ h => Mode.pick_of_page_even h _ _) fun _ _ => rfl
  · exact standsAt_opByte (hi := 9) (lo := 15) (fun _ h => Mode.pick_of_page_odd h _ _) fun _ _ => rfl
  · rw [s.lmulted_reg, if_pos rfl]
  · rw [s.lmulted_reg, if_neg h4.symm, s.lowWritten_reg, if_pos rfl]
  · rw [State.pc, s.lmulted_reg, if_neg h15.symm, s.lowWritten_reg]
    rfl

end Sys2Proof.Machine
end

section
/-! INC and DEC (41_alu.md R190, R191). -/

namespace Sys2Proof.Machine

theorem add_one_eq_ofNat (v : Word) : v + 1 = BitVec.ofNat 16 (v.toNat + 1) := by
  rw [BitVec.ofNat_add, BitVec.ofNat_toNat, BitVec.setWidth_eq]
  rfl

/-- Settles O34: both are `SetSZ` of R[n] moved by one and the usual end with R[n] for D. -/
theorem incrementAndDecrement : Obligations.IncrementAndDecrement := by
  unfold Obligations.IncrementAndDecrement
  intro n s up down
  have hup : s.reg n + 1 = up := add_one_eq_ofNat (s.reg n)
  have hdown : s.reg n - 1 = down := sub_one_eq_ofInt (s.reg n)
  refine ⟨fun hn => ⟨?_, ?_⟩, ?_, ?_⟩
  · exact standsAt_reg (fun m _ => keyOpcode_rowD m hn) fun _ _ _ => rfl
  · exact standsAt_reg (fun m _ => keyOpcode_rowE m hn) fun _ _ _ => rfl
  · exact hup ▸ writesReg_of_setSZ rfl
  · exact hdown ▸ writesReg_of_setSZ rfl

end Sys2Proof.Machine
end

section
/-! Where the spec's map holds the instructions of 42_load_store.md (30_encoding.md R80, R87): the rows whose instructions carry
immediate bytes, and the bytes 30 to 3B and 40 to 4B. -/

namespace Sys2Proof

open Sys2Proof.Machine

/-- The rows A and F hold one load on both odd pages and two other instructions on the even ones. -/
theorem Mode.pick_of_page_odd_of_ne {α : Type} {m : Mode} {x0 x2 y : α} (h : m.page ∈ [1, 3]) : m.pick x0 y x2 y = y := by
  rcases List.mem_pair.mp h with h | h
  · exact Mode.pick_of_page_one (List.mem_singleton.mpr h)
  · exact Mode.pick_of_page_three (List.mem_singleton.mpr h)

/-- A row of instructions with a register in the low nibble and immediates from the bytes that follow. -/
theorem standsAt_regImm {pages : List Nat} {hi : Nat} {o : Opcode} {n : Reg} {f : Byte → Byte → Instr}
    (hkey : ∀ m : Mode, m.page ∈ pages → keyOpcode m hi n.val = o)
    (hf : ∀ op b1 b2, regField op = n → o.instr op b1 b2 = f b1 b2) (hhi : hi < 16 := by decide) :
    StandsAt pages (opByte hi n.val) f :=
  standsAt_opByte hkey (fun b1 b2 => hf _ b1 b2 (regField_opByte hhi n)) hhi n.isLt

/-! ## The rows A and F, page by page -/

section
variable (n : Reg)

theorem standsAt_ibt : StandsAt [0] (opByte 0xA n.val) (fun b1 _ => .ibt n b1) :=
  standsAt_regImm (fun _ => Mode.pick_of_page_zero) fun _ _ _ h => h ▸ rfl

theorem standsAt_lms : StandsAt [1, 3] (opByte 0xA n.val) (fun b1 _ => .lms n b1) :=
  standsAt_regImm (fun _ => Mode.pick_of_page_odd_of_ne) fun _ _ _ h => h ▸ rfl

theorem standsAt_sms : StandsAt [2] (opByte 0xA n.val) (fun b1 _ => .sms n b1) :=
  standsAt_regImm (fun _ => Mode.pick_of_page_two) fun _ _ _ h => h ▸ rfl

theorem standsAt_iwt : StandsAt [0] (opByte 0xF n.val) (fun b1 b2 => .iwt n (wordOfBytes b1 b2)) :=
  standsAt_regImm (fun _ => Mode.pick_of_page_zero) fun _ _ _ h => h ▸ rfl

theorem standsAt_lm : StandsAt [1, 3] (opByte 0xF n.val) (fun b1 b2 => .lm n (wordOfBytes b1 b2)) :=
  standsAt_regImm (fun _ => Mode.pick_of_page_odd_of_ne) fun _ _ _ h => h ▸ rfl

theorem standsAt_sm : StandsAt [2] (opByte 0xF n.val) (fun b1 b2 => .sm n (wordOfBytes b1 b2)) :=
  standsAt_regImm (fun _ => Mode.pick_of_page_two) fun _ _ _ h => h ▸ rfl

end

/-! ## The bytes 30 to 3B and 40 to 4B -/

section
variable (m : Mode) {lo : Nat}

theorem keyOpcode_store (h : lo ≤ 11) : keyOpcode m 0x3 lo = m.pick .stw .stb .stw .stb := by
  interval_cases lo <;> rfl

theorem keyOpcode_load (h : lo ≤ 11) : keyOpcode m 0x4 lo = m.pick .ldw .ldb .ldw .ldb := by
  interval_cases lo <;> rfl

end

end Sys2Proof
end

section
/-! The two ends that the instructions of 42_load_store.md share: immediate bytes consumed and an address recorded, then a value for a
register or bytes for the RAM. -/

namespace Sys2Proof.Machine

/-! ## Before the end: immediate bytes consumed and an address recorded -/

/-- The state after `k` calls of `Imm8()` (40_dispatch_prefix_control.md R103). -/
def State.consume (s : State) : Nat → State
  | 0 => s
  | k + 1 => (s.consume k).imm8

/-- The state after `k` calls of `Imm8()` and the record of address `a` (42_load_store.md R203). An instruction that records none is
one that records `lastRamAddr` again. -/
def State.addressed (s : State) (k : Nat) (a : Word) : State := (s.consume k).recordAddr a

section
variable (s : State) (k : Nat) (a : Word)

theorem State.consume_reg (r : Reg) : (s.consume k).reg r = if r = 15 then s.reg 15 + BitVec.ofNat 16 k else s.reg r := by
  induction k generalizing r with
  | zero => by_cases h : r = 15 <;> simp [State.consume, h]
  | succ k ih =>
    rw [State.consume, State.imm8_reg, ih, ih, if_pos rfl, BitVec.add_assoc, BitVec.ofNat_add k 1]
    split_ifs <;> rfl

/-- `Imm8()` writes R15 and the pipe only. -/
theorem State.consume_frame : s.consume k = { s with regs := (s.consume k).regs, pipe := (s.consume k).pipe } := by
  induction k with
  | zero => rfl
  | succ k ih =>
    rw [State.consume, ih]
    rfl

theorem State.consume_prgRead (b : Word) : (s.consume k).prgRead b = s.prgRead b := by
  rw [s.consume_frame]
  rfl

theorem State.consume_pipe : (s.consume k).pipe = pipeAfter s k := by
  cases k with
  | zero => rfl
  | succ k =>
    rw [State.consume, State.imm8_pipe, s.consume_reg, s.consume_prgRead]
    simp [pipeAfter, State.pc, BitVec.ofNat_add, BitVec.add_assoc]

theorem State.addressed_frame : s.addressed k a =
    { s with regs := (s.consume k).regs, pipe := pipeAfter s k, lastRamAddr := a } := by
  rw [State.addressed, State.recordAddr, ← s.consume_pipe k]
  conv_lhs => rw [s.consume_frame k]

theorem State.addressed_reg (r : Reg) : (s.addressed k a).reg r = if r = 15 then s.reg 15 + BitVec.ofNat 16 k else s.reg r :=
  s.consume_reg k r

@[simp] theorem State.addressed_ram : (s.addressed k a).ram = s.ram := by rw [s.addressed_frame]
@[simp] theorem State.addressed_cvalid : (s.addressed k a).cvalid = s.cvalid := by rw [s.addressed_frame]
@[simp] theorem State.addressed_ramPhys (b : Word) : (s.addressed k a).ramPhys b = s.ramPhys b := by rw [s.addressed_frame]; rfl
@[simp] theorem State.addressed_trackedBlock (p : Nat) : (s.addressed k a).trackedBlock p = s.trackedBlock p := by
  rw [s.addressed_frame]
  rfl

end

/-! ## A value for a register -/

/-- The loads write R[d] and no condition flag (42_load_store.md). -/
theorem writesReg_of_addressed {i : Instr} {s : State} {k : Nat} {a : Word} {d : Reg} {v : Word}
    (hx : exec i s = .next ((s.addressed k a).finishReg d v)) : WritesReg i s { s with lastRamAddr := a } k d v 0 anyPost := by
  have hreg := s.addressed_reg k a
  rw [s.addressed_frame] at hx hreg
  exact writesReg_of_finishReg hx (fun r hr => (hreg r).trans (if_neg hr)) ((hreg 15).trans (if_pos rfl)) (SameSfrExcept.refl 0 s)
    (SameSpecial.refl _) (fun _ => rfl) (fun _ => rfl) rfl rfl rfl trivial

/-! ## Bytes for the RAM -/

/-- A store writes RAM and the validity bits only. -/
theorem State.storeRam_frame (s : State) (p : Nat) (v : Byte) :
    s.storeRam p v = { s with ram := (s.storeRam p v).ram, cvalid := (s.storeRam p v).cvalid } := by
  unfold State.storeRam State.trackCacheWrite
  split <;> rfl

theorem State.ramWrite16_frame (s : State) (a v : Word) :
    s.ramWrite16 a v = { s with ram := (s.ramWrite16 a v).ram, cvalid := (s.ramWrite16 a v).cvalid } := by
  unfold State.ramWrite16 State.ramWrite
  rw [State.storeRam_frame, s.storeRam_frame]

section
variable {i : Instr} {s : State} {k : Nat} {a : Word}

/-- An instruction that ends in `finish`, from a state that differs from the addressed one in RAM and in the validity bits. -/
theorem stores_of_finish {ram : Memory} {valid : BitVec 16} {stored : List Nat} {after : Nat → Byte}
    (hx : exec i s = .next (State.finish { s.addressed k a with ram := ram, cvalid := valid })) (hram : ∀ p, ram.read p = after p)
    (hvalid : ∀ b, valid.getLsbD b = true ↔ s.cvalid.getLsbD b = true ∧ ∀ p ∈ stored, s.trackedBlock p ≠ some b) :
    Stores i s k a stored after := by
  have hreg (r : Reg) : (State.finish { s.addressed k a with ram := ram, cvalid := valid }).reg r =
      if r = 15 then s.reg 15 + BitVec.ofNat 16 k + 1 else s.reg r := by
    refine (State.advance_reg _ r).trans ?_
    change (if r = 15 then (s.addressed k a).reg 15 + 1 else (s.addressed k a).reg r) = _
    rw [s.addressed_reg, s.addressed_reg, if_pos rfl]
    split_ifs <;> rfl
  rw [s.addressed_frame] at hx hreg
  refine ⟨_, hx, fun r hr => ?_, sameSfr_clrFlags (SameSfrExcept.refl 0 s) _ rfl, SameSpecial.refl _, fun _ => rfl, ?_, rfl, rfl,
    State.clrFlags_cleared _, hram, hvalid⟩
  · have hne : r ≠ 15 := List.ne_of_not_mem_cons hr
    rw [hreg, if_neg hne]
  · exact (hreg 15).trans ((if_pos rfl).trans (add_right_comm _ _ _))

/-- The stores of a word: its two bytes at the address recorded (20_memory.md R59). -/
theorem stores_word {v : Word} (hx : exec i s = .next ((s.addressed k a).ramWrite16 a v).finish) :
    Stores i s k a (wordBytes s a) (ramAfterWord s a v) := by
  rw [State.ramWrite16_frame] at hx
  refine stores_of_finish hx (fun p => ?_) fun b => ?_
  · simp [State.ramWrite16_read, ramAfterWord]
  · simp [State.ramWrite16_valid, wordBytes, partner, and_assoc]

/-- The store of a byte at the address recorded. -/
theorem stores_byte {v : Byte} (hx : exec i s = .next ((s.addressed k a).ramWrite a v).finish) :
    Stores i s k a [s.ramPhys a] (ramAfterByte s a v) := by
  rw [State.ramWrite, State.storeRam_frame] at hx
  refine stores_of_finish hx (fun p => ?_) fun b => ?_
  · simp [ramAfterByte]
  · simp

end

end Sys2Proof.Machine
end

section
/-! The loads and the ROM buffer reads (42_load_store.md R200, R201, R206, R207, R209, R211, R215 to R218). -/

namespace Sys2Proof.Machine

/-! ## Addresses and RAM words as numbers -/

theorem shortAddr_eq_ofNat (yy : Byte) : shortAddr yy = BitVec.ofNat 16 (2 * yy.toNat) := by
  apply BitVec.eq_of_toNat_eq
  rw [shortAddr, zext8_eq_ofNat, BitVec.toNat_shiftLeft, BitVec.toNat_ofNat, BitVec.toNat_ofNat, Nat.shiftLeft_eq]
  omega

/-- The loads of a word: a 16-bit RAM read at the address recorded (20_memory.md R59). -/
theorem writesReg_ramWord {i : Instr} {s : State} {k : Nat} {a : Word} {d : Reg}
    (hx : exec i s = .next ((s.addressed k a).finishReg d (s.ramRead16 a))) :
    WritesReg i s { s with lastRamAddr := a } k d (ramWordAt s a) 0 anyPost := by
  have hword : s.ramRead16 a = ramWordAt s a := wordOfBytes_eq_ofNat _ _
  exact hword ▸ writesReg_of_addressed hx

/-- Settles O35: one or two bytes are consumed, then their value goes to R[n]. -/
theorem immediateLoads : Obligations.ImmediateLoads := by
  unfold Obligations.ImmediateLoads
  refine fun n s => ⟨fun pp => ⟨fun m b2 hm => ?_, ?_⟩, fun lo hi => ?_⟩
  · exact standsAt_ibt n m pp b2 (List.mem_singleton.mpr hm)
  · exact sext8_eq_ofInt pp ▸ writesReg_of_addressed (a := s.lastRamAddr) rfl
  · rw [← wordOfBytes_eq_ofNat]
    exact ⟨fun m hm => standsAt_iwt n m lo hi (List.mem_singleton.mpr hm),
      writesReg_of_addressed (a := s.lastRamAddr) rfl⟩

/-- Settles O37: the address is recorded, no immediate byte consumed, and the RAM value goes to D. -/
theorem registerAddressedLoads : Obligations.RegisterAddressedLoads := by
  unfold Obligations.RegisterAddressedLoads
  refine fun n s => ⟨fun hn => ⟨?_, ?_⟩, ?_, ?_⟩
  · exact standsAt_reg (fun m h => (keyOpcode_load m hn).trans (Mode.pick_of_page_even h _ _)) fun _ _ _ => rfl
  · exact standsAt_reg (fun m h => (keyOpcode_load m hn).trans (Mode.pick_of_page_odd h _ _)) fun _ _ _ => rfl
  · exact writesReg_ramWord rfl
  · exact zext8_eq_ofNat (s.ramRead (s.reg n)) ▸ writesReg_of_addressed rfl

/-- Settles O38: the immediate bytes are the address, and the RAM word there goes to R[n]. -/
theorem absoluteLoads : Obligations.AbsoluteLoads := by
  unfold Obligations.AbsoluteLoads
  refine fun n s => ⟨fun yy => ?_, fun lo hi => ?_⟩
  · rw [← shortAddr_eq_ofNat]
    exact ⟨fun m b2 hm => standsAt_lms n m yy b2 hm, writesReg_ramWord rfl⟩
  · rw [← wordOfBytes_eq_ofNat]
    exact ⟨fun m hm => standsAt_lm n m lo hi hm, writesReg_ramWord rfl⟩

/-- Settles O40: the ROM buffer's byte, alone or beside a byte of S, goes to D. -/
theorem romBufferReads : Obligations.RomBufferReads := by
  unfold Obligations.RomBufferReads
  intro s r
  have load {i : Instr} {v : Word} (hx : exec i s = .next (s.finishD v)) : WritesReg i s s 0 s.dreg v 0 anyPost :=
    writesReg_of_addressed (a := s.lastRamAddr) hx
  have hhigh : wordOfBytes (lowByte s.src) s.rombuf = BitVec.ofNat 16 (s.src.toNat % 256 + 256 * r) := by
    rw [wordOfBytes_eq_ofNat, toNat_lowByte]
  have hlow : wordOfBytes s.rombuf (highByte s.src) = BitVec.ofNat 16 (256 * (s.src.toNat / 256) + r) := by
    rw [wordOfBytes_eq_ofNat, toNat_highByte, Nat.add_comm]
  refine ⟨?_, zext8_eq_ofNat s.rombuf ▸ load rfl, ?_, hhigh ▸ load rfl, ?_, hlow ▸ load rfl, ?_,
    sext8_eq_ofInt s.rombuf ▸ load rfl⟩
  · exact standsAt_opByte (hi := 14) (lo := 15) (fun _ => Mode.pick_of_page_zero) fun _ _ => rfl
  · exact standsAt_opByte (hi := 14) (lo := 15) (fun _ => Mode.pick_of_page_one) fun _ _ => rfl
  · exact standsAt_opByte (hi := 14) (lo := 15) (fun _ => Mode.pick_of_page_two) fun _ _ => rfl
  · exact standsAt_opByte (hi := 14) (lo := 15) (fun _ => Mode.pick_of_page_three) fun _ _ => rfl

end Sys2Proof.Machine
end

section
/-! The stores and the bank instructions (42_load_store.md R204, R205, R208, R210, R212, R221, R222). -/

namespace Sys2Proof.Machine

/-- Settles O36: SBK stores where `lastRamAddr` says, the others record R[n] first. -/
theorem registerAddressedStores : Obligations.RegisterAddressedStores := by
  unfold Obligations.RegisterAddressedStores
  refine fun s => ⟨fun n hn => ⟨?_, ?_⟩, fun n => stores_word rfl, fun n => stores_byte rfl, fun _ _ _ _ => rfl, stores_word rfl⟩
  · exact standsAt_reg (fun m h => (keyOpcode_store m hn).trans (Mode.pick_of_page_even h _ _)) fun _ _ _ => rfl
  · exact standsAt_reg (fun m h => (keyOpcode_store m hn).trans (Mode.pick_of_page_odd h _ _)) fun _ _ _ => rfl

/-- Settles O39: the word stored is R[n] of the state before the immediate bytes are consumed. -/
theorem absoluteStores : Obligations.AbsoluteStores := by
  unfold Obligations.AbsoluteStores
  refine fun n s => ⟨fun yy => ?_, fun lo hi => ?_⟩
  · rw [← shortAddr_eq_ofNat]
    exact ⟨fun m b2 hm => standsAt_sms n m yy b2 (List.mem_singleton.mpr hm), stores_word rfl⟩
  · rw [← wordOfBytes_eq_ofNat]
    exact ⟨fun m hm => standsAt_sm n m lo hi (List.mem_singleton.mpr hm), stores_word rfl⟩

/-- Settles O41: each writes its bank register before the usual end. -/
theorem bankInstructions : Obligations.BankInstructions := by
  unfold Obligations.BankInstructions
  intro s
  have hram : s.src.setWidth 2 = BitVec.ofNat 2 (s.src.toNat % 4) := by
    apply BitVec.eq_of_toNat_eq
    simp
  have hrom : s.srcLow &&& 0x7F#8 = BitVec.ofNat 8 (s.src.toNat % 128) := lowByte_and_7F s.src
  rw [← hram, ← hrom]
  refine ⟨?_, ?_, ?_, ?_⟩
  · exact standsAt_opByte (hi := 13) (lo := 15) (fun _ => Mode.pick_of_page_two) fun _ _ => rfl
  · exact writesNoReg_of_finish (w := { s with rambr := s.src.setWidth 2 }) rfl (fun _ _ => rfl) (BitVec.add_zero _).symm
      (SameSfrExcept.refl 0 s) (SameSpecial.refl _) (fun _ => rfl) (fun _ => rfl) rfl rfl trivial
  · exact standsAt_opByte (hi := 13) (lo := 15) (fun _ => Mode.pick_of_page_three) fun _ _ => rfl
  · exact writesNoReg_of_finish (w := { s with rombr := s.srcLow &&& 0x7F#8 }) rfl (fun _ _ => rfl) (BitVec.add_zero _).symm
      (SameSfrExcept.refl 0 s) (SameSpecial.refl _) (fun _ => rfl) (fun _ => rfl) rfl rfl trivial

end Sys2Proof.Machine
end

section
/-! Where the spec's map holds GETC (30_encoding.md R87): one instruction on the two low pages. -/

namespace Sys2Proof

theorem Mode.pick_of_page_low {α : Type} {m : Mode} {x y2 y3 : α} (h : m.page ∈ [0, 1]) : m.pick x x y2 y3 = x := by
  rcases List.mem_pair.mp h with h | h
  · exact Mode.pick_of_page_zero (List.mem_singleton.mpr h)
  · exact Mode.pick_of_page_one (List.mem_singleton.mpr h)

end Sys2Proof
end

section
/-! The colour register and the plot options (43_plot.md R240 to R243): COLR's nibbles as numbers, and the screen geometry that SCMR and
POR give. -/

namespace Sys2Proof.Machine

/-- The usual end of an instruction of 43_plot.md that writes no general register: before it at most COLR and POR are written. -/
theorem writesNoReg_of_plotRegisters {i : Instr} {s : State} {c : Byte} {options : BitVec 5} {post : State → Prop}
    (hx : exec i s = .next (State.finish { s with colr := c, por := options }))
    (hpost : post (State.finish { s with colr := c, por := options })) :
    WritesNoReg i s { s with colr := c, por := options } 0 0 post :=
  writesNoReg_of_finish hx (fun _ _ => rfl) (BitVec.add_zero _).symm (SameSfrExcept.refl 0 s) (SameSpecial.refl _) (fun _ => rfl)
    (fun _ => rfl) rfl rfl hpost

/-! ## COLR's nibbles -/

theorem and_F0_eq_shiftLeft (a : Byte) : a &&& 0xF0#8 = (a >>> 4) <<< 4 := by
  have hmask : ∀ j < 8, (0xF0#8).getLsbD j = decide (4 ≤ j) := by decide
  apply BitVec.eq_of_getLsbD_eq
  intro j hj
  rw [BitVec.getLsbD_and, hmask j hj, BitVec.getLsbD_shiftLeft, BitVec.getLsbD_ushiftRight]
  by_cases hhigh : 4 ≤ j
  · simp [hj, hhigh]
  · simp [hhigh]

/-- The high nibble of one byte above the low nibble of another. -/
theorem toNat_highNibble_or (a : Byte) {b : Byte} (hb : b.toNat < 16) :
    ((a &&& 0xF0#8) ||| b).toNat = 16 * (a.toNat / 16) + b.toNat := by
  have ha := a.isLt
  have hhigh : (a &&& 0xF0#8).toNat = 2 ^ 4 * (a.toNat / 16) := by
    rw [and_F0_eq_shiftLeft, BitVec.toNat_shiftLeft, BitVec.toNat_ushiftRight, Nat.shiftLeft_eq, Nat.shiftRight_eq_div_pow]
    omega
  rw [BitVec.toNat_or, hhigh, ← Nat.two_pow_add_eq_or_of_lt hb]

theorem toNat_and_0F (c : Byte) : (c &&& 0x0F#8).toNat = c.toNat % 16 := Nat.and_two_pow_sub_one_eq_mod c.toNat 4

section
variable (s : State) (c : Byte)

/-- The HIGHNIB step (R243). -/
theorem State.toNat_transformColor :
    (s.transformColor c).toNat = if s.por.getLsbD 2 then 16 * (c.toNat / 16) + c.toNat / 16 else c.toNat := by
  have hc := c.isLt
  have hhigh : (c >>> 4).toNat = c.toNat / 16 := by rw [BitVec.toNat_ushiftRight, Nat.shiftRight_eq_div_pow]
  change (if s.por.getLsbD 2 then _ else c).toNat = _
  split_ifs
  · rw [toNat_highNibble_or c (by omega), hhigh]
  · rfl

/-- The FREEZE step (R243), on what the HIGHNIB step gives. -/
theorem State.toNat_setColor_colr : (s.setColor c).colr.toNat =
    if s.por.getLsbD 3 then 16 * (s.colr.toNat / 16) + (s.transformColor c).toNat % 16 else (s.transformColor c).toNat := by
  change (if s.por.getLsbD 3 then _ else s.transformColor c).toNat = _
  split_ifs
  · rw [toNat_highNibble_or s.colr (by rw [toNat_and_0F]; omega), toNat_and_0F]
  · rfl

theorem State.setColor_colr : (s.setColor c).colr = BitVec.ofNat 8
    (let c1 := if s.por.getLsbD 2 then 16 * (c.toNat / 16) + c.toNat / 16 else c.toNat
     if s.por.getLsbD 3 then 16 * (s.colr.toNat / 16) + c1 % 16 else c1) := by
  rw [← s.toNat_transformColor, ← s.toNat_setColor_colr, BitVec.ofNat_toNat, BitVec.setWidth_eq]

end

/-- Settles O46: both are `SetColor` of a byte and the usual end. -/
theorem colorInstructionsTransformTheirInput : Obligations.ColorInstructionsTransformTheirInput := by
  unfold Obligations.ColorInstructionsTransformTheirInput
  intro s transformed
  have hcolr (c : Byte) : (s.setColor c).colr = transformed c.toNat := s.setColor_colr c
  rw [← toNat_lowByte, ← hcolr, ← hcolr]
  refine ⟨?_, writesNoReg_of_plotRegisters rfl trivial, ?_, writesNoReg_of_plotRegisters rfl trivial⟩
  · exact standsAt_opByte (hi := 4) (lo := 14) (fun _ h => Mode.pick_of_page_even h _ _) fun _ _ => rfl
  · exact standsAt_opByte (hi := 13) (lo := 15) (fun _ => Mode.pick_of_page_low) fun _ _ => rfl

/-! ## Depth and heights (10_state.md R27, R28) -/

theorem State.depth_eq_getD (s : State) : s.depth = [2, 4, 4, 8].getD (s.scmr.toNat % 4) 0 := by
  have hmode : s.scmr.toNat % 4 = 2 * (s.scmr.getLsbD 1).toNat + (s.scmr.getLsbD 0).toNat := by
    rw [BitVec.getLsbD, BitVec.getLsbD, Nat.toNat_testBit, Nat.toNat_testBit]
    omega
  rw [hmode, State.depth]
  cases s.scmr.getLsbD 1 <;> cases s.scmr.getLsbD 0 <;> rfl

theorem State.realHeight_eq_getD (s : State) :
    s.realHeight = [128, 160, 192, 256].getD (2 * (s.scmr.toNat / 32 % 2) + s.scmr.toNat / 4 % 2) 0 := by
  have hhigh : s.scmr.toNat / 32 % 2 = (s.scmr.getLsbD 5).toNat := (Nat.toNat_testBit _ 5).symm
  have hlow : s.scmr.toNat / 4 % 2 = (s.scmr.getLsbD 2).toNat := (Nat.toNat_testBit _ 2).symm
  rw [hhigh, hlow, State.realHeight]
  cases s.scmr.getLsbD 5 <;> cases s.scmr.getLsbD 2 <;> rfl

/-- Settles O47: POR is written before the usual end, and the height reads SPRITE from it. -/
theorem cmodeSetsTheOptionsAndTheHeight : Obligations.CmodeSetsTheOptionsAndTheHeight := by
  unfold Obligations.CmodeSetsTheOptionsAndTheHeight
  refine ⟨?_, fun s => ⟨s.depth_eq_getD, s.realHeight_eq_getD, ?_⟩⟩
  · exact standsAt_opByte (hi := 4) (lo := 14) (fun _ h => Mode.pick_of_page_odd h _ _) fun _ _ => rfl
  · have hpor : s.src.setWidth 5 = BitVec.ofNat 5 (s.src.toNat % 32) := by
      apply BitVec.eq_of_toNat_eq
      simp
    have hsprite : (s.src.setWidth 5).getLsbD 4 = s.src.getLsbD 4 := by simp
    rw [← hpor, ← hsprite]
    exact writesNoReg_of_plotRegisters rfl ⟨rfl, rfl, rfl⟩

end Sys2Proof.Machine
end

section
/-! PLOT and RPIX (43_plot.md R247, R248): the pixel's place and the final colour as the statements write them, then what each
instruction leaves. -/

namespace Sys2Proof.Machine

/-! ## The pixel's place and colour -/

section
variable (s : State)

theorem State.toNat_plotX_mod : s.plotX.toNat % 8 = (s.reg 1).toNat % 8 := by
  rw [State.plotX, toNat_lowByte]
  omega

/-- The plane address of R58, R244 and R246 is the one the model computes. -/
theorem State.scrPhys_pixelOffset (p : Nat) : s.scrPhys (s.pixelOffset + planeOff p) = planeAddr s p := by
  have hrow : (s.reg 2).toNat % 256 % 8 * 2 = 2 * ((s.reg 2).toNat % 256 % 8) := Nat.mul_comm _ _
  have hplane : p / 2 * 16 = 16 * (p / 2) := Nat.mul_comm _ _
  simp only [State.scrPhys, State.pixelOffset, pixOff, planeOff, State.plotX, State.plotY, toNat_lowByte, hrow, hplane]
  rfl

/-- The planes of one pixel are distinct bytes, whatever the wrap of the RAM. -/
theorem planeAddr_inj {p q : Nat} (hp : p < s.depth) (hq : q < s.depth) (h : planeAddr s p = planeAddr s q) : p = q := by
  have hlt {r : Nat} (hr : r < s.depth) : planeOff r < bankSize := (planeOff_lt (hr.trans_le s.depth_le)).trans (by decide)
  rw [← s.scrPhys_pixelOffset, ← s.scrPhys_pixelOffset] at h
  exact planeOff_inj (s.scrPhys_inj (hlt hp) (hlt hq) h)

/-- The parity of x xor y is that of R1 + R2. -/
theorem State.plotParity_iff : (s.plotX ^^^ s.plotY).getLsbD 0 = true ↔ ((s.reg 1).toNat + (s.reg 2).toNat) % 2 = 1 := by
  have hlow (w : Word) : (lowByte w).getLsbD 0 = decide (w.toNat % 2 = 1) := by
    rw [lowByte, BitVec.getLsbD_setWidth, getLsbD_zero_eq_decide]
    rfl
  rw [BitVec.getLsbD_xor, State.plotX, State.plotY, hlow, hlow, Bool.xor_iff_ne, ne_eq, decide_eq_decide]
  omega

theorem State.toNat_plotColor : s.plotColor.toNat = finalColor s := by
  have hdither : (s.config.ditherDepths.contains s.depth && s.porDither && (s.plotX ^^^ s.plotY).getLsbD 0) = true ↔
      s.depth ∈ s.config.ditherDepths ∧ s.por.getLsbD 1 = true ∧ ((s.reg 1).toNat + (s.reg 2).toNat) % 2 = 1 := by
    rw [Bool.and_eq_true, Bool.and_eq_true, List.contains_iff_mem, s.plotParity_iff, and_assoc]
    rfl
  simp only [State.plotColor, finalColor, hdither]
  split_ifs
  · rw [BitVec.toNat_ushiftRight, Nat.shiftRight_eq_div_pow]
  · rfl

theorem plotWrites_iff : PlotWrites s ↔ s.inScreen = true ∧ s.transparent = false := by
  rw [PlotWrites, s.inScreen_iff, s.transparent_eq_false_iff, ← s.toNat_plotColor, BitVec.ofNat_toNat, BitVec.setWidth_eq]

end

/-! ## PLOT -/

section
variable (s : State)

/-- What PLOT leaves when it writes no pixel (R247). -/
def State.plotSkipped (s : State) : State := s.finish.writeReg 1 (s.reg 1 + 1)

theorem exec_plot_of_not_plotWrites (h : ¬PlotWrites s) : exec .plot s = .next s.plotSkipped := by
  have hskip : (s.inScreen && !s.transparent) = false := by
    rw [Bool.eq_false_iff, ne_eq, Bool.and_eq_true, Bool.not_eq_true', ← plotWrites_iff]
    exact h
  rw [exec_plot, execPlot, hskip]
  rfl

theorem exec_plot_of_plotWrites (h : PlotWrites s) : exec .plot s = .next s.plotted := by
  obtain ⟨hin, hvisible⟩ := (plotWrites_iff s).mp h
  exact exec_plot_of_writes hin hvisible

theorem State.plotSkipped_scrPhys (p : Nat) : s.plotSkipped.scrPhys (s.pixelOffset + planeOff p) = planeAddr s p := by
  simp [State.plotSkipped, State.finish, s.scrPhys_pixelOffset]

/-- What PLOT's writes leave in RAM: the planes' bytes rewritten, every other byte as before. -/
theorem State.plotted_ram :
    (∀ p, p < s.depth → s.plotted.ram.read (planeAddr s p) =
      planeByte (s.ram.read (planeAddr s p)) (pixMask s.plotX) (s.plotColor.getLsbD p)) ∧
    ∀ a, (∀ p, p < s.depth → a ≠ planeAddr s p) → s.plotted.ram.read a = s.ram.read a := by
  have h := s.plotSkipped.plotPlanes_read s.pixelOffset (pixMask s.plotX) s.plotColor (List.range s.depth)
  simp only [s.plotSkipped_scrPhys, List.mem_range] at h
  exact h (fun p hp q hq => planeAddr_inj s hp hq) List.nodup_range

theorem State.plotted_valid (b : Nat) : s.plotted.cvalid.getLsbD b = true ↔
    s.cvalid.getLsbD b = true ∧ ∀ p, p < s.depth → s.trackedBlock (planeAddr s p) ≠ some b := by
  have h := s.plotSkipped.plotPlanes_valid s.pixelOffset (pixMask s.plotX) s.plotColor (List.range s.depth) b
  simp only [s.plotSkipped_scrPhys, List.mem_range] at h
  exact h

/-- Each plane's byte holds the pixel's bit of the final colour. -/
theorem State.getLsbD_plotted_plane {p : Nat} (hp : p < s.depth) (b : Nat) :
    (s.plotted.ram.read (planeAddr s p)).getLsbD b =
      if b = 7 - (s.reg 1).toNat % 8 then (finalColor s).testBit p else (s.ram.read (planeAddr s p)).getLsbD b := by
  rw [s.plotted_ram.1 p hp, getLsbD_planeByte, s.toNat_plotX_mod, BitVec.getLsbD, s.toNat_plotColor]

/-- In every case PLOT leaves the state of no pixel written, but for RAM and the validity bits. -/
theorem exec_plot_cases : ∃ ram valid, exec .plot s = .next { s.plotSkipped with ram := ram, cvalid := valid } ∧
    (¬PlotWrites s → ram = s.ram ∧ valid = s.cvalid) ∧ (PlotWrites s → ram = s.plotted.ram ∧ valid = s.plotted.cvalid) := by
  by_cases h : PlotWrites s
  · refine ⟨s.plotted.ram, s.plotted.cvalid, ?_, fun hno => absurd h hno, fun _ => ⟨rfl, rfl⟩⟩
    rw [exec_plot_of_plotWrites s h]
    exact congrArg _ (s.plotSkipped.plotPlanes_frame _ _ _ _)
  · exact ⟨s.ram, s.cvalid, exec_plot_of_not_plotWrites s h, fun _ => ⟨rfl, rfl⟩, fun hyes => absurd hyes h⟩

end

/-- Settles O48: the frame is that of a skipped pixel, and RAM and the validity bits are those the loop over the planes leaves. -/
theorem plotWritesThePixelAndIncrementsR1 : Obligations.PlotWritesThePixelAndIncrementsR1 := by
  unfold Obligations.PlotWritesThePixelAndIncrementsR1
  refine ⟨?_, fun s => ?_⟩
  · exact standsAt_opByte (hi := 4) (lo := 12) (fun _ h => Mode.pick_of_page_even h _ _) fun _ _ => rfl
  obtain ⟨ram, valid, hx, hskip, hwrite⟩ := exec_plot_cases s
  have hreg (r : Reg) : State.reg { s.plotSkipped with ram := ram, cvalid := valid } r =
      if r = 1 then s.reg 1 + 1 else if r = 15 then s.pc + 1 else s.reg r := by
    change s.plotSkipped.reg r = _
    rw [State.plotSkipped, State.writeReg_reg, State.finish, State.clrFlags_reg, State.advance_reg]
    rfl
  refine ⟨_, hx, fun r hr => ?_, sameSfr_clrFlags (SameSfrExcept.refl 0 s) _ rfl, SameSpecial.refl _, fun _ => rfl, ?_, hreg 15, rfl,
    rfl, State.clrFlags_cleared _, fun hno => ?_, fun hyes => ?_⟩
  · simp only [List.mem_cons, List.not_mem_nil, or_false, not_or] at hr
    obtain ⟨h1, h15⟩ := hr
    rw [hreg, if_neg h1, if_neg h15]
  · exact (hreg 1).trans (add_one_eq_ofNat _)
  · obtain ⟨rfl, rfl⟩ := hskip hno
    exact ⟨fun _ => rfl, rfl⟩
  · obtain ⟨rfl, rfl⟩ := hwrite hyes
    exact ⟨fun p hp b => s.getLsbD_plotted_plane hp b, s.plotted_ram.2, s.plotted_valid⟩

/-! ## RPIX -/

section
variable (s : State)

/-- Bit p of the pixel is the pixel's bit of plane p; above the depth there is none (R248). -/
theorem State.getLsbD_pixel_eq_plane (p : Nat) : s.pixel.getLsbD p =
    (decide (p < s.depth) && (s.ram.read (planeAddr s p)).getLsbD (7 - (s.reg 1).toNat % 8)) := by
  rw [s.getLsbD_pixel (s.depth_le.trans (by decide)), s.pixelBit_eq, State.scrRead, s.scrPhys_pixelOffset, s.toNat_plotX_mod]

/-- RPIX out of range is the usual end alone. -/
theorem writesNoReg_rpix (h : s.inScreen = false) : WritesNoReg .rpix s s 0 0 anyPost := by
  refine writesNoReg_of_plotRegisters (c := s.colr) (options := s.por) ?_ trivial
  rw [exec_rpix, execRpix, h]
  rfl

/-- RPIX in range writes the pixel to D, with Z and SG from it under the parameter. -/
theorem writesReg_rpix (h : s.inScreen = true) :
    WritesReg .rpix s s 0 s.dreg s.pixel (if s.config.rpixSetsFlags then szMask else 0)
      (fun t => s.config.rpixSetsFlags = true → HasSZ s.pixel t) := by
  have hx : exec .rpix s = .next ((s.rpixFlags s.pixel).finishD s.pixel) := by rw [exec_rpix, execRpix, h]; rfl
  rw [State.rpixFlags] at hx
  cases hflags : s.config.rpixSetsFlags with
  | false =>
    rw [hflags] at hx
    exact writesReg_of_flags (f := s.sfr) hx (SameSfrExcept.refl _ s) nofun
  | true =>
    rw [hflags] at hx
    exact writesReg_of_flags hx ((SameSfrExcept.refl _ s).setSZ rfl rfl _) fun _ => hasSZ_setSZ_finishReg s s.dreg _ _

end

/-- Settles O49: in range the usual end with the pixel for D, out of range the usual end alone. -/
theorem readPixelAssemblesThePlanes : Obligations.ReadPixelAssemblesThePlanes := by
  unfold Obligations.ReadPixelAssemblesThePlanes
  refine ⟨?_, fun s => ⟨fun hout => writesNoReg_rpix s ?_, fun hin => ⟨s.pixel, s.getLsbD_pixel_eq_plane, ?_⟩⟩⟩
  · exact standsAt_opByte (hi := 4) (lo := 12) (fun _ h => Mode.pick_of_page_odd h _ _) fun _ _ => rfl
  · exact Bool.eq_false_iff.mpr (mt s.inScreen_iff.mp hout.not_gt)
  · exact writesReg_rpix s (s.inScreen_iff.mpr hin)

end Sys2Proof.Machine
end

section
/-! What a step leaves to the host (60_exceptions.md R284, 20_memory.md R64, 10_state.md R27, R32, R33), and that every step answers
with a state (40_dispatch_prefix_control.md R101). -/

namespace Sys2Proof.Machine

/-- The fields of a session that only the host and the loops around a step write. -/
structure HostPart where
  scbr : Byte
  scmr : Byte
  cfgr : Byte
  budget : Nat
  err : Int
  illegalAddr : BitVec 24
  bpActive : Bool
  bpAddr : Word
  stepAddr : Word
  image : Memory
  rom : Memory
  config : Config

/-- The host's fields of a state. -/
def State.hostPart (s : State) : HostPart where
  scbr := s.scbr
  scmr := s.scmr
  cfgr := s.cfgr
  budget := s.budget
  err := s.err
  illegalAddr := s.illegalAddr
  bpActive := s.bpActive
  bpAddr := s.bpAddr
  stepAddr := s.stepAddr
  image := s.image
  rom := s.rom
  config := s.config

/-! ## The shared operations keep the host's fields -/

section
variable (s : State)

/-- The fields that the operations below write are none of the host's. -/
@[simp] theorem State.hostPart_core (regs : Vector Word 16) (sreg dreg : Reg) (sfr : Word) (pbr rombr : Byte) (rambr : BitVec 2)
    (cbr : Word) (active : Bool) (valid : BitVec 16) (colr : Byte) (por : BitVec 5) (pipe rombuf : Byte) (last : Word)
    (ram : Memory) :
    State.hostPart { s with
      regs := regs, sreg := sreg, dreg := dreg, sfr := sfr, pbr := pbr, rombr := rombr, rambr := rambr, cbr := cbr,
      cacheActive := active, cvalid := valid, colr := colr, por := por, pipe := pipe, rombuf := rombuf, lastRamAddr := last,
      ram := ram } = s.hostPart := rfl

@[simp] theorem State.hostPart_ite (c : Prop) [Decidable c] (t u : State) :
    (if c then t else u).hostPart = if c then t.hostPart else u.hostPart := apply_ite _ c t u

@[simp] theorem State.setFlag_hostPart (i : Nat) (v : Bool) : (s.setFlag i v).hostPart = s.hostPart := rfl
@[simp] theorem State.setSZ_hostPart (v : Word) : (s.setSZ v).hostPart = s.hostPart := by simp [State.setSZ]
@[simp] theorem State.setSZ8_hostPart (v : Word) : (s.setSZ8 v).hostPart = s.hostPart := by simp [State.setSZ8]
@[simp] theorem State.setCond_hostPart (f : Flagged) : (s.setCond f).hostPart = s.hostPart := by simp [State.setCond]
@[simp] theorem State.clrFlags_hostPart : s.clrFlags.hostPart = s.hostPart := by simp [State.clrFlags]
@[simp] theorem State.advance_hostPart : s.advance.hostPart = s.hostPart := rfl
@[simp] theorem State.finish_hostPart : s.finish.hostPart = s.hostPart := rfl
@[simp] theorem State.imm8_hostPart : s.imm8.hostPart = s.hostPart := rfl
@[simp] theorem State.recordAddr_hostPart (a : Word) : (s.recordAddr a).hostPart = s.hostPart := rfl
@[simp] theorem State.setColor_hostPart (c : Byte) : (s.setColor c).hostPart = s.hostPart := rfl

@[simp] theorem State.writeReg_hostPart (i : Reg) (v : Word) : (s.writeReg i v).hostPart = s.hostPart := by
  unfold State.writeReg
  split <;> rfl

@[simp] theorem State.finishReg_hostPart (i : Reg) (v : Word) : (s.finishReg i v).hostPart = s.hostPart := by
  simp [State.finishReg]

@[simp] theorem State.branch_hostPart (taken : Bool) (e : Byte) : (s.branch taken e).hostPart = s.hostPart := by
  simp [State.branch]

@[simp] theorem State.storeRam_hostPart (p : Nat) (v : Byte) : (s.storeRam p v).hostPart = s.hostPart := by
  rw [s.storeRam_frame]
  rfl

@[simp] theorem State.ramWrite16_hostPart (a v : Word) : (s.ramWrite16 a v).hostPart = s.hostPart := by
  rw [s.ramWrite16_frame]
  rfl

@[simp] theorem State.plotPlanes_hostPart (o : Nat) (m c : Byte) (ps : List Nat) :
    (s.plotPlanes o m c ps).hostPart = s.hostPart := by
  rw [s.plotPlanes_frame]
  rfl

@[simp] theorem State.cacheInstruction_hostPart : s.cacheInstruction.hostPart = s.hostPart := by
  obtain ⟨_, _, _, h⟩ := s.cacheInstruction_eq
  rw [h]
  rfl

@[simp] theorem State.rpixFlags_hostPart (v : Word) : (s.rpixFlags v).hostPart = s.hostPart := by
  simp [State.rpixFlags]

end

/-- Every instruction completes (40_dispatch_prefix_control.md R101) and leaves the host's fields alone. -/
theorem exec_keeps_hostPart (i : Instr) (s : State) : ∃ t, exec i s = .next t ∧ t.hostPart = s.hostPart := by
  cases i
  case stop => exact ⟨_, exec_stop s, rfl⟩
  all_goals
    refine ⟨_, rfl, ?_⟩
    simp [State.arith, State.result, State.result8, State.shifted, State.finishD, State.productFlags, State.loadAbs, State.storeAbs,
      State.ramWrite, State.cacheFlush, State.cacheAnchor]

/-- A step is an instruction after the prologue, which writes the pipe, or nothing (40_dispatch_prefix_control.md R100). -/
theorem step_keeps_hostPart (s : State) : ∃ t, step s = .next t ∧ t.hostPart = s.hostPart := by
  unfold step
  split
  · exact exec_keeps_hostPart s.fetched s.prologue
  · exact ⟨s, rfl, rfl⟩

theorem hostPart_of_step {s t : State} (h : step s = .next t) : t.hostPart = s.hostPart := by
  obtain ⟨u, hu, hpart⟩ := step_keeps_hostPart s
  cases h.symm.trans hu
  exact hpart

/-- What each of the first `k` steps of a sequence keeps, all of them keep. -/
theorem seq_const {α : Type} {f : Nat → α} {k : Nat} (h : ∀ j, j < k → f (j + 1) = f j) {j : Nat} (hj : j ≤ k) : f j = f 0 := by
  induction j with
  | zero => rfl
  | succ j ih => exact (h j hj).trans (ih (Nat.le_of_succ_le hj))

end Sys2Proof.Machine
end

section
/-! The start check (60_exceptions.md R275) and what a start that is not allowed leaves (R278, R283, R271). -/

namespace Sys2Proof.Machine

section
variable (s : State)

/-- R72 with the offset from CBR as a number. -/
theorem State.inWindow_iff (a : Word) :
    s.inWindow a = true ↔ s.cacheActive = true ∧ ((a.toNat : Int) - s.cbr.toNat) % 65536 < 512 := by
  have hoffset : ((a - s.cbr).toNat : Int) = ((a.toNat : Int) - s.cbr.toNat) % 65536 := by
    have hc := s.cbr.isLt
    rw [BitVec.toNat_sub]
    omega
  rw [← hoffset, State.inWindow, Bool.and_eq_true, decide_eq_true_iff]
  exact and_congr_right' Int.ofNat_lt.symm

/-- R275 as a condition. -/
theorem State.startAllowed_iff :
    s.startAllowed = true ↔
      (s.cacheActive = true ∧ ((s.pc.toNat : Int) - s.cbr.toNat) % 65536 < 512) ∨
      (0x70 ≤ s.pbr.toNat ∧ s.pbr.toNat ≤ 0x73 ∧ s.scmr.getLsbD 3 = true) ∨
      (s.pbr.toNat ≤ 0x5F ∧ s.scmr.getLsbD 4 = true) := by
  rw [← s.inWindow_iff, State.startAllowed, State.ramFetchEnabled, State.romFetchEnabled]
  by_cases hwindow : s.inWindow s.pc = true
  · simp [hwindow]
  by_cases hram : 0x70 ≤ s.pbr.toNat ∧ s.pbr.toNat ≤ 0x73
  · have hrom : ¬s.pbr.toNat ≤ 0x5F := by omega
    simp [hwindow, hram, hrom]
  · simp [hwindow, hram, ← and_assoc]

theorem State.toNat_startAddress : s.startAddress.toNat = s.pbr.toNat * 65536 + s.pc.toNat := by
  rw [State.startAddress, BitVec.toNat_append, Nat.shiftLeft_eq, Nat.mul_comm, ← Nat.two_pow_add_eq_or_of_lt s.pc.isLt]

/-- What R278 leaves: GO cleared, the error and the address recorded, every other flag, the registers, the memory and the pipe kept. -/
theorem State.refuseStart_spec : ∃ t, s.refuseStart = (0, t) ∧
    t.err = s.config.errIllegal ∧ t.illegalAddr.toNat = s.pbr.toNat * 65536 + s.pc.toNat ∧ t.flag bitGO = false ∧
    (∀ b, b ≠ bitGO → t.sfr.getLsbD b = s.sfr.getLsbD b) ∧ t.regs = s.regs ∧ t.ram = s.ram ∧ t.rom = s.rom ∧ t.pipe = s.pipe := by
  have hflag (b : Nat) : s.refuseStart.2.flag b = if bitGO = b ∧ b < 16 then false else s.flag b := s.setFlag_flag bitGO false b
  refine ⟨_, rfl, rfl, s.toNat_startAddress, ?_, fun b hb => ?_, rfl, rfl, rfl, rfl⟩
  · exact (hflag bitGO).trans (if_pos (by decide))
  · exact (hflag b).trans (if_neg fun hgo => hb hgo.1.symm)

end

/-- Settles O58: the check by its three clauses, and both calls answer a refused start alike. -/
theorem illegalStartRunsNothing : Obligations.IllegalStartRunsNothing := by
  unfold Obligations.IllegalStartRunsNothing
  refine fun n s => ⟨s.loadImage.startAllowed_iff, fun h => ?_⟩
  obtain ⟨t, ht, hleft⟩ := s.loadImage.refuseStart_spec
  exact ⟨t, ht ▸ emulate_refused h, ht ▸ stepOver_refused h, hleft⟩

end Sys2Proof.Machine
end

section
/-! The loops around a step (60_exceptions.md R276, R282, R283): they answer, since every step does, and the states they go through
keep the host's fields. -/

namespace Sys2Proof.Machine

/-! ## The loops answer -/

theorem runLoop_answers (fuel count : Nat) (s : State) : ∃ c t, runLoop fuel count s = .next (c, t) := by
  induction fuel generalizing count s with
  | zero => exact ⟨count, s, rfl⟩
  | succ fuel ih =>
    rw [runLoop]
    split
    · obtain ⟨t, ht, -⟩ := step_keeps_hostPart { s with budget := fuel }
      rw [ht]
      exact ih _ t
    · exact ⟨count, s, rfl⟩

theorem debugLoop_answers (stop : State → DebugStop) (fuel count : Nat) (s : State) :
    ∃ c t, debugLoop stop fuel count s = .next (c, t) := by
  induction fuel generalizing count s with
  | zero => exact ⟨count, s, rfl⟩
  | succ fuel ih =>
    rw [debugLoop]
    split
    · obtain ⟨t, ht, -⟩ := step_keeps_hostPart s
      rw [ht, andThen]
      split
      · exact ih _ t
      · exact ⟨_, _, rfl⟩
      · exact ⟨_, _, rfl⟩
    · exact ⟨count, s, rfl⟩

/-! ## The value of a batch (60_exceptions.md R277, R278) -/

theorem finishBatch_of_err_zero {c : Nat} {t : State} (h : t.err = 0) : finishBatch (c, t) = ((c : Int), t.storeImage) :=
  Prod.ext (if_neg (not_not.mpr h)) rfl

theorem finishBatch_of_err {c : Nat} {t : State} (h : t.err ≠ 0) : finishBatch (c, t) = (t.err, t.storeImage) :=
  Prod.ext (if_pos h) rfl

/-! ## The batch without a breakpoint -/

/-- Fewer steps counted than `k` after running states means that the last one ended with the condition false: every step before it
ended where the next one began. -/
theorem last_of_countP_lt {p : Nat → Bool} {k : Nat} (h : ∀ j, j < k → p j = true)
    (hlt : (List.range k).countP (fun j => p (j + 1)) < k) : p k = false := by
  by_contra hk
  have hall : (List.range k).countP (fun j => p (j + 1)) = (List.range k).length := by
    refine List.countP_eq_length.mpr fun j hj => ?_
    rcases Nat.lt_or_eq_of_le (Nat.succ_le_of_lt (List.mem_range.mp hj)) with hj | hj
    · exact h (j + 1) hj
    · exact (congrArg p hj).trans (Bool.eq_true_of_not_eq_false hk)
  rw [hall, List.length_range] at hlt
  exact lt_irrefl k hlt

/-- R276: `run` answers, by the trace of its loop from the re-armed state; no step writes `err`. -/
theorem run_trace (n : Nat) {s : State} (herr : s.err = 0) :
    ∃ (k : Nat) (σ : Nat → State), run n s = .next ((List.range k).countP fun j => (σ (j + 1)).running, σ k) ∧ k ≤ n ∧
      σ 0 = { s with budget := n, rombuf := s.romRead (s.reg 14) } ∧
      (∀ j, j < k → (σ j).running = true ∧ step { σ j with budget := n - (j + 1) } = .next (σ (j + 1))) ∧
      (k = n ∨ (σ k).running = false) ∧ (σ k).err = 0 := by
  obtain ⟨c, t, hrun⟩ := runLoop_answers n 0 (State.rearm { s with budget := n })
  obtain ⟨k, σ, hk, hfirst, rfl, hsteps, hend, hcount⟩ := runLoop_trace hrun
  have hkept : (σ k).err = (σ 0).err :=
    seq_const (f := fun j => (σ j).err) (fun j hj => congrArg HostPart.err (hostPart_of_step (hsteps j hj).2)) le_rfl
  rw [hcount, Nat.zero_add] at hrun
  exact ⟨k, σ, hrun, hk, hfirst, hsteps, hend, hkept.trans ((congrArg State.err hfirst).trans herr)⟩

/-- Settles O59: the trace of `run`; a step that is not counted is the last. -/
theorem batchReturnsTheCountOfItsSteps : Obligations.BatchReturnsTheCountOfItsSteps := by
  unfold Obligations.BatchReturnsTheCountOfItsSteps
  intro n s u hstart hbp
  obtain ⟨k, σ, hrun, hk, hfirst, hsteps, hend, herr⟩ := run_trace n s.loadImage_err
  have hcount := List.countP_le_length (p := fun j => (σ (j + 1)).running) (l := List.range k)
  rw [List.length_range] at hcount
  refine ⟨k, σ, _, _, ?_, hk, hfirst, hsteps, hend, rfl, rfl, (σ k).storeImage_err.trans herr,
    Int.natCast_nonneg _, ?_, fun hlt => ?_⟩
  · rw [emulate_run hstart hbp, hrun, andThen, finishBatch_of_err_zero herr]
    rfl
  · exact_mod_cast hcount.trans hk
  · refine hend.elim (fun hkn => ?_) id
    subst hkn
    exact last_of_countP_lt (p := fun j => (σ j).running) (fun j hj => (hsteps j hj).1) (Int.ofNat_lt.mp hlt)

/-! ## The debug loops -/

/-- A debug loop from `a` halts where its stop test, in every state with the host's fields of `a`, is the breakpoint first and
then the target. -/
theorem haltsWhere_of_debugLoop {stop : State → DebugStop} {bp target : State → Prop} {n c : Nat} {a t : State}
    (hloop : debugLoop stop n 0 a = .next (c, t)) (herr : a.err = 0) (hcode : a.config.errBreakpoint ≠ 0)
    (hbp : ∀ x : State, x.hostPart = a.hostPart → (stop x = .breakpoint ↔ bp x))
    (htarget : ∀ x : State, x.hostPart = a.hostPart → (stop x = .reached ↔ ¬bp x ∧ target x)) :
    HaltsWhere a n bp target (finishBatch (c, t)).1 (finishBatch (c, t)).2 := by
  obtain ⟨k, σ, hk, hfirst, rfl, hsteps, hgo, hend⟩ := debugLoop_trace hloop
  have hpart {j : Nat} (hj : j ≤ k) : (σ j).hostPart = a.hostPart :=
    (seq_const (f := fun j => (σ j).hostPart) (fun j hj => hostPart_of_step (hsteps j hj).2) hj).trans (congrArg _ hfirst)
  have hlast := hpart le_rfl
  refine ⟨k, σ, hk, hfirst, hsteps, fun j hj hjk => ?_, ?_⟩
  · have hon := hgo j hj hjk
    have hno : ¬bp (σ j) := fun h => by simp [(hbp _ (hpart hjk.le)).mpr h] at hon
    exact ⟨hno, fun h => by simp [(htarget _ (hpart hjk.le)).mpr ⟨hno, h⟩] at hon⟩
  · rcases hend with ⟨hpos, hstop, rfl⟩ | ⟨hno, hwhy, rfl⟩
    · have hconfig : (σ k).config.errBreakpoint = a.config.errBreakpoint := congrArg (·.config.errBreakpoint) hlast
      rw [finishBatch_of_err (by rwa [State.raise_breakpointHit_err, hconfig])]
      refine .inl ⟨hpos, (hbp _ hlast).mp hstop, hconfig, ?_⟩
      rw [← hconfig]
      rfl
    · have herr' : (σ k).err = 0 := (congrArg HostPart.err hlast).trans herr
      rw [finishBatch_of_err_zero herr', Nat.zero_add]
      refine .inr ⟨fun hpos => mt (hbp _ hlast).mpr (hno hpos), ?_, rfl, rfl, herr'⟩
      exact hwhy.imp_right (Or.imp_right (And.imp_right fun h => ((htarget _ hlast).mp h).2))

theorem breakStop_eq_breakpoint_iff (s : State) : breakStop s = .breakpoint ↔ s.pc = s.bpAddr := by simp [breakStop]

theorem breakStop_ne_reached (s : State) : breakStop s ≠ .reached := by
  unfold breakStop
  split <;> nofun

theorem stepOverStop_eq_breakpoint_iff (s : State) :
    stepOverStop s = .breakpoint ↔ s.bpActive = true ∧ s.pc = s.bpAddr := by
  unfold stepOverStop
  split_ifs with hbp <;> simp [hbp]

theorem stepOverStop_eq_reached_iff (s : State) :
    stepOverStop s = .reached ↔ ¬(s.bpActive = true ∧ s.pc = s.bpAddr) ∧ s.pc = s.stepAddr := by
  unfold stepOverStop
  split_ifs with hbp htarget
  · exact iff_of_false nofun fun h => h.1 hbp
  · exact iff_of_true rfl ⟨hbp, htarget⟩
  · exact iff_of_false nofun fun h => htarget h.2

/-- The step target as a number: R15 plus the length of the instruction in the pipe (30_encoding.md R84). -/
theorem State.stepTarget_eq_ofNat (s : State) : s.stepTarget = BitVec.ofNat 16 (s.pc.toNat + opLength s.pipe) := by
  rw [BitVec.ofNat_add, BitVec.ofNat_toNat, BitVec.setWidth_eq]
  rfl

section
variable {s : State} {active : Bool} {addr target : Word}

/-- R282 for the loop: no step writes the breakpoint that R15 is compared with. -/
theorem runToBreakpoint_haltsWhere (n : Nat) (herr : s.err = 0) (hcode : s.config.errBreakpoint ≠ 0) (haddr : s.bpAddr = addr) :
    ∃ r, runToBreakpoint n s = .next r ∧
      HaltsWhere { s with rombuf := s.romRead (s.reg 14) } n (fun x => x.pc = addr) (fun _ => False)
        (finishBatch r).1 (finishBatch r).2 := by
  obtain ⟨c, t, hloop⟩ := debugLoop_answers breakStop n 0 s.rearm
  refine ⟨_, hloop, haltsWhere_of_debugLoop hloop herr hcode (fun x hx => ?_) fun x _ => ?_⟩
  · have hkept : x.bpAddr = s.bpAddr := congrArg HostPart.bpAddr hx
    rw [breakStop_eq_breakpoint_iff, hkept, haddr]
  · simp [breakStop_ne_reached]

/-- R283 for the loop: no step writes the breakpoint or the step target that R15 is compared with. -/
theorem stepOverLoop_haltsWhere (n : Nat) (herr : s.err = 0) (hcode : s.config.errBreakpoint ≠ 0) (hactive : s.bpActive = active)
    (haddr : s.bpAddr = addr) :
    ∃ r, debugLoop stepOverStop n 0 (State.rearm { s with stepAddr := target }) = .next r ∧
      HaltsWhere { s with stepAddr := target, rombuf := s.romRead (s.reg 14) } n (fun x => active = true ∧ x.pc = addr)
        (fun x => x.pc = target) (finishBatch r).1 (finishBatch r).2 := by
  obtain ⟨c, t, hloop⟩ := debugLoop_answers stepOverStop n 0 (State.rearm { s with stepAddr := target })
  have hkept {x : State} (hx : x.hostPart = (State.rearm { s with stepAddr := target }).hostPart) :
      x.bpActive = active ∧ x.bpAddr = addr ∧ x.stepAddr = target :=
    ⟨(congrArg HostPart.bpActive hx).trans hactive, (congrArg HostPart.bpAddr hx).trans haddr, congrArg HostPart.stepAddr hx⟩
  refine ⟨_, hloop, haltsWhere_of_debugLoop hloop herr hcode (fun x hx => ?_) fun x hx => ?_⟩
  · obtain ⟨hactive, haddr, -⟩ := hkept hx
    rw [stepOverStop_eq_breakpoint_iff, hactive, haddr]
  · obtain ⟨hactive, haddr, htarget⟩ := hkept hx
    rw [stepOverStop_eq_reached_iff, hactive, haddr, htarget]

end

/-- Settles O60: both loops keep the breakpoint and the target that their stop tests compare R15 with. -/
theorem breakpointHaltsAtItsAddress : Obligations.BreakpointHaltsAtItsAddress := by
  unfold Obligations.BreakpointHaltsAtItsAddress
  intro n s u len tgt hstart hcode
  have hcode' : s.loadImage.config.errBreakpoint ≠ 0 := by rwa [s.loadImage_config]
  refine ⟨fun hactive => ?_, ?_⟩
  · obtain ⟨r, hloop, hhalts⟩ := runToBreakpoint_haltsWhere n s.loadImage_err hcode' s.loadImage_bpAddr
    refine ⟨_, _, ?_, hhalts⟩
    rw [emulate_runToBreakpoint hstart hactive, hloop, andThen]
  · obtain ⟨r, hloop, hhalts⟩ := stepOverLoop_haltsWhere n s.loadImage_err hcode' s.loadImage_bpActive s.loadImage_bpAddr
    refine ⟨_, _, ?_, hhalts⟩
    rw [stepOver_run hstart, s.loadImage.stepTarget_eq_ofNat]
    exact andThen_eq_next.mpr ⟨r, hloop, rfl⟩

end Sys2Proof.Machine
end

section
/-! Reset (10_state.md R45, 70_reset_and_hazards.md R301, R302): what it leaves in the image and in the values computed from the
fields, when it answers, and that what it answers meets the invariant. -/

namespace Sys2Proof.Machine

/-! ## Buffers of one cell and of none -/

theorem Memory.read_singleton (a : Nat) (v : Byte) (b : Nat) : Memory.read [(a, v)] b = if b = a then v else unlisted := by
  simp only [Memory.read, eq_comm]

theorem Memory.valid_nil (size : Nat) : Memory.wf [] ∧ Memory.below [] size := ⟨⟨.nil, nofun⟩, nofun⟩

/-! ## The state after reset -/

section
variable (c : Config) (ram rom : Memory)

theorem State.afterReset_reg (r : Reg) : (State.afterReset c ram rom).reg r = 0 := by
  simp [State.reg, State.afterReset]

theorem State.afterReset_flag_go : (State.afterReset c ram rom).flag bitGO = true :=
  (by decide : resetSfr.getLsbD bitGO = true)

theorem State.afterReset_depth : (State.afterReset c ram rom).depth = 2 := by
  simp [State.depth_eq_getD, State.afterReset]

theorem State.afterReset_realHeight : (State.afterReset c ram rom).realHeight = 128 := by
  simp [State.realHeight_eq_getD, State.afterReset]

theorem State.afterReset_height : (State.afterReset c ram rom).height = 128 :=
  (if_neg (by decide : (0 : BitVec 5).getLsbD 4 ≠ true)).trans (State.afterReset_realHeight c ram rom)

/-- SFR is the only field whose value StoreImage does not write as 0. -/
theorem State.afterReset_image_read (off : Nat) :
    (State.afterReset c ram rom).image.read off = if off = 0x30 then 0x20 else 0 :=
  Memory.read_singleton 0x30 0x20 off

theorem State.afterReset_image_wf : (State.afterReset c ram rom).image.wf :=
  ⟨List.pairwise_singleton _ _, List.forall_mem_singleton.mpr (by decide)⟩

theorem State.afterReset_image_below : (State.afterReset c ram rom).image.below imageSize :=
  List.forall_mem_singleton.mpr (by decide)

variable {c ram rom}

theorem State.Inv.afterReset (hc : Machine.validConfig c = true) (hram : ram.wf ∧ ram.below c.ramSize)
    (hrom : rom.wf ∧ rom.below c.romSize) : (State.afterReset c ram rom).Inv where
  ramWf := hram.1
  romWf := hrom.1
  imageWf := State.afterReset_image_wf c ram rom
  ramBelow := hram.2
  romBelow := hrom.2
  imageBelow := State.afterReset_image_below c ram rom
  validConfig := hc
  cbrAligned := rfl

/-! ## When reset answers -/

theorem resetWith_eq_next_iff {s : State} :
    resetWith c ram rom = .next s ↔
      validConfig c = true ∧ (ram.wf ∧ ram.below c.ramSize) ∧ (rom.wf ∧ rom.below c.romSize) ∧ s = State.afterReset c ram rom := by
  refine ⟨fun h => ?_, fun ⟨hc, hram, hrom, hs⟩ => hs ▸ resetWith_of_valid hram hrom hc⟩
  rw [resetWith] at h
  split at h
  next hvalid =>
    simp only [Bool.and_eq_true, validContent_iff] at hvalid
    obtain ⟨⟨hc, hram⟩, hrom⟩ := hvalid
    cases h
    exact ⟨hc, hram, hrom, rfl⟩
  next => cases h

end

/-- The buffers of `specConfig` have the sizes R53 requires, so it is valid from one bank of each on. -/
theorem validConfig_specConfig {nrom nram : Nat} (hrom : 0 < nrom) (hram : 0 < nram) : validConfig (specConfig nrom nram) = true :=
  (validConfig_iff _).mpr ⟨hrom, hram, (by decide : 0 < 0x20), le_rfl, le_rfl⟩

/-- Settles O52: the registers and the image are read at each index, GO is bit 5 of 0020, and SCMR = 0 and POR = 0 give the depth and
the heights. -/
theorem resetLeavesTheStatedValues : Obligations.ResetLeavesTheStatedValues := by
  unfold Obligations.ResetLeavesTheStatedValues
  intro c ram rom s
  exact ⟨State.afterReset_reg c ram rom, rfl, rfl, rfl, State.afterReset_flag_go c ram rom, rfl, rfl, rfl, rfl, rfl, rfl, rfl,
    rfl, rfl, rfl, rfl, State.afterReset_depth c ram rom, State.afterReset_realHeight c ram rom, State.afterReset_height c ram rom,
    rfl, rfl, rfl, rfl, rfl, rfl, rfl, rfl, rfl, rfl, rfl, State.afterReset_image_read c ram rom⟩

/-- Settles O53: `State.reset` is `afterReset` of a valid configuration and empty buffers, and an accepted reset has checked what the
invariant asks of its own. -/
theorem resetMeetsTheInvariant : Obligations.ResetMeetsTheInvariant := by
  unfold Obligations.ResetMeetsTheInvariant
  refine ⟨.afterReset (validConfig_specConfig (by decide) (by decide)) (Memory.valid_nil _) (Memory.valid_nil _), ?_⟩
  intro c ram rom s h
  obtain ⟨hc, hram, hrom, rfl⟩ := resetWith_eq_next_iff.mp h
  exact .afterReset hc hram hrom

end Sys2Proof.Machine
end

section
/-! What an instruction can do (40_dispatch_prefix_control.md R100 to R104): it consumes its immediate bytes, then goes through operations
on the flags, the registers, the special registers, the cache window and RAM. What each operation keeps, every instruction keeps. -/

namespace Sys2Proof.Machine

/-- The bits of SFR that instructions other than STOP write: Z, CY, SG, OV, ALT1, ALT2 and B. -/
def programFlags : List Nat := [bitZ, bitCY, bitSG, bitOV, bitALT1, bitALT2, bitB]

/-- `t` comes from `s` by `k` calls of `Imm8()` and then operations of an instruction, in any order and number. A store lies inside the
RAM banks; RAM and the ROM bank are written only while R14 is as in `s`, so that a ROM buffer re-armed for a new R14 still holds its byte
at the end; the window is anchored at an aligned base. -/
inductive MadeFrom (s : State) (k : Nat) : State → Prop
  | consume : MadeFrom s k (s.consume k)
  | setFlag {w : State} (h : MadeFrom s k w) {b : Nat} (hb : b ∈ programFlags) (v : Bool) : MadeFrom s k (w.setFlag b v)
  | writeReg {w : State} (h : MadeFrom s k w) (i : Reg) (v : Word) : MadeFrom s k (w.writeReg i v)
  | special {w : State} (h : MadeFrom s k w) (src dst : Reg) (pbr : Byte) (rambr : BitVec 2) (colr : Byte) (por : BitVec 5) (last : Word) :
      MadeFrom s k { w with sreg := src, dreg := dst, pbr := pbr, rambr := rambr, colr := colr, por := por, lastRamAddr := last }
  | romBank {w : State} (h : MadeFrom s k w) (h14 : w.reg 14 = s.reg 14) (bank : Byte) : MadeFrom s k { w with rombr := bank }
  | cacheAnchor {w : State} (h : MadeFrom s k w) {base : Word} (hbase : base.toNat % 16 = 0) : MadeFrom s k (w.cacheAnchor base)
  | storeRam {w : State} (h : MadeFrom s k w) (h14 : w.reg 14 = s.reg 14) {p : Nat}
      (hp : 0 < w.config.nram → p < w.config.nram * bankSize) (v : Byte) : MadeFrom s k (w.storeRam p v)

namespace MadeFrom

variable {s w t : State} {k : Nat}

/-! ## The shared operations are made of these -/

theorem setSZ (h : MadeFrom s k w) (v : Word) : MadeFrom s k (w.setSZ v) :=
  (h.setFlag (b := bitSG) (by decide) _).setFlag (b := bitZ) (by decide) _

theorem setSZ8 (h : MadeFrom s k w) (v : Word) : MadeFrom s k (w.setSZ8 v) :=
  (h.setFlag (b := bitSG) (by decide) _).setFlag (b := bitZ) (by decide) _

theorem setCond (h : MadeFrom s k w) (f : Flagged) : MadeFrom s k (w.setCond f) :=
  (((h.setFlag (b := bitZ) (by decide) _).setFlag (b := bitCY) (by decide) _).setFlag (b := bitSG) (by decide) _).setFlag
    (b := bitOV) (by decide) _

theorem advance (h : MadeFrom s k w) : MadeFrom s k w.advance := h.writeReg 15 _

theorem indices (h : MadeFrom s k w) (src dst : Reg) : MadeFrom s k { w with sreg := src, dreg := dst } := h.special src dst _ _ _ _ _

theorem clrFlags (h : MadeFrom s k w) : MadeFrom s k w.clrFlags :=
  (((h.setFlag (b := bitALT1) (by decide) _).setFlag (b := bitALT2) (by decide) _).setFlag (b := bitB) (by decide) _).indices 0 0

theorem finish (h : MadeFrom s k w) : MadeFrom s k w.finish := h.advance.clrFlags

theorem finishReg (h : MadeFrom s k w) (i : Reg) (v : Word) : MadeFrom s k (w.finishReg i v) := (h.advance.writeReg i v).clrFlags

theorem arith (h : MadeFrom s k w) (f : Flagged) : MadeFrom s k (w.arith f) := (h.setCond f).finishReg _ _

theorem result (h : MadeFrom s k w) (v : Word) : MadeFrom s k (w.result v) := (h.setSZ v).finishReg _ _

theorem result8 (h : MadeFrom s k w) (v : Byte) : MadeFrom s k (w.result8 v) := (h.setSZ8 _).finishReg _ _

theorem shifted (h : MadeFrom s k w) (v : Word) (c : Bool) : MadeFrom s k (w.shifted v c) := (h.setFlag (b := bitCY) (by decide) c).result v

theorem productFlags (h : MadeFrom s k w) : MadeFrom s k w.productFlags := (h.setSZ _).setFlag (b := bitCY) (by decide) _

theorem recordAddr (h : MadeFrom s k w) (a : Word) : MadeFrom s k (w.recordAddr a) := h.special _ _ _ _ _ _ a

theorem setColor (h : MadeFrom s k w) (c : Byte) : MadeFrom s k (w.setColor c) := h.special _ _ _ _ _ _ _

theorem ramWrite (h : MadeFrom s k w) (h14 : w.reg 14 = s.reg 14) (a : Word) (v : Byte) : MadeFrom s k (w.ramWrite a v) :=
  h.storeRam h14 (fun hram => ramBase_add_lt _ hram _ a) v

theorem ramWrite16 (h : MadeFrom s k w) (h14 : w.reg 14 = s.reg 14) (a v : Word) : MadeFrom s k (w.ramWrite16 a v) :=
  (h.ramWrite h14 a _).ramWrite (by simpa [State.ramWrite] using h14) _ _

theorem loadAbs (h : MadeFrom s k w) (n : Reg) (a : Word) : MadeFrom s k (w.loadAbs n a) := (h.recordAddr a).finishReg _ _

theorem storeAbs (h : MadeFrom s k w) (h14 : w.reg 14 = s.reg 14) (a v : Word) : MadeFrom s k (w.storeAbs a v) :=
  ((h.recordAddr a).ramWrite16 h14 a v).finish

theorem plotPlanes (h : MadeFrom s k w) (h14 : w.reg 14 = s.reg 14) (o : Nat) (m c : Byte) (ps : List Nat) :
    MadeFrom s k (w.plotPlanes o m c ps) := by
  induction ps generalizing w with
  | nil => exact h
  | cons p ps ih =>
    exact ih (h.storeRam h14 (fun hram => w.scrPhys_lt hram _) _) ((w.storeRam_reg _ _ 14).trans h14)

theorem cacheInstruction (h : MadeFrom s k w) : MadeFrom s k w.cacheInstruction := by
  unfold State.cacheInstruction
  split
  · exact h.cacheAnchor (cacheBaseOf_aligned _)
  · exact h

/-- `Branch(c)` consumes the displacement and transfers or advances (R132). -/
theorem branch (s : State) (taken : Bool) (e : Byte) : MadeFrom s 1 (s.branch taken e) := by
  have h : MadeFrom s 1 s.imm8 := .consume
  unfold State.branch
  cases taken
  · exact h.advance
  · exact h.writeReg 15 _

end MadeFrom

/-- Every instruction but STOP is made of these operations, after as many `Imm8()` as it has immediate bytes. -/
theorem exec_madeFrom {i : Instr} (hi : i ≠ .stop) (s : State) : ∃ t, exec i s = .next t ∧ MadeFrom s (immBytes i).length t := by
  have h0 : MadeFrom s 0 s := .consume
  have h1 : MadeFrom s 1 s.imm8 := .consume
  have h2 : MadeFrom s 2 s.imm8.imm8 := .consume
  have h14 : s.imm8.reg 14 = s.reg 14 := by simp
  have h14' : s.imm8.imm8.reg 14 = s.reg 14 := by simp
  cases i
  case stop => exact absurd rfl hi
  case nop => exact ⟨_, rfl, h0.finish⟩
  case cache => exact ⟨_, rfl, h0.cacheInstruction.finish⟩
  case bra | bge | blt | bne | beq | bpl | bmi | bcc | bcs | bvc | bvs => exact ⟨_, rfl, .branch s _ _⟩
  case toR | fromR => exact ⟨_, rfl, (h0.indices _ _).advance⟩
  case withR => exact ⟨_, rfl, ((h0.indices _ _).setFlag (b := bitB) (by decide) _).advance⟩
  case alt1 => exact ⟨_, rfl, ((h0.setFlag (b := bitALT1) (by decide) _).setFlag (b := bitB) (by decide) _).advance⟩
  case alt2 => exact ⟨_, rfl, ((h0.setFlag (b := bitALT2) (by decide) _).setFlag (b := bitB) (by decide) _).advance⟩
  case alt3 =>
    exact ⟨_, rfl, (((h0.setFlag (b := bitALT1) (by decide) _).setFlag (b := bitALT2) (by decide) _).setFlag (b := bitB)
      (by decide) _).advance⟩
  case loop => exact ⟨_, exec_loop s, (((h0.writeReg 12 _).setSZ _).writeReg 15 _).clrFlags⟩
  case link => exact ⟨_, rfl, (h0.writeReg 11 _).finish⟩
  case jmp => exact ⟨_, rfl, (h0.writeReg 15 _).clrFlags⟩
  case ljmp n =>
    exact ⟨_, rfl, (((h0.special _ _ _ _ _ _ _).writeReg 15 _).cacheAnchor (cacheBaseOf_aligned _)).clrFlags⟩
  case add | adc | addI | adcI | sub | sbc | subI | merge => exact ⟨_, rfl, h0.arith _⟩
  case cmp => exact ⟨_, rfl, (h0.setCond _).finish⟩
  case and | bic | or | xor | andI | bicI | orI | xorI | not | swap | sex | mult | umult | multI | umultI =>
    exact ⟨_, rfl, h0.result _⟩
  case lob | hib => exact ⟨_, rfl, h0.result8 _⟩
  case lsr | rol | asr | div2 | ror => exact ⟨_, rfl, h0.shifted _ _⟩
  case fmult => exact ⟨_, rfl, h0.productFlags.finishReg _ _⟩
  case lmult => exact ⟨_, rfl, ((h0.productFlags.advance.writeReg 4 _).writeReg _ _).clrFlags⟩
  case inc | dec => exact ⟨_, rfl, (h0.setSZ _).finishReg _ _⟩
  case move | getb | getbh | getbl | getbs => exact ⟨_, rfl, h0.finishReg _ _⟩
  case moves => exact ⟨_, rfl, ((h0.setFlag (b := bitOV) (by decide) _).setSZ _).finishReg _ _⟩
  case ibt => exact ⟨_, rfl, h1.finishReg _ _⟩
  case iwt => exact ⟨_, rfl, h2.finishReg _ _⟩
  case ldw | ldb => exact ⟨_, rfl, (h0.recordAddr _).finishReg _ _⟩
  case lms => exact ⟨_, rfl, h1.loadAbs _ _⟩
  case lm => exact ⟨_, rfl, h2.loadAbs _ _⟩
  case stw n => exact ⟨_, rfl, ((h0.recordAddr (s.reg n)).ramWrite16 rfl _ _).finish⟩
  case stb n => exact ⟨_, rfl, ((h0.recordAddr (s.reg n)).ramWrite rfl _ _).finish⟩
  case sbk => exact ⟨_, rfl, (h0.ramWrite16 rfl _ _).finish⟩
  case sms => exact ⟨_, rfl, h1.storeAbs h14 _ _⟩
  case sm => exact ⟨_, rfl, h2.storeAbs h14' _ _⟩
  case ramb => exact ⟨_, rfl, (h0.special _ _ _ _ _ _ _).finish⟩
  case romb => exact ⟨_, rfl, (h0.romBank rfl _).finish⟩
  case color | getc => exact ⟨_, rfl, (h0.setColor _).finish⟩
  case cmode => exact ⟨_, rfl, (h0.special _ _ _ _ _ _ _).finish⟩
  case plot =>
    have h : MadeFrom s 0 s.plotSkipped := h0.finish.writeReg 1 _
    by_cases hw : PlotWrites s
    · exact ⟨_, exec_plot_of_plotWrites s hw, h.plotPlanes (by simp [State.plotSkipped, State.finish]) _ _ _ _⟩
    · exact ⟨_, exec_plot_of_not_plotWrites s hw, h⟩
  case rpix =>
    refine ⟨_, rfl, ?_⟩
    split
    · unfold State.rpixFlags
      split
      · exact (h0.setSZ _).finishReg _ _
      · exact h0.finishReg _ _
    · exact h0.finish

end Sys2Proof.Machine
end

section
/-! What every instruction keeps, operation by operation: the invariant of the machine, the bits of SFR that programs do not write, the
pipe and the ROM buffer. -/

namespace Sys2Proof.Machine

/-! ## The operations one by one -/

namespace MadeFrom

variable {s t : State} {k : Nat}

theorem config (h : MadeFrom s k t) : t.config = s.config := by
  induction h with
  | consume => rw [s.consume_frame]
  | setFlag _ _ _ ih | special _ _ _ _ _ _ _ _ ih | romBank _ _ _ ih | cacheAnchor _ _ ih => exact ih
  | writeReg _ _ _ ih => exact (State.writeReg_config _ _ _).trans ih
  | storeRam _ _ _ _ ih => exact (State.storeRam_config _ _ _).trans ih

theorem pipe (h : MadeFrom s k t) : t.pipe = pipeAfter s k := by
  induction h with
  | consume => exact s.consume_pipe k
  | setFlag _ _ _ ih | special _ _ _ _ _ _ _ _ ih | romBank _ _ _ ih | cacheAnchor _ _ ih => exact ih
  | writeReg _ _ _ ih => exact (State.writeReg_pipe _ _ _).trans ih
  | storeRam _ _ _ _ ih => exact (State.storeRam_pipe _ _ _).trans ih

theorem flag (h : MadeFrom s k t) {b : Nat} (hb : b ∉ programFlags) : t.flag b = s.flag b := by
  induction h with
  | consume => rw [s.consume_frame]; rfl
  | @setFlag w _ c hc v ih =>
    have hne : c ≠ b := ne_of_mem_of_not_mem hc hb
    simpa [hne] using ih
  | special _ _ _ _ _ _ _ _ ih | romBank _ _ _ ih | cacheAnchor _ _ ih => exact ih
  | writeReg _ _ _ ih => exact (State.writeReg_flag _ _ _ _).trans ih
  | storeRam _ _ _ _ ih => exact (State.storeRam_flag _ _ _ _).trans ih

/-- R14 is as before, or the ROM buffer holds the byte it addresses (10_state.md R14). -/
theorem reg14_or_rombuf (h : MadeFrom s k t) : t.reg 14 = s.reg 14 ∨ t.rombuf = t.romRead (t.reg 14) := by
  induction h with
  | consume => exact .inl (s.consume_reg k 14)
  | setFlag _ _ _ ih | special _ _ _ _ _ _ _ _ ih | cacheAnchor _ _ ih => exact ih
  | romBank _ h14 _ _ => exact .inl h14
  | storeRam _ h14 _ _ _ => exact .inl ((State.storeRam_reg _ _ _ _).trans h14)
  | writeReg _ i _ ih =>
    by_cases hi : i = 14
    · simp [hi]
    · simpa [hi, Ne.symm hi] using ih

theorem inv (h : MadeFrom s k t) (hs : s.Inv) : t.Inv := by
  induction h with
  | consume => exact s.consume_frame k ▸ hs.congr rfl rfl rfl rfl hs.cbrAligned
  | setFlag _ _ _ ih | special _ _ _ _ _ _ _ _ ih | romBank _ _ _ ih => exact ih.congr rfl rfl rfl rfl ih.cbrAligned
  | cacheAnchor _ hbase ih => exact ih.congr rfl rfl rfl rfl hbase
  | writeReg _ _ _ ih => exact ih.congr (by simp) (by simp) (by simp) (by simp) (by simpa using ih.cbrAligned)
  | storeRam _ _ hp _ ih => exact ih.storeRam (hp ih.hasRam) _

/-- No store reaches past the RAM banks. -/
theorem ram_read_of_ge (h : MadeFrom s k t) (hram : 0 < s.config.nram) {a : Nat} (ha : s.config.nram * bankSize ≤ a) :
    t.ram.read a = s.ram.read a := by
  induction h with
  | consume => rw [s.consume_frame]
  | setFlag _ _ _ ih | special _ _ _ _ _ _ _ _ ih | romBank _ _ _ ih | cacheAnchor _ _ ih => exact ih
  | writeReg _ _ _ ih => rwa [State.writeReg_ram]
  | storeRam hw _ hp _ ih =>
    rw [hw.config] at hp
    rw [State.storeRam_ram, Memory.read_write, if_neg ((hp hram).trans_le ha).ne', ih]

end MadeFrom

/-! ## Every instruction, STOP among them -/

theorem exec_answers (i : Instr) (s : State) : ∃ t, exec i s = .next t :=
  (exec_keeps_hostPart i s).imp fun _ h => h.1

/-- What answers is STOP's state or one made of the operations. -/
theorem exec_inversion {i : Instr} {s t : State} (h : exec i s = .next t) :
    (i = .stop ∧ t = s.halted.finish) ∨ (i ≠ .stop ∧ MadeFrom s (immBytes i).length t) := by
  by_cases hi : i = .stop
  · subst hi
    exact .inl ⟨rfl, Host.Outcome.next.inj (h.symm.trans (exec_stop s))⟩
  · obtain ⟨u, hu, hmade⟩ := exec_madeFrom hi s
    obtain rfl : t = u := Host.Outcome.next.inj (h.symm.trans hu)
    exact .inr ⟨hi, hmade⟩

theorem exec_keeps_inv {i : Instr} {s t : State} (hs : s.Inv) (h : exec i s = .next t) :
    t.Inv ∧ ∀ a, s.config.nram * bankSize ≤ a → t.ram.read a = s.ram.read a := by
  obtain ⟨-, rfl⟩ | ⟨-, hmade⟩ := exec_inversion h
  · exact ⟨hs.congr rfl rfl rfl rfl hs.cbrAligned, fun _ _ => rfl⟩
  · exact ⟨hmade.inv hs, fun _ ha => hmade.ram_read_of_ge hs.hasRam ha⟩

/-! ## The step -/

theorem step_of_running {s : State} (h : s.flag bitGO = true) : step s = exec s.fetched s.prologue := if_pos h

theorem step_of_stopped {s : State} (h : s.flag bitGO = false) : step s = .next s := if_neg (Bool.eq_false_iff.mp h)

/-- Settles O54: the prologue writes the pipe, and each operation of the instruction keeps the invariant and stores inside the RAM
banks. -/
theorem everyStepKeepsTheInvariant : Obligations.EveryStepKeepsTheInvariant := by
  unfold Obligations.EveryStepKeepsTheInvariant
  intro s t hs hstep
  cases hgo : s.flag bitGO with
  | false =>
    obtain rfl : s = t := Host.Outcome.next.inj ((step_of_stopped hgo).symm.trans hstep)
    exact ⟨hs, fun _ _ => rfl⟩
  | true =>
    have hprologue : s.prologue.Inv := hs.congr rfl rfl rfl rfl hs.cbrAligned
    exact (exec_keeps_inv hprologue ((step_of_running hgo).symm.trans hstep) :)

/-- Settles O11: every arm of `exec` answers, and a step is one or changes nothing. -/
theorem everyInstructionCompletesWithoutFault : Obligations.EveryInstructionCompletesWithoutFault := by
  unfold Obligations.EveryInstructionCompletesWithoutFault
  exact ⟨exec_answers, fun s => (step_keeps_hostPart s).imp fun _ h => h.1⟩

/-- Settles O56: the fields named are those of `State.hostPart`, which every step keeps. -/
theorem stepNeverWritesTheHostsState : Obligations.StepNeverWritesTheHostsState := by
  unfold Obligations.StepNeverWritesTheHostsState
  intro s
  obtain ⟨t, ht, hpart⟩ := step_keeps_hostPart s
  simp only [State.hostPart, HostPart.mk.injEq] at hpart
  obtain ⟨hscbr, hscmr, hcfgr, hbudget, herr, hillegal, hactive, hbp, hstep, himage, hrom, hconfig⟩ := hpart
  exact ⟨t, ht, hscbr, hscmr, hcfgr, hactive, hbp, hstep, himage, hrom, herr, hillegal, hbudget, hconfig⟩

/-- Settles O55: GO, IRQ and the unnamed bits are none of the bits that programs write; STOP's are read off its state. -/
theorem onlyStopTouchesGoAndIrq : Obligations.OnlyStopTouchesGoAndIrq := by
  unfold Obligations.OnlyStopTouchesGoAndIrq
  intro i s
  obtain ⟨t, ht⟩ := exec_answers i s
  refine ⟨t, ht, ?_⟩
  obtain ⟨rfl, rfl⟩ | ⟨hi, hmade⟩ := exec_inversion ht
  · refine ⟨fun h => absurd rfl h, fun _ => ?_, fun b hb => ?_⟩
    · simp [s.halted_flag]
    · have hnot : b ≠ 15 ∧ b ≠ 5 ∧ ¬(b = 8 ∨ b = 9 ∨ b = 12) := by
        revert b
        decide
      rw [State.finish_flag, s.halted_flag, if_neg hnot.2.2, if_neg hnot.1, if_neg hnot.2.1]
  · have hunnamed : ∀ b ∈ [0, 6, 7, 10, 11, 13, 14], b ∉ programFlags := by decide
    exact ⟨fun _ => ⟨hmade.flag (by decide), hmade.flag (by decide)⟩, fun h => absurd h hi, fun b hb => hmade.flag (hunnamed b hb)⟩

/-- Settles O44: the write of R14 that changes it re-arms the buffer, and no later operation of the instruction changes the ROM bank or
stores. -/
theorem changingR14RearmsTheRomBuffer : Obligations.ChangingR14RearmsTheRomBuffer := by
  unfold Obligations.ChangingR14RearmsTheRomBuffer
  intro i s t ht hchanged
  obtain ⟨-, rfl⟩ | ⟨-, hmade⟩ := exec_inversion ht
  · exact absurd (State.advance_reg s.halted 14) hchanged
  · exact hmade.reg14_or_rombuf.resolve_left hchanged

/-- Settles O12: only the prologue and `Imm8()` write the pipe, and they read the program bank before any store. -/
theorem pipeHoldsTheByteAfterTheInstruction : Obligations.PipeHoldsTheByteAfterTheInstruction := by
  unfold Obligations.PipeHoldsTheByteAfterTheInstruction
  intro s hgo hi
  obtain ⟨t, ht, hmade⟩ := exec_madeFrom hi s.prologue
  refine ⟨t, (step_of_running hgo).trans ht, hmade.pipe.trans ?_⟩
  unfold pipeAfter
  split
  next h => rw [h, BitVec.add_zero]; rfl
  next => rfl

/-! ## The end of an instruction -/

/-- Settles O13: each of the others ends in `ClrFlags()`; what PLOT does after it writes R1 and RAM. -/
theorem onlyPrefixesAndBranchesKeepThePrefix : Obligations.OnlyPrefixesAndBranchesKeepThePrefix := by
  unfold Obligations.OnlyPrefixesAndBranchesKeepThePrefix
  intro i s h
  cases i
  case toR | withR | fromR | alt1 | alt2 | alt3 => cases h
  case bra | bge | blt | bne | beq | bpl | bmi | bcc | bcs | bvc | bvs => cases h
  case plot =>
    obtain ⟨ram, valid, hx, -, -⟩ := exec_plot_cases s
    exact ⟨_, hx, State.clrFlags_cleared _⟩
  case rpix =>
    refine ⟨_, rfl, ?_⟩
    split
    · exact State.clrFlags_cleared _
    · exact State.clrFlags_cleared _
  all_goals exact ⟨_, rfl, State.clrFlags_cleared _⟩

end Sys2Proof.Machine
end

section
/-! Decoding and encoding undo each other (30_encoding.md sections 2 to 4): an encoding is an opcode byte and the immediate bytes, so a round
trip is settled by the opcode byte, and what the key alone decides by the cases of the key. -/

namespace Sys2Proof

open Sys2Proof.Machine

/-! ## Decoding an opcode byte and its immediate bytes -/

theorem Opcode.immCount_le (o : Opcode) : o.immCount ≤ 2 := by
  cases o <;> decide

/-- The decoder takes as many bytes as the selected opcode calls for, and leaves the rest. -/
theorem decode_append (t : OpTable) (m : Mode) (op b1 b2 : Byte) (rest : List Byte) :
    decode t m (op :: ([b1, b2].take (t.select m op).immCount ++ rest)) = .ok (decodeOp t m op b1 b2, rest) := by
  have hle := (t.select m op).immCount_le
  obtain h | h | h : (t.select m op).immCount = 0 ∨ (t.select m op).immCount = 1 ∨ (t.select m op).immCount = 2 := by omega
  · simp [decode, decodeOp, h, instr_of_immCount_eq_zero h op b1 b2]
  · simp [decode, decodeOp, h, instr_of_immCount_eq_one h op b1 b2]
  · simp [decode, h]

/-- The opcode byte of an instruction's encoding. -/
def Instr.opcodeByte (i : Instr) : Byte := (encode i).bytes.headD 0

theorem encode_bytes (i : Instr) : (encode i).bytes = i.opcodeByte :: immBytes i := by
  cases i <;> rfl

/-! ## From the encoding back to the instruction -/

/-- Under the encoder's mode, the encoder's opcode byte selects the instruction, given some bytes for its immediates. -/
def EncodesItself (i : Instr) : Prop := ∃ b1 b2, decodeOp specOpTable (encode i).mode i.opcodeByte b1 b2 = i

/-- Then decoding the encoding is decoding that byte with the immediate bytes behind it. -/
theorem decode_encode_of_encodesItself {i : Instr} (h : EncodesItself i) (rest : List Byte) :
    decode specOpTable (encode i).mode ((encode i).bytes ++ rest) = .ok (i, rest) := by
  obtain ⟨b1, b2, hi⟩ := h
  have himm : immBytes i = [b1, b2].take (specOpTable.select (encode i).mode i.opcodeByte).immCount := by
    conv_lhs => rw [← hi, decodeOp, immBytes_instr]
  rw [encode_bytes, himm, List.cons_append, decode_append, hi]

section
variable {hi : Nat} {o : Opcode}

/-- An instruction with a register in the low nibble, by the row of its high nibble. -/
theorem encodesItself_reg {g : Reg → Instr} {n : Reg} (hbyte : (g n).opcodeByte = opByte hi n.val)
    (hkey : keyOpcode (encode (g n)).mode hi n.val = o) (hg : ∀ op b1 b2, o.instr op b1 b2 = g (regField op))
    (hhi : hi < 16 := by decide) : EncodesItself (g n) := by
  refine ⟨0, 0, ?_⟩
  rw [hbyte, decodeOp_opByte hhi n.isLt, hkey, hg, regField_opByte hhi]

/-- An instruction with a 4-bit immediate in the low nibble. -/
theorem encodesItself_imm {g : Imm4 → Instr} {n : Imm4} (hbyte : (g n).opcodeByte = opByte hi n.toNat)
    (hkey : keyOpcode (encode (g n)).mode hi n.toNat = o) (hg : ∀ op b1 b2, o.instr op b1 b2 = g (immField op))
    (hhi : hi < 16 := by decide) : EncodesItself (g n) := by
  refine ⟨0, 0, ?_⟩
  rw [hbyte, decodeOp_opByte hhi n.isLt, hkey, hg, immField_opByte hhi]

end

/-- Every well-formed instruction, by the row it stands in. -/
theorem encodesItself_of_wellFormed {i : Instr} (h : i.wellFormed = true) : EncodesItself i := by
  cases i
  -- a branch and its displacement
  case bra e | bge e | blt e | bne e | beq e | bpl e | bmi e | bcc e | bcs e | bvc e | bvs e =>
    exact ⟨e, 0, by simp only [Instr.opcodeByte, encode, onPage, List.headD_cons]; rfl⟩
  -- a register or an immediate in the low nibble of a row of its own
  case toR | move | withR | fromR | moves | add | adc | sub | sbc | cmp | mult | umult =>
    exact encodesItself_reg rfl rfl fun _ _ _ => rfl
  case addI | adcI | subI | multI | umultI => exact encodesItself_imm rfl rfl fun _ _ _ => rfl
  -- the same in a row that is shared with other bytes
  case stw | stb => exact encodesItself_reg rfl (keyOpcode_store _ (by simpa [Instr.wellFormed] using h)) fun _ _ _ => rfl
  case ldw | ldb => exact encodesItself_reg rfl (keyOpcode_load _ (by simpa [Instr.wellFormed] using h)) fun _ _ _ => rfl
  case jmp | ljmp => exact encodesItself_reg rfl (keyOpcode_jump _ (by simpa [Instr.wellFormed] using h)) fun _ _ _ => rfl
  case inc => exact encodesItself_reg rfl (keyOpcode_rowD _ (by simpa [Instr.wellFormed] using h)) fun _ _ _ => rfl
  case dec => exact encodesItself_reg rfl (keyOpcode_rowE _ (by simpa [Instr.wellFormed] using h)) fun _ _ _ => rfl
  case link => exact encodesItself_imm rfl (keyOpcode_link _ (by simpa [Instr.wellFormed] using h)) fun _ _ _ => rfl
  case and n | bic n =>
    have hn : n.val ≠ 0 := Nat.one_le_iff_ne_zero.mp (by simpa [Instr.wellFormed] using h)
    exact encodesItself_reg rfl (keyOpcode_row7 _ hn) fun _ _ _ => rfl
  case or n | xor n =>
    have hn : n.val ≠ 0 := Nat.one_le_iff_ne_zero.mp (by simpa [Instr.wellFormed] using h)
    exact encodesItself_reg rfl (keyOpcode_rowC _ hn) fun _ _ _ => rfl
  case andI n | bicI n =>
    have hn : n.toNat ≠ 0 := fun e => of_decide_eq_true h (BitVec.eq_of_toNat_eq e)
    exact encodesItself_imm rfl (keyOpcode_row7 _ hn) fun _ _ _ => rfl
  case orI n | xorI n =>
    have hn : n.toNat ≠ 0 := fun e => of_decide_eq_true h (BitVec.eq_of_toNat_eq e)
    exact encodesItself_imm rfl (keyOpcode_rowC _ hn) fun _ _ _ => rfl
  -- a register in the low nibble and immediate bytes
  case ibt n b => exact ⟨b, 0, standsAt_ibt n (Mode.ofPage 0) b 0 (by decide)⟩
  case lms n b => exact ⟨b, 0, standsAt_lms n (Mode.ofPage 1) b 0 (by decide)⟩
  case sms n b => exact ⟨b, 0, standsAt_sms n (Mode.ofPage 2) b 0 (by decide)⟩
  case iwt n xx =>
    exact ⟨lowByte xx, highByte xx, (standsAt_iwt n (Mode.ofPage 0) _ _ (by decide)).trans (congrArg _ (wordOfBytes_bytes xx))⟩
  case lm n xx =>
    exact ⟨lowByte xx, highByte xx, (standsAt_lm n (Mode.ofPage 1) _ _ (by decide)).trans (congrArg _ (wordOfBytes_bytes xx))⟩
  case sm n xx =>
    exact ⟨lowByte xx, highByte xx, (standsAt_sm n (Mode.ofPage 2) _ _ (by decide)).trans (congrArg _ (wordOfBytes_bytes xx))⟩
  -- an opcode byte that is an instruction by itself
  all_goals exact ⟨0, 0, rfl⟩

/-- Settles O1: under the encoder's mode its opcode byte selects the instruction, and the decoder takes the immediate bytes as they
stand. -/
theorem decodeOfEncodeIsTheInstruction : Obligations.DecodeOfEncodeIsTheInstruction := by
  unfold Obligations.DecodeOfEncodeIsTheInstruction
  exact fun i rest h => decode_encode_of_encodesItself (encodesItself_of_wellFormed h) rest

/-! ## From the bytes to the instruction and back -/

/-- What an opcode byte makes an instruction of does not depend on the immediate bytes. -/
theorem opcodeByte_instr (o : Opcode) (op b1 b2 : Byte) : (o.instr op b1 b2).opcodeByte = (o.instr op 0 0).opcodeByte := by
  cases o <;> rfl

theorem wellFormed_instr (o : Opcode) (op b1 b2 : Byte) : (o.instr op b1 b2).wellFormed = (o.instr op 0 0).wellFormed := by
  cases o <;> rfl

/-- The encoder gives the opcode byte back. -/
theorem opcodeByte_decodeOp (m : Mode) (op b1 b2 : Byte) : (decodeOp specOpTable m op b1 b2).opcodeByte = op := by
  rw [decodeOp, opcodeByte_instr]
  refine forall_key (P := fun m op => ((specOpTable.select m op).instr op 0 0).opcodeByte = op) ?_ m op
  decide

/-- Settles O2: the opcode byte comes back, and the immediate bytes are as many of the bytes behind it as the length rule says. -/
theorem encodeOfDecodeGivesTheBytesBack : Obligations.EncodeOfDecodeGivesTheBytesBack := by
  unfold Obligations.EncodeOfDecodeGivesTheBytesBack
  intro m op b1 b2
  rw [encode_bytes, opcodeByte_decodeOp, decodeOp, immBytes_instr, ← immCount_specOpTable_add_one m op, List.take_succ_cons]

/-- Settles O3: the operands lie in their ranges on each of the 2048 keys, whatever the immediate bytes. -/
theorem everyKeyGivesAWellFormedInstruction : Obligations.EveryKeyGivesAWellFormedInstruction := by
  unfold Obligations.EveryKeyGivesAWellFormedInstruction
  intro m op b1 b2
  rw [decodeOp, wellFormed_instr]
  refine forall_key (P := fun m op => ((specOpTable.select m op).instr op 0 0).wellFormed = true) ?_ m op
  decide

/-! ## What the page and B decide (30_encoding.md R82, R83, R88) -/

/-- A byte that is not page sensitive selects on every page what it selects on page 0. -/
theorem select_eq_page_zero (m : Mode) {op : Byte} (h : pageSensitive op = false) :
    specOpTable.select m op = specOpTable.select { b := m.b, alt2 := false, alt1 := false } op := by
  refine forall_key (P := fun m op => pageSensitive op = false →
    specOpTable.select m op = specOpTable.select { b := m.b, alt2 := false, alt1 := false } op) ?_ m op h
  decide

/-- A byte that does not read B selects under either value what it selects with B clear. -/
theorem select_eq_b_clear (m : Mode) {op : Byte} (h : readsB op = false) :
    specOpTable.select m op = specOpTable.select { b := false, alt2 := m.alt2, alt1 := m.alt1 } op := by
  refine forall_key (P := fun m op => readsB op = false →
    specOpTable.select m op = specOpTable.select { b := false, alt2 := m.alt2, alt1 := m.alt1 } op) ?_ m op h
  decide

/-- Settles O5: two modes that differ only in what the byte does not read select what the mode with those flags clear selects. -/
theorem pageAndBMatterOnlyWhereTheMapSays : Obligations.PageAndBMatterOnlyWhereTheMapSays := by
  unfold Obligations.PageAndBMatterOnlyWhereTheMapSays
  refine ⟨fun m m' op b1 b2 hop hb => ?_, fun m m' op b1 b2 hop h1 h2 => ?_⟩
  · rw [decodeOp, decodeOp, select_eq_page_zero m hop, select_eq_page_zero m' hop, hb]
  · rw [decodeOp, decodeOp, select_eq_b_clear m hop, select_eq_b_clear m' hop, h1, h2]

/-- Settles O6, by running the decoder on each word. -/
theorem writtenOutWordsDecode : Obligations.WrittenOutWordsDecode := by
  unfold Obligations.WrittenOutWordsDecode
  exact ⟨rfl, rfl, rfl, rfl, rfl, rfl, rfl⟩

end Sys2Proof
end

section
/-! Which instruction a step runs (40_dispatch_prefix_control.md R100), and how a table word is made the next one (log 4). -/

namespace Sys2Proof.Machine

/-- Settles O7: what decoding the three bytes answers is the instruction fetched. -/
theorem stepRunsTheDecodedInstruction : Obligations.StepRunsTheDecodedInstruction := by
  unfold Obligations.StepRunsTheDecodedInstruction
  intro s i rest hgo hdecode
  rw [step_of_running hgo, eq_decodeOp_of_decode hdecode]
  rfl

/-- Settles O8: GO is the condition under which a step runs anything. -/
theorem stoppedMachineChangesNothing : Obligations.StoppedMachineChangesNothing := by
  unfold Obligations.StoppedMachineChangesNothing
  exact fun _ => step_of_stopped

/-! ## A byte placed in the program bank -/

section
variable (s : State)

/-- The bank of the byte is one entry of the bank table, in either buffer. -/
theorem State.placeProgramByte_cases (a : Word) (v : Byte) :
    ((bankTable s.config s.pbr).1 = .rom ∧
      s.placeProgramByte a v = { s with rom := s.rom.write ((bankTable s.config s.pbr).2 + a.toNat) v }) ∨
    ((bankTable s.config s.pbr).1 = .ram ∧
      s.placeProgramByte a v = { s with ram := s.ram.write ((bankTable s.config s.pbr).2 + a.toNat) v }) := by
  cases h : (bankTable s.config s.pbr).1
  · exact .inl ⟨rfl, by simp [State.placeProgramByte, h]⟩
  · exact .inr ⟨rfl, by simp [State.placeProgramByte, h]⟩

/-- It is read at its offset, and no other offset of the bank changes. -/
theorem State.placeProgramByte_prgRead (a b : Word) (v : Byte) :
    (s.placeProgramByte a v).prgRead b = if b = a then v else s.prgRead b := by
  obtain ⟨hbank, h⟩ | ⟨hbank, h⟩ := s.placeProgramByte_cases a v
  · simp [h, State.prgRead, State.bankRead, State.readBuffer, hbank, BitVec.toNat_eq]
  · simp [h, State.prgRead, State.bankRead, State.readBuffer, hbank, BitVec.toNat_eq]

/-- Nothing but the two buffers changes. -/
theorem State.placeProgramByte_frame (a : Word) (v : Byte) :
    s.placeProgramByte a v = { s with ram := (s.placeProgramByte a v).ram, rom := (s.placeProgramByte a v).rom } := by
  obtain ⟨-, h⟩ | ⟨-, h⟩ := s.placeProgramByte_cases a v
  · rw [h]
  · rw [h]

/-! ## A table word placed -/

/-- The mode flags are those set: GO, which is set after them, is none of them. -/
theorem State.setMode_setFlag_mode (m : Mode) : ((s.setMode m).setFlag bitGO true).mode = m := by
  simp [State.setMode, State.mode, bitGO, bitALT1, bitALT2, bitB]

variable (w : TableWord)

/-- A word placed, up to its immediate bytes: the mode flags, GO and the opcode byte. -/
def State.keyed : State := { (s.setMode w.mode).setFlag bitGO true with pipe := w.op }

theorem State.placeWord_eq :
    s.placeWord w = ((s.keyed w).placeProgramByte s.pc w.b1).placeProgramByte (s.pc + 1) w.b2 := rfl

theorem State.placeWord_frame :
    s.placeWord w = { s.keyed w with ram := (s.placeWord w).ram, rom := (s.placeWord w).rom } := by
  rw [s.placeWord_eq w, State.placeProgramByte_frame, (s.keyed w).placeProgramByte_frame]

theorem State.placeWord_prgRead_pc : (s.placeWord w).prgRead s.pc = w.b1 := by
  have hne : s.pc ≠ s.pc + 1 := by simp
  rw [s.placeWord_eq w, State.placeProgramByte_prgRead, if_neg hne, State.placeProgramByte_prgRead, if_pos rfl]

theorem State.placeWord_prgRead_next : (s.placeWord w).prgRead (s.pc + 1) = w.b2 := by
  rw [s.placeWord_eq w, State.placeProgramByte_prgRead, if_pos rfl]

/-- The fetch after it reads the parts of the word. -/
theorem State.placeWord_fetched : (s.placeWord w).fetched = decodeOp s.config.opTable w.mode w.op w.b1 w.b2 := by
  have hpc : (s.placeWord w).pc = s.pc := by rw [s.placeWord_frame w]; rfl
  have hmode : (s.placeWord w).mode = w.mode := by rw [s.placeWord_frame w]; exact s.setMode_setFlag_mode w.mode
  have hpipe : (s.placeWord w).pipe = w.op := by rw [s.placeWord_frame w]; rfl
  have hconfig : (s.placeWord w).config = s.config := by rw [s.placeWord_frame w]; rfl
  rw [State.fetched, hconfig, hmode, hpipe, hpc, s.placeWord_prgRead_pc w, s.placeWord_prgRead_next w]

theorem State.placeWord_flag_go : (s.placeWord w).flag bitGO = true := by
  rw [s.placeWord_frame w]
  exact (s.setMode w.mode).setFlag_flag bitGO true bitGO

end

theorem eq_decodeOp_of_decodeTableWord {nbits w : Nat} {i : Instr} (h : decodeTableWord nbits w = some i) :
    i = decodeOp specOpTable (tableWord nbits w).mode (tableWord nbits w).op (tableWord nbits w).b1 (tableWord nbits w).b2 := by
  simp only [decodeTableWord] at h
  split at h
  next hdecode => exact Option.some.inj h ▸ eq_decodeOp_of_decode hdecode
  next => cases h

/-- Settles O10: the placed flags, opcode byte and immediate bytes are what the step fetches. -/
theorem placedWordIsTheNextInstruction : Obligations.PlacedWordIsTheNextInstruction := by
  unfold Obligations.PlacedWordIsTheNextInstruction
  intro s nbits w p u
  have hstep : step u = exec (decodeOp s.config.opTable p.mode p.op p.b1 p.b2) u.prologue :=
    (step_of_running (s.placeWord_flag_go p)).trans (congrArg (exec · u.prologue) (s.placeWord_fetched p))
  refine ⟨hstep, fun i hmap hi => ?_⟩
  rw [hstep, hmap, eq_decodeOp_of_decodeTableWord hi]

end Sys2Proof.Machine
end

section
/-! The laws of the add and the subtract (41_alu.md R195, (c) to (f)). -/

namespace Sys2Proof.Machine

/-- Adding back what was subtracted gives the first word again, modulo 65536. -/
theorem addFlags_subFlags_value (a b : Word) : (addFlags (subFlags a b false).value b false).value = a := by
  apply BitVec.eq_of_toNat_eq
  have hsub := toNat_subFlags_value a b false
  have ha := a.isLt
  rw [toNat_addFlags_value]
  simp only [Bool.toNat_false] at hsub ⊢
  omega

/-- Settles O27: OV is signed overflow by the formulas, and at the edges the unbounded results lie inside their bounds. -/
theorem arithmeticLaws : Obligations.ArithmeticLaws := by
  unfold Obligations.ArithmeticLaws
  intro a b
  have hlow := a.le_toInt
  have hhigh := a.toInt_lt
  have ha := a.isLt
  refine ⟨?_, ?_, addFlags_subFlags_value a b, ?_, ?_, ?_, ?_, ?_⟩
  · simp [addFlags_ov_eq_decide]
  · simp [subFlags_ov_eq_decide]
  · exact decide_eq_false (p := 0x10000 ≤ a.toNat + 0 + 0) (by omega)
  · exact (addFlags_ov_eq_decide a 0 false).trans
      (decide_eq_false (p := a.toInt + 0 + 0 < -32768 ∨ 32767 < a.toInt + 0 + 0) (by omega))
  · exact decide_eq_true (p := (0 : Int) ≤ a.toNat - 0 - 0) (by omega)
  · exact (subFlags_ov_eq_decide a 0 false).trans
      (decide_eq_false (p := a.toInt - 0 - 0 < -32768 ∨ 32767 < a.toInt - 0 - 0) (by omega))
  · exact decide_eq_false (p := (0 : Int) ≤ a.toNat - 0xFFFF - 1) (by omega)

end Sys2Proof.Machine
end

section
/-! Words in RAM (20_memory.md R59 to R61, R65): a word is a byte and, above it, its partner's. -/

namespace Sys2Proof.Machine

theorem wordOfBytes_rotateLeft (lo hi : Byte) : (wordOfBytes lo hi).rotateLeft 8 = wordOfBytes hi lo := by
  apply BitVec.eq_of_toNat_eq
  have hlo := lo.isLt
  have hhi := hi.isLt
  have hleft : (lo.toNat + 256 * hi.toNat) <<< 8 % 2 ^ 16 = 2 ^ 8 * lo.toNat := by rw [Nat.shiftLeft_eq]; omega
  have hright : (lo.toNat + 256 * hi.toNat) >>> 8 = hi.toNat := by rw [Nat.shiftRight_eq_div_pow]; omega
  rw [BitVec.toNat_rotateLeft, toNat_wordOfBytes, toNat_wordOfBytes, hleft, hright, ← Nat.two_pow_add_eq_or_of_lt hhi, Nat.add_comm]

theorem partner_of_odd {a : Word} (h : a.toNat % 2 = 1) : partner a = a - 1 := by
  have hpos : 1 ≤ a := BitVec.le_def.mpr (by simp; omega)
  apply BitVec.eq_of_toNat_eq
  rw [BitVec.toNat_sub_of_le hpos, partner, BitVec.toNat_xor]
  exact Nat.xor_one_of_odd (Nat.odd_iff.mpr h)

@[simp] theorem partner_partner (a : Word) : partner (partner a) = a := by simp [partner]

/-- The bytes of a 16-bit write are read back: its two addresses are two bytes of the buffer. -/
theorem State.ramRead16_ramWrite16 (s : State) (a v : Word) : (s.ramWrite16 a v).ramRead16 a = v := by
  have hphys (b : Word) : (s.ramWrite16 a v).ramPhys b = s.ramPhys b := by rw [s.ramWrite16_frame]; rfl
  have hne : s.ramPhys (partner a) ≠ s.ramPhys a := fun h => partner_ne a ((s.ramPhys_inj _ _).mp h)
  have hlow : (s.ramWrite16 a v).ramRead a = lowByte v := by
    rw [State.ramRead, hphys, State.ramWrite16_read]
    exact if_pos rfl
  have hhigh : (s.ramWrite16 a v).ramRead (partner a) = highByte v := by
    rw [State.ramRead, hphys, State.ramWrite16_read]
    exact (if_neg hne).trans (if_pos rfl)
  rw [State.ramRead16, hlow, hhigh, wordOfBytes_bytes]

/-- Settles O42: the two bytes written are the two read, and an address is its partner's partner, so the two words have the same bytes. -/
theorem wordAccessLaws : Obligations.WordAccessLaws := by
  unfold Obligations.WordAccessLaws
  intro s a v
  refine ⟨s.ramRead16_ramWrite16 a v, fun hodd => ⟨partner_of_odd hodd, ?_⟩, (lowByte_wordOfBytes _ _).symm⟩
  rw [← partner_of_odd hodd, State.ramRead16, State.ramRead16, partner_partner, wordOfBytes_rotateLeft]

end Sys2Proof.Machine
end

section
/-! The geometry of the bitmap (43_plot.md R244 to R246, R250 (d)): a plane's byte is a character cell and a byte inside it. -/

namespace Sys2Proof.Machine

/-! ## Cells -/

/-- The number of the 8 x 8 cell at column `j` and row `i`, in the order of the bitmap (R244). -/
def cellIndex (height j i : Nat) : Nat :=
  if height = 256 then (i / 16) * 512 + (i % 16) * 16 + (j / 16) * 256 + j % 16 else i + j * (height / 8)

theorem pixOff_eq_cell (depth height : Nat) (x y : Byte) :
    pixOff depth height x y = cellSize depth * cellIndex height (x.toNat / 8) (y.toNat / 8) + y.toNat % 8 * 2 := by
  unfold pixOff colptr xoff cellIndex
  split_ifs <;> ring

section
variable {height i j : Nat} (hheight : height ∈ [128, 160, 192, 256]) (hj : j < 32) (hi : i < height / 8)
include hheight hj hi

theorem cellIndex_lt : cellIndex height j i < 32 * (height / 8) := by
  simp only [List.mem_cons, List.not_mem_nil, or_false] at hheight
  obtain rfl | rfl | rfl | rfl := hheight <;> simp only [cellIndex, Nat.reduceEqDiff, ↓reduceIte] <;> omega

theorem cellIndex_inj {i' j' : Nat} (hj' : j' < 32) (hi' : i' < height / 8) (h : cellIndex height j i = cellIndex height j' i') :
    j = j' ∧ i = i' := by
  simp only [List.mem_cons, List.not_mem_nil, or_false] at hheight
  obtain rfl | rfl | rfl | rfl := hheight <;> simp only [cellIndex, Nat.reduceEqDiff, ↓reduceIte] at h <;> omega

end

/-- An offset gives its cell and the byte inside it. -/
theorem cell_and_byte_inj {n a b q r : Nat} (hq : q < n) (hr : r < n) (h : n * a + q = n * b + r) : a = b ∧ q = r := by
  have hpos : 0 < n := Nat.zero_lt_of_lt hq
  constructor
  · have hdiv := congrArg (· / n) h
    simpa [Nat.mul_add_div hpos, Nat.div_eq_of_lt hq, Nat.div_eq_of_lt hr] using hdiv
  · have hmod := congrArg (· % n) h
    simpa [Nat.mul_add_mod, Nat.mod_eq_of_lt hq, Nat.mod_eq_of_lt hr] using hmod

/-! ## The bytes of a cell and the bits of a byte -/

theorem row_add_planeOff_lt {depth r p : Nat} (hdepth : depth ∈ [2, 4, 8]) (hr : r < 8) (hp : p < depth) :
    r * 2 + planeOff p < cellSize depth := by
  unfold planeOff cellSize
  simp only [List.mem_cons, List.not_mem_nil, or_false] at hdepth
  omega

theorem row_add_planeOff_inj {r r' p p' : Nat} (hr : r < 8) (hr' : r' < 8) (h : r * 2 + planeOff p = r' * 2 + planeOff p') :
    r = r' ∧ p = p' := by
  unfold planeOff at h
  omega

theorem pixMask_inj {x x' : Byte} (h : pixMask x = pixMask x') : x.toNat % 8 = x'.toNat % 8 := by
  have hbit := getLsbD_pixMask x' (7 - x.toNat % 8)
  rw [← h, getLsbD_pixMask, decide_eq_true rfl, eq_comm, decide_eq_true_iff] at hbit
  omega

/-- Settles O51: the cell and the byte inside it give the coordinates of the cell, the row and the plane, and the mask gives the column. -/
theorem pixelsStayInTheBitmapAndApart : Obligations.PixelsStayInTheBitmapAndApart := by
  unfold Obligations.PixelsStayInTheBitmapAndApart
  intro depth height x y x' y' p p' hdepth hheight hy hy' hp hp'
  have column (x : Byte) : x.toNat / 8 < 32 := by omega
  have row {y : Byte} (hy : y.toNat < height) : y.toNat / 8 < height / 8 := by
    simp only [List.mem_cons, List.not_mem_nil, or_false] at hheight
    omega
  have inCell (y : Byte) {p : Nat} (hp : p < depth) : y.toNat % 8 * 2 + planeOff p < cellSize depth :=
    row_add_planeOff_lt hdepth (Nat.mod_lt _ (by decide)) hp
  rw [pixOff_eq_cell, pixOff_eq_cell, Nat.add_assoc, Nat.add_assoc]
  refine ⟨?_, fun hbyte hmask => ?_⟩
  · calc
      _ < cellSize depth * (cellIndex height (x.toNat / 8) (y.toNat / 8) + 1) := Nat.add_lt_add_left (inCell y hp) _
      _ ≤ cellSize depth * (32 * (height / 8)) := Nat.mul_le_mul_left _ (cellIndex_lt hheight (column x) (row hy))
      _ = screenSize depth height := Nat.mul_comm _ _
  · obtain ⟨hcell, hoffset⟩ := cell_and_byte_inj (inCell y hp) (inCell y' hp') hbyte
    obtain ⟨hx, hy⟩ := cellIndex_inj hheight (column x) (row hy) (column x') (row hy') hcell
    obtain ⟨hrow, hplane⟩ := row_add_planeOff_inj (Nat.mod_lt _ (by decide)) (Nat.mod_lt _ (by decide)) hoffset
    have hcolumn := pixMask_inj hmask
    exact ⟨BitVec.eq_of_toNat_eq (by omega), BitVec.eq_of_toNat_eq (by omega), hplane⟩

end Sys2Proof.Machine
end
